-- ==== Sys2Proof/Word.lean ====
section
/-! DEFINITION. The word types of the intra_predictor: bytes of memory, 32-bit host registers (R23) and the 16-bit entries of the edge buffers (R33). -/

namespace Sys2Proof

/-- One byte of memory (R40). -/
abbrev Byte := BitVec 8

/-- One host register (R23: ten 32-bit registers). -/
abbrev Word := BitVec 32

/-- One entry of an edge buffer (R33: "each entry a 16-bit unsigned sample"). -/
abbrev Sample := BitVec 16

end Sys2Proof
end

