-- ==== Sys2Proof/Config.lean ====
section
/-! DEFINITION. What the platform fixes (R7, R47, R51) as plain data, the set of operand registers (R23) that the command latch copies (R34), and the free values: constants without a body for what the spec leaves unspecified (R33, R34, R220, 93 part 1 I11, I12). -/

namespace Sys2Proof

/-- One region of admitted byte addresses, `base` up to but not including `base + size` (R47, R224). -/
structure Region where
  base : Nat
  size : Nat
  deriving DecidableEq, Repr, Inhabited

/-- The platform's parameters. DESIGN CHOICE (log 8): they are plain data beside the machine's state, so that
statements hold for every value and a run can still be evaluated; safe. -/
structure Platform where
  /-- ADDR_W (R7, R40, I15): the address width in bits. -/
  addrW : Nat
  /-- IPRED_BASE (R23, R51, I14): the byte address of the register block. -/
  ipredBase : Nat
  /-- The byte addresses memory admits (R47, R224). -/
  alloc : List Region
  deriving DecidableEq, Repr, Inhabited

/-- The eight operand registers of R23; the command latch of R34 holds the same eight. -/
structure OperandRegs where
  cmd : Word
  stride : Word
  dstLo : Word
  dstHi : Word
  x0 : Word
  y0 : Word
  frameW : Word
  frameH : Word
  deriving DecidableEq, Repr, Inhabited

/-- FREE VALUE (log 5): the content of the command latch outside a command (R34, R36, I12). -/
opaque Config.freeLatch : Nat → OperandRegs

/-- FREE VALUE (log 5): the content of the ABOVE buffer outside a command (R33, I12). -/
opaque Config.freeAbove : Nat → Vector Sample 65

/-- FREE VALUE (log 5): the content of the LEFT buffer outside a command (R33, I12). -/
opaque Config.freeLeft : Nat → Vector Sample 32

/-- FREE VALUE (log 6): whether an interrupted command wrote its `k`-th destination sample (R220, I11). -/
opaque Config.sampleWritten : Nat → Nat → Bool

end Sys2Proof
end

