-- ==== Sys2Proof/Machine/State.lean ====
section
/-! DEFINITION. The machine's state as plain data: the host-visible registers (R23, R30), the block's internal state (R33, R34), plane memory (R40), the platform's parameters, and the list of what the other agents do next. -/

namespace Sys2Proof.Machine

/-- The fault codes of R200, in code order. -/
inductive FaultCode where
  | none                 -- 0
  | startWhileBusy       -- 1
  | reservedBits         -- 2
  | reservedMode         -- 3
  | reservedBd           -- 4
  | bdStorageMismatch    -- 5
  | misalignedDst        -- 6
  | strideTooSmall       -- 7
  | positionOutOfFrame   -- 8
  | edgeOutsideFrame     -- 9
  | sampleOutOfRange     -- 10
  deriving DecidableEq, Repr, Inhabited

/-- STATUS (R30); its word is `statusWord` in Machine/Flags.lean. -/
structure Status where
  busy : Bool
  fault : Bool
  faultCode : FaultCode
  deriving DecidableEq, Repr, Inhabited

/-- One access of the host. `addr` and `bytes` are the byte address and the width of the access. -/
inductive HostOp where
  /-- read the register block (R23); never plane memory (log 22) -/
  | readReg (addr bytes : Nat)
  /-- write the register block (R23); never plane memory (log 22) -/
  | writeReg (addr bytes : Nat) (value : Word)
  /-- read plane memory (R52); never the register block (log 22) -/
  | readMem (addr bytes : Nat)
  /-- write plane memory (R52); never the register block (log 22) -/
  | writeMem (addr bytes value : Nat)
  deriving DecidableEq, Repr

/-- What happens next outside a running command. DESIGN CHOICE (log 1): the interleaving of host, platform and block is
this list's order, so that a statement for every list holds for every duration of a command (R230, I16); safe. -/
inductive Event where
  /-- the host performs an access -/
  | host (op : HostOp)
  /-- the block takes its turn: a running command performs its one step (R100) -/
  | blockTurn
  /-- the platform resets the block (R220) -/
  | reset
  /-- the platform's allocation becomes `rs` (R47, R223) -/
  | allocation (rs : List Region)
  deriving DecidableEq, Repr

/-- What a host read returned. -/
inductive Reply where
  | register (value : Word)
  | memory (value : Nat)
  deriving DecidableEq, Repr

/-- Plane memory (R40): the bytes that differ from what an unlisted address reads as, by rising address. -/
abbrev Memory := List Host.Cell

/-- The whole machine. The last four fields and `stuck` are said in INVENTORY.md '## State'. -/
structure State where
  /-- CMD, STRIDE, DST_LO, DST_HI, X0, Y0, FRAME_W, FRAME_H (R23 to R28) -/
  regs : OperandRegs
  /-- STATUS (R30) -/
  status : Status
  /-- the command latch (R34) -/
  latch : OperandRegs
  /-- the ABOVE buffer (R33); `A[i]` stands at index `i + 1` -/
  above : Vector Sample 65
  /-- the LEFT buffer (R33); `L[i]` stands at index `i` -/
  left : Vector Sample 32
  /-- the running command waits for a request that memory does not admit (R47, R227) -/
  stuck : Bool
  /-- plane memory (R40) -/
  mem : Memory
  /-- the platform's parameters (R7, R47, R51) -/
  platform : Platform
  /-- what the agents do next (log 1); the model's own field -/
  inputs : List Event
  /-- what host reads returned, newest first (log 18); the model's own field -/
  replies : List Reply
  /-- how many free values were used (logs 5, 6); the model's own field -/
  freeCount : Nat
  deriving DecidableEq, Repr

/-- Why the machine stops with a fault. No prediction command raises one: the spec's own faults (R200) are next states. -/
inductive Fault where
  /-- A host access to plane memory outside the address space or the platform's allocation (R43, R47), and outside a
  running command's footprint. Raised by `memoryAccess`. Safe: the spec gives the host's own access no result there (log 12). -/
  | hostAccessNotAdmitted
  deriving DecidableEq, Repr

/-- Why the machine refuses. No prediction command refuses. -/
inductive Refusal where
  /-- An instruction without a meaning, rejected by its arm of `exec`. Safe. No arm uses it. -/
  | notModelled (mnemonic : String)
  /-- A register access that is not 32-bit and 4-byte aligned (R31, I10). Raised by `hostOp`. Safe: the spec refuses it. -/
  | registerAccessShape
  /-- A register access outside the block's 0x00 to 0x3F (R23). Raised by `hostOp`. Safe: no rule gives it a meaning (log 11). -/
  | outsideRegisterBlock
  /-- A host write of an operand register while BUSY = 1 (R31, R226). Raised by `hostOp`. Safe: the spec refuses it. -/
  | operandWriteWhileBusy
  /-- A host access to the running command's read footprint or write set while BUSY = 1 (R226, I9), admitted or not.
  Raised by `memoryAccess`.
  Safe: the spec refuses it (log 10). -/
  | footprintAccessWhileBusy
  deriving DecidableEq, Repr

/-- Every operand register 0 (R36). -/
def zeroRegs : OperandRegs :=
  ⟨0, 0, 0, 0, 0, 0, 0, 0⟩

/-- The state right after reset (R36, R221). The spec leaves the latch and the edge buffers unspecified: DESIGN CHOICE
zero (logs 3, 4); unsafe. The platform's values: ADDR_W its default (R7), the rest DESIGN CHOICE (log 8); unsafe. -/
def State.reset : State where
  regs := zeroRegs
  status := ⟨false, false, .none⟩
  latch := zeroRegs
  above := Vector.replicate 65 0
  left := Vector.replicate 32 0
  stuck := false
  mem := []
  platform := ⟨64, 0, [⟨0, 2 ^ 64⟩]⟩
  inputs := []
  replies := []
  freeCount := 0

end Sys2Proof.Machine
end

