-- ==== Sys2Proof/Machine/Arith.lean ====
section
/-! DEFINITION. The arithmetic primitives of the modes (R8, R13, R14, R15), on unbounded integers. -/

namespace Sys2Proof.Machine

/-- R13: `avg2(a,b) = (a+b+1) >> 1`. -/
def avg2 (a b : Nat) : Nat :=
  (a + b + 1) / 2

/-- R13: `avg3(a,b,c) = (a+2b+c+2) >> 2`. -/
def avg3 (a b c : Nat) : Nat :=
  (a + 2 * b + c + 2) / 4

/-- The greatest sample of bit depth `bd`, `2^BD - 1` (R11). -/
def maxSample (bd : Nat) : Nat :=
  2 ^ bd - 1

/-- R14: `clip_BD(v) = min(max(v, 0), 2^BD - 1)`. -/
def clip (bd : Nat) (v : Int) : Nat :=
  (min (max v 0) (maxSample bd : Int)).toNat

/-- R15: `base(BD) = 128 << (BD - 8)`. -/
def baseValue (bd : Nat) : Nat :=
  128 * 2 ^ (bd - 8)

/-- `f 0 + ... + f (n-1)`, the sums of R141 to R143. -/
def sumTo (f : Int → Nat) (n : Nat) : Nat :=
  match n with
  | 0 => 0
  | n + 1 => sumTo f n + f n

end Sys2Proof.Machine
end

