-- ==== Sys2Proof/Syntax.lean ====
section
/-! DEFINITION. The prediction commands of the intra_predictor (R3): the thirteen decoded command kinds of opcode_table.json (R73), each with the fields its descriptor carries (R60). -/

namespace Sys2Proof

/-- TXSZ, the block size code (R63): 4, 8, 16 or 32 samples a side. -/
inductive TxSize where
  | n4
  | n8
  | n16
  | n32
  deriving DecidableEq, Repr, Inhabited

/-- BD, the legal bit depth codes (R64): 8, 10 or 12 bits. -/
inductive BitDepth where
  | bits8
  | bits10
  | bits12
  deriving DecidableEq, Repr, Inhabited

/-- The fields of a descriptor beside MODE (R60). -/
structure Desc where
  txSize : TxSize
  haveLeft : Bool
  haveAbove : Bool
  haveRight : Bool
  bitDepth : BitDepth
  sample16 : Bool
  deriving DecidableEq, Repr, Inhabited

/-- The fields a DC sub-variant leaves free: HAVE_LEFT and HAVE_ABOVE are fixed by the kind (R67). -/
structure DcDesc where
  txSize : TxSize
  haveRight : Bool
  bitDepth : BitDepth
  sample16 : Bool
  deriving DecidableEq, Repr, Inhabited

/-- The thirteen command kinds (R73, R101). -/
inductive Kind where
  | v
  | h
  | d45
  | d135
  | d117
  | d153
  | d207
  | d63
  | tm
  | dcBoth
  | dcLeft
  | dcTop
  | dc128
  deriving DecidableEq, Repr, Inhabited

/-- One prediction command: one constructor per row of opcode_table.json. -/
inductive Instr where
  | v (d : Desc)          -- IPRED.V, R112
  | h (d : Desc)          -- IPRED.H, R113
  | d45 (d : Desc)        -- IPRED.D45, R114
  | d135 (d : Desc)       -- IPRED.D135, R115
  | d117 (d : Desc)       -- IPRED.D117, R116
  | d153 (d : Desc)       -- IPRED.D153, R117
  | d207 (d : Desc)       -- IPRED.D207, R118
  | d63 (d : Desc)        -- IPRED.D63, R119
  | tm (d : Desc)         -- IPRED.TM, R150
  | dcBoth (d : DcDesc)   -- IPRED.DCBOTH, R141
  | dcLeft (d : DcDesc)   -- IPRED.DCLEFT, R142
  | dcTop (d : DcDesc)    -- IPRED.DCTOP, R143
  | dc128 (d : DcDesc)    -- IPRED.DC128, R144
  deriving DecidableEq, Repr, Inhabited

end Sys2Proof
end

