-- ==== Sys2Proof/WellFormed.lean ====
section
/-! DEFINITION. Which commands a legal descriptor can name. Of the four conditions of R66, three (reserved bits, MODE, BD) cannot be broken by a term of Instr; the fourth, SAMPLE16 = 1 or BD = 0, is checked here. -/

namespace Sys2Proof

/-- R65, R66: 8-bit storage holds 8-bit samples only ("SAMPLE16 = 1 or BD = 0"). -/
def storageMatches (bitDepth : BitDepth) (sample16 : Bool) : Bool :=
  match bitDepth, sample16 with
  | .bits8, _ => true
  | .bits10, s => s
  | .bits12, s => s

/-- A command that a legal descriptor encodes (R66). -/
def wellFormed (i : Instr) : Bool :=
  match i with
  | .v d => storageMatches d.bitDepth d.sample16
  | .h d => storageMatches d.bitDepth d.sample16
  | .d45 d => storageMatches d.bitDepth d.sample16
  | .d135 d => storageMatches d.bitDepth d.sample16
  | .d117 d => storageMatches d.bitDepth d.sample16
  | .d153 d => storageMatches d.bitDepth d.sample16
  | .d207 d => storageMatches d.bitDepth d.sample16
  | .d63 d => storageMatches d.bitDepth d.sample16
  | .tm d => storageMatches d.bitDepth d.sample16
  | .dcBoth d => storageMatches d.bitDepth d.sample16
  | .dcLeft d => storageMatches d.bitDepth d.sample16
  | .dcTop d => storageMatches d.bitDepth d.sample16
  | .dc128 d => storageMatches d.bitDepth d.sample16

end Sys2Proof
end

