-- ==== Sys2Proof/Decode.lean ====
section
/-! DEFINITION. The descriptor's decoder (R60 to R67), total on every 32-bit word and rejecting by name, and the encoder (R69) written from the same tables. -/

namespace Sys2Proof

/-- Why a descriptor is illegal (R66); the machine records these as fault codes 2 to 5. -/
inductive DecodeError where
  /-- CMD[31:12] is not 0 (code 2). -/
  | reservedBits
  /-- MODE is 10 to 15 (code 3). -/
  | reservedMode
  /-- BD is 3 (code 4). -/
  | reservedBd
  /-- SAMPLE16 = 0 with BD not 0 (code 5). -/
  | bdStorageMismatch
  deriving DecidableEq, Repr

/-- R9: the field of `len` bits whose lowest bit is `lo`, zero-extended. -/
def fieldOf (w : Word) (lo len : Nat) : Nat :=
  w.toNat / 2 ^ lo % 2 ^ len

/-- R9: bit `k`. -/
def bitOf (w : Word) (k : Nat) : Bool :=
  fieldOf w k 1 == 1

/-- R63. -/
def txSizeOfCode (c : Nat) : TxSize :=
  match c with
  | 0 => .n4
  | 1 => .n8
  | 2 => .n16
  | _ => .n32

/-- R64; 3 is reserved. -/
def bitDepthOfCode (c : Nat) : Option BitDepth :=
  match c with
  | 0 => some .bits8
  | 1 => some .bits10
  | 2 => some .bits12
  | _ => none

/-- R61, R67: the command MODE names. MODE 0 selects the DC sub-variant by (HAVE_LEFT, HAVE_ABOVE). -/
def instrOfMode (mode : Nat) (d : Desc) : Option Instr :=
  match mode with
  | 0 =>
    let dc : DcDesc := ⟨d.txSize, d.haveRight, d.bitDepth, d.sample16⟩
    match d.haveLeft, d.haveAbove with
    | true, true => some (.dcBoth dc)
    | true, false => some (.dcLeft dc)
    | false, true => some (.dcTop dc)
    | false, false => some (.dc128 dc)
  | 1 => some (.v d)
  | 2 => some (.h d)
  | 3 => some (.d45 d)
  | 4 => some (.d135 d)
  | 5 => some (.d117 d)
  | 6 => some (.d153 d)
  | 7 => some (.d207 d)
  | 8 => some (.d63 d)
  | 9 => some (.tm d)
  | _ => none

/-- R66: the conditions of legality in increasing fault code, then R67's selection. -/
def decode (w : Word) : Except DecodeError Instr :=
  if fieldOf w 12 20 ≠ 0 then .error .reservedBits
  else if 9 < fieldOf w 0 4 then .error .reservedMode
  else
    match bitDepthOfCode (fieldOf w 9 2) with
    | none => .error .reservedBd
    | some bd =>
      let d : Desc := ⟨txSizeOfCode (fieldOf w 4 2), bitOf w 6, bitOf w 7, bitOf w 8, bd, bitOf w 11⟩
      if storageMatches d.bitDepth d.sample16 then
        match instrOfMode (fieldOf w 0 4) d with
        | some i => .ok i
        | none => .error .reservedMode
      else .error .bdStorageMismatch

/-- R63. -/
def txSizeCode (t : TxSize) : Nat :=
  match t with
  | .n4 => 0
  | .n8 => 1
  | .n16 => 2
  | .n32 => 3

/-- R64. -/
def bitDepthCode (b : BitDepth) : Nat :=
  match b with
  | .bits8 => 0
  | .bits10 => 1
  | .bits12 => 2

/-- A DC sub-variant's descriptor with the availability flags its kind fixes (R67, R72). -/
def dcDesc (haveLeft haveAbove : Bool) (d : DcDesc) : Desc :=
  ⟨d.txSize, haveLeft, haveAbove, d.haveRight, d.bitDepth, d.sample16⟩

/-- The kind of a command (R67). -/
def kindOf (i : Instr) : Kind :=
  match i with
  | .v _ => .v
  | .h _ => .h
  | .d45 _ => .d45
  | .d135 _ => .d135
  | .d117 _ => .d117
  | .d153 _ => .d153
  | .d207 _ => .d207
  | .d63 _ => .d63
  | .tm _ => .tm
  | .dcBoth _ => .dcBoth
  | .dcLeft _ => .dcLeft
  | .dcTop _ => .dcTop
  | .dc128 _ => .dc128

/-- The descriptor fields of a command. -/
def descOf (i : Instr) : Desc :=
  match i with
  | .v d => d
  | .h d => d
  | .d45 d => d
  | .d135 d => d
  | .d117 d => d
  | .d153 d => d
  | .d207 d => d
  | .d63 d => d
  | .tm d => d
  | .dcBoth d => dcDesc true true d
  | .dcLeft d => dcDesc true false d
  | .dcTop d => dcDesc false true d
  | .dc128 d => dcDesc false false d

/-- The command of a kind and a descriptor (R67): the inverse of `kindOf` and `descOf`. -/
def instrOfKind (k : Kind) (d : Desc) : Instr :=
  let dc : DcDesc := ⟨d.txSize, d.haveRight, d.bitDepth, d.sample16⟩
  match k with
  | .v => .v d
  | .h => .h d
  | .d45 => .d45 d
  | .d135 => .d135 d
  | .d117 => .d117 d
  | .d153 => .d153 d
  | .d207 => .d207 d
  | .d63 => .d63 d
  | .tm => .tm d
  | .dcBoth => .dcBoth dc
  | .dcLeft => .dcLeft dc
  | .dcTop => .dcTop dc
  | .dc128 => .dc128 dc

/-- R61: the MODE value of a kind. UNVERIFIED (G1, log 13): VP9's numbering; unsafe. -/
def modeCode (k : Kind) : Nat :=
  match k with
  | .v => 1
  | .h => 2
  | .d45 => 3
  | .d135 => 4
  | .d117 => 5
  | .d153 => 6
  | .d207 => 7
  | .d63 => 8
  | .tm => 9
  | .dcBoth => 0
  | .dcLeft => 0
  | .dcTop => 0
  | .dc128 => 0

/-- R69: the descriptor as a sum of its fields at their places. -/
def encodeFields (mode : Nat) (d : Desc) : Word :=
  BitVec.ofNat 32
    (mode + txSizeCode d.txSize * 2 ^ 4 + d.haveLeft.toNat * 2 ^ 6 + d.haveAbove.toNat * 2 ^ 7
      + d.haveRight.toNat * 2 ^ 8 + bitDepthCode d.bitDepth * 2 ^ 9 + d.sample16.toNat * 2 ^ 11)

/-- The descriptor word of a command (R69). -/
def encode (i : Instr) : Word :=
  encodeFields (modeCode (kindOf i)) (descOf i)

/-- opcode_table.json: the row's mask over CMD (R73). -/
def tableMask (k : Kind) : Word :=
  match k with
  | .v => 0xFFFFF00F#32
  | .h => 0xFFFFF00F#32
  | .d45 => 0xFFFFF00F#32
  | .d135 => 0xFFFFF00F#32
  | .d117 => 0xFFFFF00F#32
  | .d153 => 0xFFFFF00F#32
  | .d207 => 0xFFFFF00F#32
  | .d63 => 0xFFFFF00F#32
  | .tm => 0xFFFFF00F#32
  | .dcBoth => 0xFFFFF0CF#32
  | .dcLeft => 0xFFFFF0CF#32
  | .dcTop => 0xFFFFF0CF#32
  | .dc128 => 0xFFFFF0CF#32

/-- opcode_table.json: the row's match over CMD (R73). -/
def tableMatch (k : Kind) : Word :=
  match k with
  | .v => 0x00000001#32
  | .h => 0x00000002#32
  | .d45 => 0x00000003#32
  | .d135 => 0x00000004#32
  | .d117 => 0x00000005#32
  | .d153 => 0x00000006#32
  | .d207 => 0x00000007#32
  | .d63 => 0x00000008#32
  | .tm => 0x00000009#32
  | .dcBoth => 0x000000C0#32
  | .dcLeft => 0x00000040#32
  | .dcTop => 0x00000080#32
  | .dc128 => 0x00000000#32

/-- The CMD word a numbered instruction stands for: its low `nbits` bits, the rest 0 (one 32-bit word, R60). -/
def tableWord (nbits w : Nat) : Word :=
  BitVec.ofNat 32 (w % 2 ^ nbits)

/-- The command this decoder reads from a numbered instruction word. -/
def decodeTableWord (nbits w : Nat) : Option Instr :=
  match decode (tableWord nbits w) with
  | .ok i => some i
  | .error _ => none

end Sys2Proof
end

