-- ==== Sys2Proof/Machine/Flags.lean ====
section
/-! DEFINITION. The block has no condition codes or flags (R22); what stands here is the STATUS register's word (R30), the numbers of the fault codes (R200) and the code of each illegal descriptor (R66). -/

namespace Sys2Proof.Machine

/-- R200: the number of a fault code. -/
def faultNumber (k : FaultCode) : Nat :=
  match k with
  | .none => 0
  | .startWhileBusy => 1
  | .reservedBits => 2
  | .reservedMode => 3
  | .reservedBd => 4
  | .bdStorageMismatch => 5
  | .misalignedDst => 6
  | .strideTooSmall => 7
  | .positionOutOfFrame => 8
  | .edgeOutsideFrame => 9
  | .sampleOutOfRange => 10

/-- R66: the fault code of an illegal descriptor. -/
def decodeFault (e : DecodeError) : FaultCode :=
  match e with
  | .reservedBits => .reservedBits
  | .reservedMode => .reservedMode
  | .reservedBd => .reservedBd
  | .bdStorageMismatch => .bdStorageMismatch

/-- R30: STATUS as the host reads it: BUSY [0], FAULT [1], FAULT_CODE [15:8], the rest 0. -/
def statusWord (st : Status) : Word :=
  BitVec.ofNat 32 (st.busy.toNat + st.fault.toNat * 2 ^ 1 + faultNumber st.faultCode * 2 ^ 8)

end Sys2Proof.Machine
end

