-- ==== Sys2Proof/Machine/Ops.lean ====
section
/-! DEFINITION. The named operations over memory and registers: bytes of plane memory in canonical form (R40, R42), admission of a request (R43, R47), the block's fault (R203), the end of a command, the register block (R23 to R32), START (R100) and reset of the registers (R36). -/

namespace Sys2Proof.Machine

/-- What an unlisted address reads as. DESIGN CHOICE (log 7): 0; unsafe. -/
def unlistedByte : Byte := 0#8

/-- The byte at address `a`. -/
def readByte (m : Memory) (a : Nat) : Byte :=
  match m with
  | [] => unlistedByte
  | (b, v) :: rest => if a = b then v else readByte rest a

/-- Store the byte `v` at address `a`, keeping the canonical form. -/
def writeByte (m : Memory) (a : Nat) (v : Byte) : Memory :=
  match m with
  | [] => if v = unlistedByte then [] else [(a, v)]
  | (b, w) :: rest =>
    if a < b then
      if v = unlistedByte then (b, w) :: rest else (a, v) :: (b, w) :: rest
    else if a = b then
      if v = unlistedByte then rest else (a, v) :: rest
    else (b, w) :: writeByte rest a v

/-- The canonical form: addresses strictly rising, no entry equal to what an unlisted address reads as. -/
abbrev Memory.wf (m : Memory) : Prop :=
  m.Pairwise (fun x y => x.1 < y.1) ∧ ∀ c ∈ m, c.2 ≠ unlistedByte

/-- R12 `MemRead`: `n` bytes from `a`, least significant first (R42). UNVERIFIED (G3, log 16); unsafe. -/
def readBytes (m : Memory) (a n : Nat) : Nat :=
  match n with
  | 0 => 0
  | n + 1 => (readByte m a).toNat + 256 * readBytes m (a + 1) n

/-- R12 `MemWrite`: the low `8n` bits of `v` to `n` bytes from `a`, least significant first (R42). -/
def writeBytes (m : Memory) (a n v : Nat) : Memory :=
  match n with
  | 0 => m
  | n + 1 => writeBytes (writeByte m a (BitVec.ofNat 8 v)) (a + 1) n (v / 256)

/-- The byte address `a` lies in the platform's allocation (R224). -/
def allocated (p : Platform) (a : Nat) : Bool :=
  p.alloc.any fun r => decide (r.base ≤ a) && decide (a < r.base + r.size)

/-- R43, R47: memory admits a request of `n` bytes at `a` iff it lies in `[0, 2^ADDR_W - n]` and every byte of it is
allocated (log 9). -/
def admitted (p : Platform) (a : Int) (n : Nat) : Bool :=
  decide (0 ≤ a) && decide (a + n ≤ 2 ^ p.addrW) && (List.range n).all fun k => allocated p (a.toNat + k)

/-- The end of a command: the latch and the edge buffers are unspecified from here on (R33, R36, I12; log 5). -/
def releaseScratch (s : State) : State :=
  { s with
    latch := Config.freeLatch s.freeCount
    above := Config.freeAbove s.freeCount
    left := Config.freeLeft s.freeCount
    freeCount := s.freeCount + 1 }

/-- R203: FAULT_CODE keeps the first code (R204); FAULT is set. -/
def recordFault (k : FaultCode) (st : Status) : Status :=
  { st with
    faultCode := if st.fault then st.faultCode else k
    fault := true }

/-- R203 `raise Fault(k)`, the block's one way of taking a fault: STATUS records it, and unless `k` is 1 the command
ends (R207: nothing is saved and control goes nowhere). -/
def raiseFault (k : FaultCode) (s : State) : State :=
  if k = .startWhileBusy then { s with status := recordFault k s.status }
  else releaseScratch { s with status := { recordFault k s.status with busy := false } }

/-- R100: a host write of CTRL with bit 0 = 1. BUSY is looked at first, then FAULT (R204: a halted block starts
nothing); otherwise the command is latched (R34) and BUSY set. -/
def startCommand (s : State) : State :=
  if s.status.busy then raiseFault .startWhileBusy s
  else if s.status.fault then s
  else { s with latch := s.regs, status := { s.status with busy := true } }

/-- The registers of R23 by their byte offset from IPRED_BASE. -/
inductive RegName where
  | cmd
  | stride
  | dstLo
  | dstHi
  | x0
  | y0
  | frameW
  | frameH
  | ctrl
  | status
  /-- offsets 0x28 to 0x3F -/
  | reserved
  deriving DecidableEq, Repr

/-- R23: the register at an aligned offset of the block. -/
def regAtOffset (off : Nat) : RegName :=
  match off with
  | 0x00 => .cmd
  | 0x04 => .stride
  | 0x08 => .dstLo
  | 0x0C => .dstHi
  | 0x10 => .x0
  | 0x14 => .y0
  | 0x18 => .frameW
  | 0x1C => .frameH
  | 0x20 => .ctrl
  | 0x24 => .status
  | _ => .reserved

/-- R23 to R30: what a host read of a register returns; CTRL and the reserved offsets read 0. -/
def readRegister (s : State) (r : RegName) : Word :=
  match r with
  | .cmd => s.regs.cmd
  | .stride => s.regs.stride
  | .dstLo => s.regs.dstLo
  | .dstHi => s.regs.dstHi
  | .x0 => s.regs.x0
  | .y0 => s.regs.y0
  | .frameW => s.regs.frameW
  | .frameH => s.regs.frameH
  | .ctrl => 0
  | .status => statusWord s.status
  | .reserved => 0

/-- R24 to R28: a host write of an operand register; every bit is stored. `none` for a register that stores nothing. -/
def writeOperand (g : OperandRegs) (r : RegName) (v : Word) : Option OperandRegs :=
  match r with
  | .cmd => some { g with cmd := v }
  | .stride => some { g with stride := v }
  | .dstLo => some { g with dstLo := v }
  | .dstHi => some { g with dstHi := v }
  | .x0 => some { g with x0 := v }
  | .y0 => some { g with y0 := v }
  | .frameW => some { g with frameW := v }
  | .frameH => some { g with frameH := v }
  | .ctrl => none
  | .status => none
  | .reserved => none

/-- A host write of a register: operands are refused while BUSY (R31), CTRL bit 0 starts a command and its other bits
are ignored (R29), STATUS and the reserved offsets ignore it (R23, R30). -/
def writeRegister (s : State) (r : RegName) (v : Word) : Host.Outcome State Fault Refusal :=
  match writeOperand s.regs r v with
  | some g => if s.status.busy then .refused .operandWriteWhileBusy else .next { s with regs := g }
  | none => if r = .ctrl ∧ bitOf v 0 then .next (startCommand s) else .next s

end Sys2Proof.Machine
end

