-- ==== Sys2Proof/Machine/Operands.lean ====
section
/-! DEFINITION. The operands of a command (R35, R68), its sample addresses (R43), neighbour reads (R44), and the edge buffers seen as the arrays A and L (R11, R33). -/

namespace Sys2Proof.Machine

/-- R35: `N = 4 << TXSZ`. -/
def blockSide (d : Desc) : Nat :=
  match d.txSize with
  | .n4 => 4
  | .n8 => 8
  | .n16 => 16
  | .n32 => 32

/-- R35: `BDV = 8 + 2·BD`. UNVERIFIED set of depths (G2, log 13); unsafe. -/
def depthOf (d : Desc) : Nat :=
  match d.bitDepth with
  | .bits8 => 8
  | .bits10 => 10
  | .bits12 => 12

/-- R35, R41: `S = 1 + SAMPLE16`. -/
def sampleBytes (d : Desc) : Nat :=
  match d.sample16 with
  | false => 1
  | true => 2

/-- R26, R68: DST = {DST_HI, DST_LO}. -/
def dstOf (g : OperandRegs) : Nat :=
  g.dstHi.toNat * 2 ^ 32 + g.dstLo.toNat

/-- R43: the byte address of the plane sample at row offset `dr` and column offset `dc` from `pred[0][0]`, on
mathematical integers. -/
def saddr (d : Desc) (g : OperandRegs) (dr dc : Int) : Int :=
  dstOf g + (dr * g.stride.toNat + dc) * sampleBytes d

/-- What a neighbour read gives (R44, R47). -/
inductive SampleRead where
  | value (v : Nat)
  /-- the value read exceeds `2^BDV - 1` (code 10) -/
  | outOfRange
  /-- memory does not admit the request -/
  | notAdmitted
  deriving DecidableEq, Repr

/-- R44: `ReadSample(dr, dc)`. -/
def readSample (d : Desc) (s : State) (dr dc : Int) : SampleRead :=
  let a := saddr d s.latch dr dc
  if admitted s.platform a (sampleBytes d) then
    let v := readBytes s.mem a.toNat (sampleBytes d)
    if maxSample (depthOf d) < v then .outOfRange else .value v
  else .notAdmitted

/-- R11: the above edge `A[i]`, `i ≥ -1`, as the ABOVE buffer holds it (R33). -/
def aboveEdge (s : State) (i : Int) : Nat :=
  (s.above[(i + 1).toNat]?.getD 0).toNat

/-- R11: the left column `L[i]`, as the LEFT buffer holds it (R33). -/
def leftEdge (s : State) (i : Int) : Nat :=
  (s.left[i.toNat]?.getD 0).toNat

/-- A place in the edge buffers (R33). -/
inductive EdgeSlot where
  /-- `L[i]` -/
  | left (i : Nat)
  /-- `A[-1]` -/
  | corner
  /-- `A[i]` -/
  | above (i : Nat)
  deriving DecidableEq, Repr

/-- Fill one entry of the edge buffers. -/
def storeEdge (s : State) (slot : EdgeSlot) (v : Nat) : State :=
  match slot with
  | .left i => { s with left := s.left.setIfInBounds i (BitVec.ofNat 16 v) }
  | .corner => { s with above := s.above.setIfInBounds 0 (BitVec.ofNat 16 v) }
  | .above i => { s with above := s.above.setIfInBounds (i + 1) (BitVec.ofNat 16 v) }

end Sys2Proof.Machine
end

