-- ==== Sys2Proof/Machine/Edges.lean ====
section
/-! DEFINITION. Edge assembly (R160 to R169): which entries a kind needs, where each comes from, and filling them in the order of R161. -/

namespace Sys2Proof.Machine

/-- How much of the above edge a kind needs (R160). -/
inductive AboveNeed where
  | nothing
  /-- `A[-1..N-1]` -/
  | above
  /-- `A[-1..2N-1]` -/
  | aboveRight
  deriving DecidableEq, Repr

/-- A kind's edge classes (R160). -/
structure EdgeNeeds where
  left : Bool
  above : AboveNeed
  deriving DecidableEq, Repr

/-- R160's table. UNVERIFIED (G6, log 14): VP9's classes; unsafe. -/
def needsOf (k : Kind) : EdgeNeeds :=
  match k with
  | .v => ⟨false, .above⟩
  | .h => ⟨true, .nothing⟩
  | .d45 => ⟨false, .aboveRight⟩
  | .d135 => ⟨true, .above⟩
  | .d117 => ⟨true, .above⟩
  | .d153 => ⟨true, .above⟩
  | .d207 => ⟨true, .nothing⟩
  | .d63 => ⟨false, .aboveRight⟩
  | .tm => ⟨true, .above⟩
  | .dcBoth => ⟨true, .above⟩
  | .dcLeft => ⟨true, .above⟩
  | .dcTop => ⟨true, .above⟩
  | .dc128 => ⟨true, .above⟩

/-- Where an entry's value comes from (R161). -/
inductive EdgeSource where
  | const (v : Nat)
  /-- `ReadSample(dr, dc)` -/
  | sample (dr dc : Int)
  deriving DecidableEq, Repr

/-- R164: the last column of the above row that is a real sample. UNVERIFIED (G7, log 15): VP9's limit; unsafe. -/
def aboveLimit (d : Desc) : Nat :=
  if blockSide d = 4 ∧ d.haveRight then 2 * blockSide d - 1 else blockSide d - 1

/-- R161, R165: the source of `L[i]`, replicated past the bottom of the frame. -/
def leftSource (d : Desc) (g : OperandRegs) (i : Nat) : EdgeSource :=
  if d.haveLeft then .sample (min (i : Int) ((g.frameH.toNat : Int) - 1 - g.y0.toNat)) (-1)
  else .const (baseValue (depthOf d) + 1)

/-- R166: the source of the corner `A[-1]`. -/
def cornerSource (d : Desc) : EdgeSource :=
  if d.haveAbove then
    if d.haveLeft then .sample (-1) (-1) else .const (baseValue (depthOf d) + 1)
  else .const (baseValue (depthOf d) - 1)

/-- R161, R162, R163: the source of `A[i]`, `i ≥ 0`, replicated past the limit of R164 and the right of the frame. -/
def aboveSource (d : Desc) (g : OperandRegs) (i : Nat) : EdgeSource :=
  if d.haveAbove then
    .sample (-1) (min (min (i : Int) (aboveLimit d)) ((g.frameW.toNat : Int) - 1 - g.x0.toNat))
  else .const (baseValue (depthOf d) - 1)

/-- How many entries `A[0..M-1]` are filled (R161). -/
def aboveCount (n : AboveNeed) (side : Nat) : Nat :=
  match n with
  | .nothing => 0
  | .above => side
  | .aboveRight => 2 * side

/-- R161: the entries `FillEdges` fills, with their sources, in its order: left, corner, above. -/
def edgePlan (needs : EdgeNeeds) (d : Desc) (g : OperandRegs) : List (EdgeSlot × EdgeSource) :=
  (if needs.left then (List.range (blockSide d)).map fun i => (.left i, leftSource d g i) else [])
  ++ (if needs.above = .nothing then []
      else (.corner, cornerSource d) ::
        (List.range (aboveCount needs.above (blockSide d))).map fun i => (.above i, aboveSource d g i))

/-- The value of a source (R44 for a sample). -/
def sourceValue (d : Desc) (s : State) (src : EdgeSource) : SampleRead :=
  match src with
  | .const v => .value v
  | .sample dr dc => readSample d s dr dc

/-- How filling the edges ends; the state holds the entries filled so far. -/
inductive FillResult where
  | filled (s : State)
  | outOfRange (s : State)
  | notAdmitted (s : State)
  deriving DecidableEq, Repr

/-- R161: fill the entries in order; the first read out of range or not admitted ends it (R44, R202). -/
def fillEdges (d : Desc) (plan : List (EdgeSlot × EdgeSource)) (s : State) : FillResult :=
  match plan with
  | [] => .filled s
  | (slot, src) :: rest =>
    match sourceValue d s src with
    | .value v => fillEdges d rest (storeEdge s slot v)
    | .outOfRange => .outOfRange s
    | .notAdmitted => .notAdmitted s

end Sys2Proof.Machine
end

