-- ==== Sys2Proof/Machine/Command.lean ====
section
/-! DEFINITION. The command sequence every meaning shares (R100): the checks (R201), the edges, the prediction, the destination writes (R45), and the ways it ends. -/

namespace Sys2Proof.Machine

/-- A mode rule (R101): from N, BDV, the above edge and the left column to `pred[r][c]`. -/
abbrev Predictor := Nat → Nat → (Int → Nat) → (Int → Nat) → Nat → Nat → Nat

/-- R201 `CheckCommand`, codes 5 to 9 in increasing order (codes 2 to 4 cannot hold of a decoded command, and `decode`
finds them and code 5 first). -/
def checkCommand (d : Desc) (g : OperandRegs) : Option FaultCode :=
  if !storageMatches d.bitDepth d.sample16 then some .bdStorageMismatch
  else if d.sample16 ∧ dstOf g % 2 = 1 then some .misalignedDst
  else if g.stride.toNat < blockSide d then some .strideTooSmall
  else if g.frameW.toNat ≤ g.x0.toNat ∨ g.frameH.toNat ≤ g.y0.toNat then some .positionOutOfFrame
  else if (d.haveAbove ∧ g.y0.toNat = 0) ∨ (d.haveLeft ∧ g.x0.toNat = 0) then some .edgeOutsideFrame
  else none

/-- R45, R46: the destination writes in row-major order, each an address and a sample. -/
def destWrites (d : Desc) (g : OperandRegs) (pred : Nat → Nat → Nat) : List (Int × Nat) :=
  (List.range (blockSide d)).flatMap fun (r : Nat) =>
    (List.range (blockSide d)).map fun (c : Nat) => (saddr d g r c, pred r c)

/-- Perform writes of `n`-byte samples. -/
def writeSamples (n : Nat) (ws : List (Int × Nat)) (m : Memory) : Memory :=
  match ws with
  | [] => m
  | (a, v) :: rest => writeSamples n rest (writeBytes m a.toNat n v)

/-- FREE VALUE (log 6): of the writes of an interrupted command, each admitted one may or may not have been performed
(R220, I11); `k` counts the samples and `use` names the free choice. -/
def writeSomeSamples (p : Platform) (use k n : Nat) (ws : List (Int × Nat)) (m : Memory) : Memory :=
  match ws with
  | [] => m
  | (a, v) :: rest =>
    writeSomeSamples p use (k + 1) n rest
      (if admitted p a n && Config.sampleWritten use k then writeBytes m a.toNat n v else m)

/-- How the part of a command before its first write ends (R100). -/
inductive Front where
  /-- a check or a read raises this fault -/
  | faulted (k : FaultCode) (s : State)
  /-- a read is not admitted -/
  | stalled (s : State)
  /-- the edges are filled and these are the writes -/
  | ready (s : State) (ws : List (Int × Nat))
  deriving DecidableEq, Repr

/-- R100 up to the prediction: `CheckCommand`, `FillEdges`, `Predict`. -/
def commandFront (needs : EdgeNeeds) (p : Predictor) (d : Desc) (s : State) : Front :=
  match checkCommand d s.latch with
  | some k => .faulted k s
  | none =>
    match fillEdges d (edgePlan needs d s.latch) s with
    | .outOfRange t => .faulted .sampleOutOfRange t
    | .notAdmitted t => .stalled t
    | .filled t =>
      .ready t (destWrites d t.latch (p (blockSide d) (depthOf d) (aboveEdge t) (leftEdge t)))

/-- R46: all writes performed, BUSY goes to 0. -/
def completeCommand (n : Nat) (ws : List (Int × Nat)) (s : State) : State :=
  releaseScratch { s with mem := writeSamples n ws s.mem, status := { s.status with busy := false } }

/-- R47, R227: a read is not admitted; the command is stuck, BUSY stays 1. -/
def stallReading (s : State) : State :=
  { s with stuck := true }

/-- R47, R227: a write is not admitted; the command is stuck. Which of the admitted writes were performed is a free
choice (log 6). -/
def stallWriting (n : Nat) (ws : List (Int × Nat)) (s : State) : State :=
  { s with
    mem := writeSomeSamples s.platform s.freeCount 0 n ws s.mem
    stuck := true
    freeCount := s.freeCount + 1 }

/-- R100 from the checks on: the one step of the block that runs a latched command. -/
def runCommand (needs : EdgeNeeds) (p : Predictor) (d : Desc) (s : State) : Host.Outcome State Fault Refusal :=
  match commandFront needs p d s with
  | .faulted k t => .next (raiseFault k t)
  | .stalled t => .next (stallReading t)
  | .ready t ws =>
    if ws.all fun w => admitted t.platform w.1 (sampleBytes d) then
      .next (completeCommand (sampleBytes d) ws t)
    else .next (stallWriting (sampleBytes d) ws t)

end Sys2Proof.Machine
end

