-- ==== Sys2Proof/Machine/Dc.lean ====
section
/-! DEFINITION. The DC family (R140 to R144). UNVERIFIED counts (G8, I8, log 15); unsafe. -/

namespace Sys2Proof.Machine

/-- R141: the average of both edges. -/
def predictDcBoth : Predictor := fun N _ A L _ _ =>
  (sumTo A N + sumTo L N + N) / (2 * N)

/-- R142: the average of the left column. -/
def predictDcLeft : Predictor := fun N _ _ L _ _ =>
  (sumTo L N + N / 2) / N

/-- R143: the average of the above row. -/
def predictDcTop : Predictor := fun N _ A _ _ _ =>
  (sumTo A N + N / 2) / N

/-- R144: the mid value. -/
def predictDc128 : Predictor := fun _ bd _ _ _ _ =>
  128 * 2 ^ (bd - 8)

/-- IPRED.DCBOTH (R141). -/
def execDcBoth (d : DcDesc) (s : State) : Host.Outcome State Fault Refusal :=
  runCommand (needsOf .dcBoth) predictDcBoth (dcDesc true true d) s

/-- IPRED.DCLEFT (R142). -/
def execDcLeft (d : DcDesc) (s : State) : Host.Outcome State Fault Refusal :=
  runCommand (needsOf .dcLeft) predictDcLeft (dcDesc true false d) s

/-- IPRED.DCTOP (R143). -/
def execDcTop (d : DcDesc) (s : State) : Host.Outcome State Fault Refusal :=
  runCommand (needsOf .dcTop) predictDcTop (dcDesc false true d) s

/-- IPRED.DC128 (R144). -/
def execDc128 (d : DcDesc) (s : State) : Host.Outcome State Fault Refusal :=
  runCommand (needsOf .dc128) predictDc128 (dcDesc false false d) s

end Sys2Proof.Machine
end

