-- ==== Sys2Proof/Machine/Directional.lean ====
section
/-! DEFINITION. The eight directional modes (R110 to R119), in the recursive form R112 to R119 give as normative. UNVERIFIED tap patterns (G5, I5, log 13); unsafe. -/

namespace Sys2Proof.Machine

/-- R112. -/
def predictV : Predictor := fun _ _ A _ _ c => A c

/-- R113. -/
def predictH : Predictor := fun _ _ _ L r _ => L r

/-- R114. -/
def predictD45 : Predictor := fun N _ A _ r c =>
  if r + c + 2 < 2 * N then avg3 (A (r + c)) (A (r + c + 1)) (A (r + c + 2)) else A (2 * N - 1)

/-- R115, on the two edges alone. -/
def d135Sample (A L : Int → Nat) (r c : Nat) : Nat :=
  match r, c with
  | 0, 0 => avg3 (L 0) (A (-1)) (A 0)
  | 0, j + 1 => avg3 (A (j - 1)) (A j) (A (j + 1))
  | 1, 0 => avg3 (A (-1)) (L 0) (L 1)
  | i + 2, 0 => avg3 (L i) (L (i + 1)) (L (i + 2))
  | i + 1, j + 1 => d135Sample A L i j

/-- R115. -/
def predictD135 : Predictor := fun _ _ A L r c => d135Sample A L r c

/-- R116, on the two edges alone. -/
def d117Sample (A L : Int → Nat) (r c : Nat) : Nat :=
  match r, c with
  | 0, j => avg2 (A (j - 1)) (A j)
  | 1, 0 => avg3 (L 0) (A (-1)) (A 0)
  | 1, j + 1 => avg3 (A (j - 1)) (A j) (A (j + 1))
  | 2, 0 => avg3 (A (-1)) (L 0) (L 1)
  | i + 3, 0 => avg3 (L i) (L (i + 1)) (L (i + 2))
  | i + 2, j + 1 => d117Sample A L i j

/-- R116. -/
def predictD117 : Predictor := fun _ _ A L r c => d117Sample A L r c

/-- R117, on the two edges alone. -/
def d153Sample (A L : Int → Nat) (r c : Nat) : Nat :=
  match r, c with
  | 0, 0 => avg2 (L 0) (A (-1))
  | i + 1, 0 => avg2 (L i) (L (i + 1))
  | 0, 1 => avg3 (L 0) (A (-1)) (A 0)
  | 1, 1 => avg3 (A (-1)) (L 0) (L 1)
  | i + 2, 1 => avg3 (L i) (L (i + 1)) (L (i + 2))
  | 0, j + 2 => avg3 (A (j - 1)) (A j) (A (j + 1))
  | i + 1, j + 2 => d153Sample A L i j

/-- R117. -/
def predictD153 : Predictor := fun _ _ A L r c => d153Sample A L r c

/-- R118, on the left column alone; the last row is `L[N-1]` whatever the column. -/
def d207Sample (N : Nat) (L : Int → Nat) (r c : Nat) : Nat :=
  match c with
  | 0 => if r + 1 = N then L (N - 1) else avg2 (L r) (L (r + 1))
  | 1 =>
    if r + 1 = N then L (N - 1)
    else if r + 2 = N then avg3 (L (N - 2)) (L (N - 1)) (L (N - 1))
    else avg3 (L r) (L (r + 1)) (L (r + 2))
  | j + 2 => if r + 1 = N then L (N - 1) else d207Sample N L (r + 1) j

/-- R118. -/
def predictD207 : Predictor := fun N _ _ L r c => d207Sample N L r c

/-- R119, with `k = r >> 1`. -/
def predictD63 : Predictor := fun _ _ A _ r c =>
  if r % 2 = 1 then avg3 (A (r / 2 + c : Nat)) (A (r / 2 + c + 1 : Nat)) (A (r / 2 + c + 2 : Nat))
  else avg2 (A (r / 2 + c : Nat)) (A (r / 2 + c + 1 : Nat))

/-- IPRED.V (R112). -/
def execV (d : Desc) (s : State) : Host.Outcome State Fault Refusal :=
  runCommand (needsOf .v) predictV d s

/-- IPRED.H (R113). -/
def execH (d : Desc) (s : State) : Host.Outcome State Fault Refusal :=
  runCommand (needsOf .h) predictH d s

/-- IPRED.D45 (R114). -/
def execD45 (d : Desc) (s : State) : Host.Outcome State Fault Refusal :=
  runCommand (needsOf .d45) predictD45 d s

/-- IPRED.D135 (R115). -/
def execD135 (d : Desc) (s : State) : Host.Outcome State Fault Refusal :=
  runCommand (needsOf .d135) predictD135 d s

/-- IPRED.D117 (R116). -/
def execD117 (d : Desc) (s : State) : Host.Outcome State Fault Refusal :=
  runCommand (needsOf .d117) predictD117 d s

/-- IPRED.D153 (R117). -/
def execD153 (d : Desc) (s : State) : Host.Outcome State Fault Refusal :=
  runCommand (needsOf .d153) predictD153 d s

/-- IPRED.D207 (R118). -/
def execD207 (d : Desc) (s : State) : Host.Outcome State Fault Refusal :=
  runCommand (needsOf .d207) predictD207 d s

/-- IPRED.D63 (R119). -/
def execD63 (d : Desc) (s : State) : Host.Outcome State Fault Refusal :=
  runCommand (needsOf .d63) predictD63 d s

end Sys2Proof.Machine
end

