-- ==== Sys2Proof/Machine/TrueMotion.lean ====
section
/-! DEFINITION. The TM (true-motion) mode (R150). -/

namespace Sys2Proof.Machine

/-- R150: `clip_BDV(L[r] + A[c] - A[-1])` on mathematical integers. -/
def predictTm : Predictor := fun _ bd A L r c =>
  clip bd ((L r : Int) + A c - A (-1))

/-- IPRED.TM (R150). -/
def execTm (d : Desc) (s : State) : Host.Outcome State Fault Refusal :=
  runCommand (needsOf .tm) predictTm d s

end Sys2Proof.Machine
end

