-- ==== Sys2Proof/Machine/Dispatch.lean ====
section
/-! DEFINITION. The dispatch of a decoded command to its meaning (R67, R101): the one step of the block that runs a latched command (R100). -/

namespace Sys2Proof.Machine

def exec (i : Instr) (s : State) : Host.Outcome State Fault Refusal :=
  match i with
  | .v d => Sys2Proof.Machine.execV d s
  | .h d => Sys2Proof.Machine.execH d s
  | .d45 d => Sys2Proof.Machine.execD45 d s
  | .d135 d => Sys2Proof.Machine.execD135 d s
  | .d117 d => Sys2Proof.Machine.execD117 d s
  | .d153 d => Sys2Proof.Machine.execD153 d s
  | .d207 d => Sys2Proof.Machine.execD207 d s
  | .d63 d => Sys2Proof.Machine.execD63 d s
  | .tm d => Sys2Proof.Machine.execTm d s
  | .dcBoth d => Sys2Proof.Machine.execDcBoth d s
  | .dcLeft d => Sys2Proof.Machine.execDcLeft d s
  | .dcTop d => Sys2Proof.Machine.execDcTop d s
  | .dc128 d => Sys2Proof.Machine.execDc128 d s

end Sys2Proof.Machine
end

