-- ==== Sys2Proof/Machine/HostOps.lean ====
section
/-! DEFINITION. What the other agents do (R52): the host's register and memory accesses (R23 to R31, R226), reset (R220), the platform's allocation (R47), and whose turn it is. -/

namespace Sys2Proof.Machine

/-- The descriptor the block runs next: CMD of the command latch (R34, R54). -/
def fetch (s : State) : Except DecodeError Instr :=
  decode s.latch.cmd

/-- The mode rule of a kind (R101). -/
def predictorOf (k : Kind) : Predictor :=
  match k with
  | .v => predictV
  | .h => predictH
  | .d45 => predictD45
  | .d135 => predictD135
  | .d117 => predictD117
  | .d153 => predictD153
  | .d207 => predictD207
  | .d63 => predictD63
  | .tm => predictTm
  | .dcBoth => predictDcBoth
  | .dcLeft => predictDcLeft
  | .dcTop => predictDcTop
  | .dc128 => predictDc128

/-- The byte addresses of the samples a command reads (R44, R161). -/
def readAddresses (needs : EdgeNeeds) (d : Desc) (g : OperandRegs) : List Int :=
  (edgePlan needs d g).filterMap fun e =>
    match e.2 with
    | .const _ => none
    | .sample dr dc => some (saddr d g dr dc)

/-- The byte addresses of the samples a command writes (R45). -/
def writeAddresses (d : Desc) (g : OperandRegs) : List Int :=
  (destWrites d g fun _ _ => 0).map fun w => w.1

/-- The samples the running command reads or writes, by address, with their width. A command that CheckCommand turns away
reads and writes nothing (R201). -/
def footprint (s : State) : List Int × Nat :=
  match fetch s with
  | .error _ => ([], 0)
  | .ok i =>
    match checkCommand (descOf i) s.latch with
    | some _ => ([], 0)
    | none =>
      (readAddresses (needsOf (kindOf i)) (descOf i) s.latch ++ writeAddresses (descOf i) s.latch,
        sampleBytes (descOf i))

/-- While BUSY = 1, the host access of `bytes` bytes at `addr` shares a byte with a sample the running command reads or
writes, whether memory admits that sample or not (R226; log 10). -/
def touchesRunning (s : State) (addr bytes : Nat) : Bool :=
  s.status.busy && decide (0 < bytes) && (footprint s).1.any fun q =>
    decide ((addr : Int) < q + (footprint s).2) && decide (q < (addr : Int) + bytes)

/-- A host access to plane memory that leaves `t`: refused in the running command's footprint (R226), a fault where
memory does not admit it (log 12). -/
def memoryAccess (addr bytes : Nat) (s t : State) : Host.Outcome State Fault Refusal :=
  if touchesRunning s addr bytes then .refused .footprintAccessWhileBusy
  else if admitted s.platform addr bytes then .next t
  else .fault .hostAccessNotAdmitted

/-- R23, R31: the register a host access names: 32-bit and aligned, inside the block. -/
def registerOf (p : Platform) (addr bytes : Nat) : Except Refusal RegName :=
  if addr < p.ipredBase ∨ p.ipredBase + 0x40 ≤ addr then .error .outsideRegisterBlock
  else if bytes ≠ 4 ∨ (addr - p.ipredBase) % 4 ≠ 0 then .error .registerAccessShape
  else .ok (regAtOffset (addr - p.ipredBase))

/-- One access of the host: to the register block (R23), or to plane memory of any width (R52; log 21). DESIGN CHOICE
(log 22): the operation, not the address, says which of the two it reaches; unsafe where the two overlap. -/
def hostOp (op : HostOp) (s : State) : Host.Outcome State Fault Refusal :=
  match op with
  | .readReg addr bytes =>
    match registerOf s.platform addr bytes with
    | .error e => .refused e
    | .ok r => .next { s with replies := .register (readRegister s r) :: s.replies }
  | .writeReg addr bytes value =>
    match registerOf s.platform addr bytes with
    | .error e => .refused e
    | .ok r => writeRegister s r value
  | .readMem addr bytes =>
    memoryAccess addr bytes s { s with replies := .memory (readBytes s.mem addr bytes) :: s.replies }
  | .writeMem addr bytes value =>
    memoryAccess addr bytes s { s with mem := writeBytes s.mem addr bytes value }

/-- R220, I11: memory after a reset abandons a running command: each destination sample holds its old or its predicted
value, as the free value says (log 6). A stuck command's writes were settled when it got stuck. -/
def abandonedMemory (s : State) : Memory :=
  if s.status.busy && !s.stuck then
    match fetch s with
    | .error _ => s.mem
    | .ok i =>
      match commandFront (needsOf (kindOf i)) (predictorOf (kindOf i)) (descOf i) s with
      | .faulted _ _ => s.mem
      | .stalled _ => s.mem
      | .ready t ws => writeSomeSamples t.platform s.freeCount 0 (sampleBytes (descOf i)) ws s.mem
  else s.mem

/-- R220, R221: reset. Registers and STATUS take R36's values, the latch and the edge buffers are unspecified (log 5), a
command in progress is abandoned. -/
def resetBlock (s : State) : State :=
  releaseScratch
    { s with
      regs := zeroRegs
      status := ⟨false, false, .none⟩
      stuck := false
      mem := abandonedMemory s }

/-- Whose move it is. -/
inductive Turn where
  /-- the block runs the latched command in this state -/
  | block (s : State)
  /-- another agent moved, with this outcome -/
  | other (o : Host.Outcome State Fault Refusal)

/-- The block's turn: a command that is running and not stuck runs now; otherwise nothing changes (R209: "An idle block
holds its registers indefinitely"; R227: a stuck command never completes). -/
def blockTurn (s : State) : Turn :=
  if s.status.busy && !s.stuck then .block s else .other (.next s)

/-- The move at the head of `inputs`; with no input left the block has its turn (log 1). -/
def takeTurn (s : State) : Turn :=
  match s.inputs with
  | [] => blockTurn s
  | e :: rest =>
    let t : State := { s with inputs := rest }
    match e with
    | .blockTurn => blockTurn t
    | .host op => .other (hostOp op t)
    | .reset => .other (.next (resetBlock t))
    | .allocation rs => .other (.next { t with platform := { t.platform with alloc := rs } })

/-- Load `w` into CMD and start it, as an accepted START does (R100), with the block's turn next (log 17). -/
def loadCommand (s : State) (w : Word) : State :=
  { s with
    regs := { s.regs with cmd := w }
    latch := { s.regs with cmd := w }
    status := { s.status with busy := true }
    stuck := false
    inputs := .blockTurn :: s.inputs }

end Sys2Proof.Machine
end

