-- ==== Sys2Proof/Machine/Step.lean ====
section
/-! DEFINITION. One step of the machine: the move at the head of the inputs; on the block's turn, a running command's one step (R100), or the fault of an illegal descriptor (R66, R201). -/

namespace Sys2Proof.Machine

/-- One step of the machine. -/
def step (s : State) : Host.Outcome State Fault Refusal :=
  match takeTurn s with
  | .other o => o
  | .block t =>
    match fetch t with
    | .ok i => exec i t
    | .error e => .next (raiseFault (decodeFault e) t)

/-- `s` with the numbered instruction latched and the block's turn next, so that `step` runs exactly it (log 17). -/
def State.withFetchWord (s : State) (nbits w : Nat) : State :=
  loadCommand s (tableWord nbits w)

end Sys2Proof.Machine
end

