-- ==== Sys2Proof/Machine/Assembler.lean ====
section
/-! DEFINITION. The assembly notation of R70 to R72 as a structured line: the descriptor an assembler makes of it, the host sequence it stands for (R71), and its text. -/

namespace Sys2Proof.Machine

/-- The mode word of a line (R70), the four pseudo forms of R72 among them. -/
inductive AsmMode where
  | dc
  | v
  | h
  | d45
  | d135
  | d117
  | d153
  | d207
  | d63
  | tm
  | dcBoth
  | dcLeft
  | dcTop
  | dc128
  deriving DecidableEq, Repr

/-- One line of R70. -/
structure AsmLine where
  mode : AsmMode
  size : TxSize
  /-- the suffix `.L` -/
  sufL : Bool
  /-- the suffix `.A` -/
  sufA : Bool
  /-- the suffix `.R` -/
  sufR : Bool
  /-- `.BD10`, `.BD12` or neither -/
  depth : BitDepth
  /-- the suffix `.S16` -/
  s16 : Bool
  dst : Nat
  stride : Nat
  x0 : Nat
  y0 : Nat
  fw : Nat
  fh : Nat
  deriving DecidableEq, Repr

/-- R72: the availability suffixes a pseudo form fixes; `none` for a plain mode. -/
def pseudoFlags (m : AsmMode) : Option (Bool × Bool) :=
  match m with
  | .dcBoth => some (true, true)
  | .dcLeft => some (true, false)
  | .dcTop => some (false, true)
  | .dc128 => some (false, false)
  | .dc => none
  | .v => none
  | .h => none
  | .d45 => none
  | .d135 => none
  | .d117 => none
  | .d153 => none
  | .d207 => none
  | .d63 => none
  | .tm => none

/-- R61, R72: the MODE value of a line's mode word. -/
def asmModeCode (m : AsmMode) : Nat :=
  match m with
  | .dc => 0
  | .v => 1
  | .h => 2
  | .d45 => 3
  | .d135 => 4
  | .d117 => 5
  | .d153 => 6
  | .d207 => 7
  | .d63 => 8
  | .tm => 9
  | .dcBoth => 0
  | .dcLeft => 0
  | .dcTop => 0
  | .dc128 => 0

/-- R70, R72: the descriptor of a line. An assembler refuses `.BD10` or `.BD12` without `.S16`, and a pseudo form with
`.L` or `.A` added. -/
def assembleLine (l : AsmLine) : Option Word :=
  if storageMatches l.depth l.s16 then
    match pseudoFlags l.mode with
    | none => some (encodeFields (asmModeCode l.mode) ⟨l.size, l.sufL, l.sufA, l.sufR, l.depth, l.s16⟩)
    | some (hl, ha) =>
      if l.sufL || l.sufA then none
      else some (encodeFields (asmModeCode l.mode) ⟨l.size, hl, ha, l.sufR, l.depth, l.s16⟩)
  else none

/-- A host write of the register at `off` (R23). -/
def regWrite (p : Platform) (off : Nat) (v : Word) : Event :=
  .host (.writeReg (p.ipredBase + off) 4 v)

/-- R71: the host sequence of a line whose descriptor is `w`: eight operand writes in R71's order, CTRL = 1, STATUS read
`polls` times while the command runs, the block's turn, and the STATUS read that finds BUSY = 0. -/
def lineEvents (p : Platform) (w : Word) (l : AsmLine) (polls : Nat) : List Event :=
  [regWrite p 0x00 w,
   regWrite p 0x04 (BitVec.ofNat 32 l.stride),
   regWrite p 0x08 (BitVec.ofNat 32 l.dst),
   regWrite p 0x0C (BitVec.ofNat 32 (l.dst / 2 ^ 32)),
   regWrite p 0x10 (BitVec.ofNat 32 l.x0),
   regWrite p 0x14 (BitVec.ofNat 32 l.y0),
   regWrite p 0x18 (BitVec.ofNat 32 l.fw),
   regWrite p 0x1C (BitVec.ofNat 32 l.fh),
   regWrite p 0x20 1]
  ++ List.replicate polls (.host (.readReg (p.ipredBase + 0x24) 4))
  ++ [.blockTurn, .host (.readReg (p.ipredBase + 0x24) 4)]

/-- The mode word as R70 and R72 spell it. -/
def asmModeText (m : AsmMode) : String :=
  match m with
  | .dc => "DC"
  | .v => "V"
  | .h => "H"
  | .d45 => "D45"
  | .d135 => "D135"
  | .d117 => "D117"
  | .d153 => "D153"
  | .d207 => "D207"
  | .d63 => "D63"
  | .tm => "TM"
  | .dcBoth => "DCBOTH"
  | .dcLeft => "DCLEFT"
  | .dcTop => "DCTOP"
  | .dc128 => "DC128"

/-- The size as R70 spells it. -/
def sizeText (t : TxSize) : String :=
  match t with
  | .n4 => "4"
  | .n8 => "8"
  | .n16 => "16"
  | .n32 => "32"

/-- The bit depth suffix of R70. -/
def depthText (b : BitDepth) : String :=
  match b with
  | .bits8 => ""
  | .bits10 => ".BD10"
  | .bits12 => ".BD12"

/-- R70: the text of a line, numbers in decimal, suffixes in the order shown there. -/
def lineText (l : AsmLine) : String :=
  "IPRED." ++ asmModeText l.mode ++ "." ++ sizeText l.size
    ++ (if l.sufL then ".L" else "") ++ (if l.sufA then ".A" else "") ++ (if l.sufR then ".R" else "")
    ++ depthText l.depth ++ (if l.s16 then ".S16" else "")
    ++ "  dst=" ++ toString l.dst ++ ", stride=" ++ toString l.stride ++ ", x0=" ++ toString l.x0
    ++ ", y0=" ++ toString l.y0 ++ ", fw=" ++ toString l.fw ++ ", fh=" ++ toString l.fh

end Sys2Proof.Machine
end

