-- ==== Sys2Proof/Safety.lean ====
section
/-! DEFINITION. What counts as a safe run: the invariants of the machine, the conditions under which a command executes normally, and the words the statements use for samples, edges and faults. None of it is part of the step. -/

namespace Sys2Proof.Safety

open Sys2Proof.Machine

/-- The machine's invariants. -/
structure Inv (s : State) : Prop where
  /-- memory keeps its canonical form -/
  memWf : s.mem.wf
  /-- every listed byte lies in the address space (R40) -/
  memBound : ∀ c ∈ s.mem, c.1 < 2 ^ s.platform.addrW
  /-- FAULT_CODE is 0 exactly when FAULT = 0 (R30) -/
  faultCode : s.status.fault = false ↔ s.status.faultCode = .none
  /-- only a running command is stuck (R227: "BUSY stays 1") -/
  stuckBusy : s.stuck = true → s.status.busy = true
  /-- the latched and the register values are equal while a command runs (R34) -/
  latchRegs : s.status.busy = true → s.latch = s.regs

/-- A step that neither faults nor refuses. -/
def SafeStep (s : State) : Prop :=
  ∃ t, step s = .next t

/-- The block is about to run the latched command: BUSY, not stuck, and its turn is next. -/
def BlockToMove (s : State) : Prop :=
  s.status.busy = true ∧ s.stuck = false ∧ (s.inputs = [] ∨ ∃ rest, s.inputs = .blockTurn :: rest)

/-- `s` once the head of its inputs is taken. -/
def afterInput (s : State) : State :=
  { s with inputs := s.inputs.tail }

/-- The plane sample at row offset `dr`, column offset `dc` from `pred[0][0]`, in memory `m` (R41 to R43). -/
def sampleIn (m : Memory) (d : Desc) (g : OperandRegs) (dr dc : Int) : Nat :=
  readBytes m (saddr d g dr dc).toNat (sampleBytes d)

/-- R165: `L[i]` as the frame in memory gives it. -/
def frameLeft (m : Memory) (d : Desc) (g : OperandRegs) (i : Int) : Nat :=
  if d.haveLeft then
    if (g.y0.toNat : Int) + i < g.frameH.toNat then sampleIn m d g i (-1)
    else sampleIn m d g ((g.frameH.toNat : Int) - 1 - g.y0.toNat) (-1)
  else baseValue (depthOf d) + 1

/-- R164: `Lim`. -/
def limOf (d : Desc) : Int :=
  if blockSide d = 4 ∧ d.haveRight = true then 2 * blockSide d - 1 else blockSide d - 1

/-- R162, R163, R166: `A[i]`, `i ≥ -1`, as the frame in memory gives it. -/
def frameAbove (m : Memory) (d : Desc) (g : OperandRegs) (i : Int) : Nat :=
  if i = -1 then
    if d.haveAbove then
      if d.haveLeft then sampleIn m d g (-1) (-1) else baseValue (depthOf d) + 1
    else baseValue (depthOf d) - 1
  else if d.haveAbove then
    if (g.x0.toNat : Int) + min i (limOf d) < g.frameW.toNat then sampleIn m d g (-1) (min i (limOf d))
    else sampleIn m d g (-1) ((g.frameW.toNat : Int) - 1 - g.x0.toNat)
  else baseValue (depthOf d) - 1

/-- R120: the joined edge `e[k]`: `A[k]` for `k ≥ -1`, `L[-k-2]` for `k ≤ -2`. -/
def joinedEdge (A L : Int → Nat) (k : Int) : Nat :=
  if -1 ≤ k then A k else L (-k - 2)

/-- The read at `(dr, dc)` is admitted and in range (R44, R47). -/
def ReadOk (d : Desc) (s : State) (dr dc : Int) : Prop :=
  admitted s.platform (saddr d s.latch dr dc) (sampleBytes d) = true ∧
    sampleIn s.mem d s.latch dr dc ≤ maxSample (depthOf d)

/-- Every neighbour read the command makes is admitted and in range. -/
def ReadsOk (needs : EdgeNeeds) (d : Desc) (s : State) : Prop :=
  ∀ slot dr dc, (slot, EdgeSource.sample dr dc) ∈ edgePlan needs d s.latch → ReadOk d s dr dc

/-- Every destination write the command makes is admitted (R224). -/
def WritesOk (d : Desc) (s : State) : Prop :=
  ∀ r c : Nat, r < blockSide d → c < blockSide d →
    admitted s.platform (saddr d s.latch r c) (sampleBytes d) = true

/-- The command of kind `k` executes normally: CheckCommand passes (R201), its reads and its writes are admitted and the
samples it reads are in range. -/
structure Runs (k : Kind) (d : Desc) (s : State) : Prop where
  check : checkCommand d s.latch = none
  reads : ReadsOk (needsOf k) d s
  writes : WritesOk d s

/-- Byte address `a` belongs to no destination sample of the command. -/
def OutsideBlock (d : Desc) (g : OperandRegs) (a : Nat) : Prop :=
  ∀ r c : Nat, r < blockSide d → c < blockSide d →
    ¬ (saddr d g r c ≤ (a : Int) ∧ (a : Int) < saddr d g r c + sampleBytes d)

/-- Byte address `a` belongs to a sample that command `i` with operands `g` reads (R161) or writes (R45) (R226, log 10). -/
def InFootprint (i : Instr) (g : OperandRegs) (a : Nat) : Prop :=
  (∃ slot dr dc, (slot, EdgeSource.sample dr dc) ∈ edgePlan (needsOf (kindOf i)) (descOf i) g ∧
    saddr (descOf i) g dr dc ≤ (a : Int) ∧ (a : Int) < saddr (descOf i) g dr dc + sampleBytes (descOf i)) ∨
  ¬ OutsideBlock (descOf i) g a

/-- The registers, the platform and the model's own lists are as before. -/
structure SameOutside (s t : State) : Prop where
  regs : t.regs = s.regs
  platform : t.platform = s.platform
  inputs : t.inputs = s.inputs
  replies : t.replies = s.replies

/-- A command completed normally from `s` in `t`: BUSY is 0, STATUS and everything the command does not name is as
before, and `pred` stands in the destination block (R45, R46, R105). -/
structure Wrote (d : Desc) (s t : State) (pred : Nat → Nat → Nat) : Prop where
  status : t.status = { s.status with busy := false }
  stuck : t.stuck = s.stuck
  same : SameOutside s t
  samples : ∀ r c, r < blockSide d → c < blockSide d → sampleIn t.mem d s.latch r c = pred r c
  others : ∀ a, OutsideBlock d s.latch a → readByte t.mem a = readByte s.mem a

/-- R200: the condition of fault code `n`, 2 to 9, on the latched registers, in R200's own words. -/
def faultCause (g : OperandRegs) (n : Nat) : Prop :=
  let side := 4 * 2 ^ fieldOf g.cmd 4 2
  match n with
  | 2 => fieldOf g.cmd 12 20 ≠ 0
  | 3 => 10 ≤ fieldOf g.cmd 0 4
  | 4 => fieldOf g.cmd 9 2 = 3
  | 5 => bitOf g.cmd 11 = false ∧ fieldOf g.cmd 9 2 ≠ 0
  | 6 => bitOf g.cmd 11 = true ∧ g.dstLo.toNat % 2 = 1
  | 7 => g.stride.toNat < side
  | 8 => g.frameW.toNat ≤ g.x0.toNat ∨ g.frameH.toNat ≤ g.y0.toNat
  | 9 => (bitOf g.cmd 7 = true ∧ g.y0.toNat = 0) ∨ (bitOf g.cmd 6 = true ∧ g.x0.toNat = 0)
  | _ => False

/-- The byte offsets of the eight operand registers (R23). -/
def operandOffsets : List Nat :=
  [0x00, 0x04, 0x08, 0x0C, 0x10, 0x14, 0x18, 0x1C]

/-- The next input is a host access to the register at byte offset `off` (R23, R31). -/
def regReadNext (s : State) (off bytes : Nat) (rest : List Event) : Prop :=
  s.inputs = .host (.readReg (s.platform.ipredBase + off) bytes) :: rest

/-- The next input is a host write of `v` at byte offset `off` of the register block. -/
def regWriteNext (s : State) (off bytes : Nat) (v : Word) (rest : List Event) : Prop :=
  s.inputs = .host (.writeReg (s.platform.ipredBase + off) bytes v) :: rest

/-- The STATUS a fault of code `k` leaves of `st` when the command ends (R203, R204). -/
def faultedStatus (st : Status) (k : FaultCode) : Status :=
  ⟨false, true, if st.fault then st.faultCode else k⟩

/-- `t` is `s` with fault `k` recorded and the command ended: nothing else but the unspecified scratch state changed (R203). -/
structure Faulted (k : FaultCode) (s t : State) : Prop where
  status : t.status = faultedStatus s.status k
  mem : t.mem = s.mem
  stuck : t.stuck = s.stuck
  same : SameOutside s t

end Sys2Proof.Safety
end

