-- ==== Sys2Proof/Certificates/Slice0/Obligations.lean ====
section
/-! DEFINITION. The statements for the provers. Each docstring names the rules of spec/ it formalises; the vocabulary is in Safety.lean. -/

open Sys2Proof Sys2Proof.Machine Sys2Proof.Safety

/-! Encoding (30_encoding.md). -/

/-- R60, R69: the decoder gives back every well-formed command from the word the encoder makes of it. -/
def Obligations.DecodeEncodeRoundTrip : Prop :=
  ∀ i : Instr, wellFormed i = true → decode (encode i) = .ok i

/-- R60, R69: a word that decodes is the word of the command it decodes to, which is well-formed; no bit is dropped. -/
def Obligations.EncodeDecodeRoundTrip : Prop :=
  ∀ (w : Word) (i : Instr), decode w = .ok i → encode i = w ∧ wellFormed i = true

/-- R66: a descriptor is legal exactly when the four conditions hold; otherwise it carries the fault code of the first
one that fails, and the command that runs it faults with that code. -/
def Obligations.DescriptorLegality : Prop :=
  ∀ w : Word,
    ((∃ i, decode w = .ok i) ↔
      fieldOf w 12 20 = 0 ∧ fieldOf w 0 4 ≤ 9 ∧ fieldOf w 9 2 ≤ 2 ∧ (fieldOf w 11 1 = 1 ∨ fieldOf w 9 2 = 0)) ∧
    (fieldOf w 12 20 ≠ 0 → ∃ e, decode w = .error e ∧ faultNumber (decodeFault e) = 2) ∧
    (fieldOf w 12 20 = 0 → 9 < fieldOf w 0 4 → ∃ e, decode w = .error e ∧ faultNumber (decodeFault e) = 3) ∧
    (fieldOf w 12 20 = 0 → fieldOf w 0 4 ≤ 9 → 2 < fieldOf w 9 2 →
      ∃ e, decode w = .error e ∧ faultNumber (decodeFault e) = 4) ∧
    (fieldOf w 12 20 = 0 → fieldOf w 0 4 ≤ 9 → fieldOf w 9 2 ≤ 2 → fieldOf w 11 1 = 0 → fieldOf w 9 2 ≠ 0 →
      ∃ e, decode w = .error e ∧ faultNumber (decodeFault e) = 5) ∧
    (∀ (e : DecodeError) (s : State), decode w = .error e → BlockToMove s → s.latch.cmd = w →
      ∃ t, step s = .next t ∧ Faulted (decodeFault e) (afterInput s) t)

/-- R35, R60, R67: the command a legal descriptor decodes to has the descriptor's N, BDV, S and flags, and its MODE and,
for MODE 0, its (HAVE_LEFT, HAVE_ABOVE) select the one kind; running it is the one command sequence with that kind's
rule, which TXSZ, BD and SAMPLE16 enter through N, BDV and S only. -/
def Obligations.DecodeFollowsDescriptor : Prop :=
  ∀ (w : Word) (i : Instr), decode w = .ok i →
    blockSide (descOf i) = 4 * 2 ^ fieldOf w 4 2 ∧
    depthOf (descOf i) = 8 + 2 * fieldOf w 9 2 ∧
    sampleBytes (descOf i) = 1 + fieldOf w 11 1 ∧
    (descOf i).haveLeft = bitOf w 6 ∧ (descOf i).haveAbove = bitOf w 7 ∧ (descOf i).haveRight = bitOf w 8 ∧
    (fieldOf w 0 4 = 1 → kindOf i = .v) ∧ (fieldOf w 0 4 = 2 → kindOf i = .h) ∧
    (fieldOf w 0 4 = 3 → kindOf i = .d45) ∧ (fieldOf w 0 4 = 4 → kindOf i = .d135) ∧
    (fieldOf w 0 4 = 5 → kindOf i = .d117) ∧ (fieldOf w 0 4 = 6 → kindOf i = .d153) ∧
    (fieldOf w 0 4 = 7 → kindOf i = .d207) ∧ (fieldOf w 0 4 = 8 → kindOf i = .d63) ∧
    (fieldOf w 0 4 = 9 → kindOf i = .tm) ∧
    (fieldOf w 0 4 = 0 → bitOf w 6 = true → bitOf w 7 = true → kindOf i = .dcBoth) ∧
    (fieldOf w 0 4 = 0 → bitOf w 6 = true → bitOf w 7 = false → kindOf i = .dcLeft) ∧
    (fieldOf w 0 4 = 0 → bitOf w 6 = false → bitOf w 7 = true → kindOf i = .dcTop) ∧
    (fieldOf w 0 4 = 0 → bitOf w 6 = false → bitOf w 7 = false → kindOf i = .dc128) ∧
    (∀ s : State, exec i s = runCommand (needsOf (kindOf i)) (predictorOf (kindOf i)) (descOf i) s)

/-- R73, which the spec marks as derived from R61 and R67: a row's match and mask select its kind, once R66 has excluded
BD = 3 and 8-bit storage of deeper samples; and a word that decodes matches its kind's row and no other. -/
def Obligations.TableRowsSelectKinds : Prop :=
  ∀ (w : Word) (k : Kind),
    (w &&& tableMask k = tableMatch k → fieldOf w 9 2 ≠ 3 → (fieldOf w 11 1 = 1 ∨ fieldOf w 9 2 = 0) →
      ∃ i, decode w = .ok i ∧ kindOf i = k) ∧
    (∀ i, decode w = .ok i → (w &&& tableMask k = tableMatch k ↔ kindOf i = k))

/-- R60, R61, R69: words written out from the encoding, R69's three examples among them. A sanity statement. -/
def Obligations.WordsDecode : Prop :=
  decode 0x000000D0#32 = .ok (.dcBoth ⟨.n8, false, .bits8, false⟩) ∧
  decode 0x000000D9#32 = .ok (.tm ⟨.n8, true, true, false, .bits8, false⟩) ∧
  decode 0x00000B83#32 = .ok (.d45 ⟨.n4, false, true, true, .bits10, true⟩) ∧
  decode 0x00000842#32 = .ok (.h ⟨.n4, true, false, false, .bits8, true⟩) ∧
  decode 0x00000AC9#32 = .ok (.tm ⟨.n4, true, true, false, .bits10, true⟩) ∧
  decode 0x00000C31#32 = .ok (.v ⟨.n32, false, false, false, .bits12, true⟩) ∧
  decode 0x00000040#32 = .ok (.dcLeft ⟨.n4, false, .bits8, false⟩) ∧
  decode 0x00001000#32 = .error .reservedBits

/-! Arithmetic and the mode rules on edges alone (00_scope.md, 40_command.md, 41_directional.md). -/

/-- R11, R13, R14, R15: the averaging primitives, their range and their fixed points; the clip; the mid value. The range
and the fixed points are sentences of R13 that the spec marks as derived. -/
def Obligations.ArithmeticPrimitives : Prop :=
  (∀ a b c : Nat, avg2 a b = (a + b + 1) >>> 1 ∧ avg3 a b c = (a + 2 * b + c + 2) >>> 2) ∧
  (∀ a : Nat, avg2 a a = a ∧ avg3 a a a = a) ∧
  (∀ bd a b c : Nat, a ≤ maxSample bd → b ≤ maxSample bd → c ≤ maxSample bd →
    avg2 a b ≤ maxSample bd ∧ avg3 a b c ≤ maxSample bd) ∧
  (∀ (bd : Nat) (v : Int), (clip bd v : Int) = min (max v 0) (2 ^ bd - 1)) ∧
  (∀ bd : Nat, 8 ≤ bd → baseValue bd = 128 <<< (bd - 8)) ∧
  baseValue 8 = 128 ∧ baseValue 10 = 512 ∧ baseValue 12 = 2048

/-- R102, which the spec marks as derived: every predicted sample lies in `[0, 2^BDV - 1]`, for every kind, size and
depth, from edges in that range. -/
def Obligations.PredictInRange : Prop :=
  ∀ (k : Kind) (N bd : Nat) (A L : Int → Nat), N ∈ [4, 8, 16, 32] → bd ∈ [8, 10, 12] →
    (∀ i : Int, -1 ≤ i → i < 2 * N → A i ≤ maxSample bd) →
    (∀ i : Int, 0 ≤ i → i < N → L i ≤ maxSample bd) →
    ∀ r c : Nat, r < N → c < N → predictorOf k N bd A L r c ≤ maxSample bd

/-- R101, R160: a kind's prediction depends on its edge classes only: the entries of `A` and `L` it does not need are
not read. -/
def Obligations.PredictReadsItsEdges : Prop :=
  ∀ (k : Kind) (N bd : Nat) (A A' L L' : Int → Nat), N ∈ [4, 8, 16, 32] →
    ((needsOf k).left = true → ∀ i : Int, 0 ≤ i → i < N → L' i = L i) →
    ((needsOf k).above ≠ .nothing → ∀ i : Int, -1 ≤ i → i < aboveCount (needsOf k).above N → A' i = A i) →
    ∀ r c : Nat, r < N → c < N → predictorOf k N bd A' L' r c = predictorOf k N bd A L r c

/-- R120, which the spec marks as derived: the closed form of D135. -/
def Obligations.D135ClosedForm : Prop :=
  ∀ (N bd : Nat) (A L : Int → Nat) (r c : Nat), r < N → c < N →
    predictorOf .d135 N bd A L r c =
      avg3 (joinedEdge A L ((c : Int) - r - 2)) (joinedEdge A L ((c : Int) - r - 1)) (joinedEdge A L ((c : Int) - r))

/-- R121, which the spec marks as derived: the closed form of D117, with `k = r >> 1`. -/
def Obligations.D117ClosedForm : Prop :=
  ∀ (N bd : Nat) (A L : Int → Nat) (r c : Nat), r < N → c < N →
    (r / 2 ≤ c → r % 2 = 0 →
      predictorOf .d117 N bd A L r c = avg2 (A ((c : Int) - (r / 2 : Nat) - 1)) (A ((c : Int) - (r / 2 : Nat)))) ∧
    (r / 2 ≤ c → r % 2 = 1 →
      predictorOf .d117 N bd A L r c =
        avg3 (joinedEdge A L ((c : Int) - (r / 2 : Nat) - 2)) (joinedEdge A L ((c : Int) - (r / 2 : Nat) - 1))
          (joinedEdge A L ((c : Int) - (r / 2 : Nat)))) ∧
    (c < r / 2 → ∀ i : Int, i = (r : Int) - 2 * c → 2 ≤ i ∧
      predictorOf .d117 N bd A L r c =
        avg3 (joinedEdge A L (1 - i)) (joinedEdge A L (-i)) (joinedEdge A L (-1 - i)))

/-- R122, which the spec marks as derived: the closed form of D153. -/
def Obligations.D153ClosedForm : Prop :=
  ∀ (N bd : Nat) (A L : Int → Nat) (r c : Nat), r < N → c < N →
    (∀ j : Nat, c = 2 * r + j →
      (j = 0 → predictorOf .d153 N bd A L r c = avg2 (L 0) (A (-1))) ∧
      (j = 1 → predictorOf .d153 N bd A L r c = avg3 (L 0) (A (-1)) (A 0)) ∧
      (2 ≤ j → predictorOf .d153 N bd A L r c = avg3 (A ((j : Int) - 3)) (A ((j : Int) - 2)) (A ((j : Int) - 1)))) ∧
    (c < 2 * r → ∀ i : Int, i = (r : Int) - (c / 2 : Nat) → 1 ≤ i ∧
      (c % 2 = 0 → predictorOf .d153 N bd A L r c = avg2 (joinedEdge A L (-i - 1)) (joinedEdge A L (-i - 2)) ∧
        predictorOf .d153 N bd A L r c = avg2 (L (i - 1)) (L i)) ∧
      (c % 2 = 1 → predictorOf .d153 N bd A L r c =
        avg3 (joinedEdge A L (-i)) (joinedEdge A L (-i - 1)) (joinedEdge A L (-i - 2))))

/-- R123, which the spec marks as derived: the closed form of D207, with `Lx[k] = L[min(k, N-1)]` and `k = c >> 1`. -/
def Obligations.D207ClosedForm : Prop :=
  ∀ (N bd : Nat) (A L : Int → Nat) (r c : Nat), N ∈ [4, 8, 16, 32] → r < N → c < N →
    ∀ Lx : Nat → Nat, (∀ k : Nat, Lx k = L ((min k (N - 1) : Nat) : Int)) →
      (c % 2 = 0 → predictorOf .d207 N bd A L r c = avg2 (Lx (r + c / 2)) (Lx (r + c / 2 + 1))) ∧
      (c % 2 = 1 → predictorOf .d207 N bd A L r c = avg3 (Lx (r + c / 2)) (Lx (r + c / 2 + 1)) (Lx (r + c / 2 + 2)))

/-! The thirteen commands: each completes, and what it writes (41_directional.md, 42_dc.md, 43_tm.md). In each, `Runs`
gives the conditions of normal execution on the state and the operands alone, and `Wrote` says the frame: STATUS but for
BUSY, the registers, and every byte outside the block are unchanged. The tap patterns are the spec's rules as it states them
(log 13). Each docstring names the clauses that the spec marks as derived. -/

/-- R112: V copies the above row to every row; with HAVE_ABOVE = 0 every sample is `base - 1`; HAVE_LEFT and HAVE_RIGHT
have no effect on the row it copies. The clause on HAVE_ABOVE = 0 is a sentence of R112 that the spec marks as derived,
from R163. -/
def Obligations.VCopiesAboveRow : Prop :=
  ∀ (d : Desc) (s : State), s.mem.wf → Runs .v d s →
    fieldOf (encode (.v d)) 0 4 = 1 ∧
    ∃ t, exec (.v d) s = .next t ∧
      Wrote d s t (fun _ c => frameAbove s.mem d s.latch c) ∧
      (d.haveAbove = false → ∀ r c : Nat, r < blockSide d → c < blockSide d →
        sampleIn t.mem d s.latch r c = baseValue (depthOf d) - 1) ∧
      (∀ (l r : Bool) (c : Nat), c < blockSide d →
        frameAbove s.mem { d with haveLeft := l, haveRight := r } s.latch c = frameAbove s.mem d s.latch c)

/-- R113: H copies the left column to every column; with HAVE_LEFT = 0 every sample is `base + 1`; HAVE_ABOVE and
HAVE_RIGHT have no effect. The clause on HAVE_LEFT = 0 is a sentence of R113 that the spec marks as derived, from R165.
-/
def Obligations.HCopiesLeftColumn : Prop :=
  ∀ (d : Desc) (s : State), s.mem.wf → Runs .h d s →
    fieldOf (encode (.h d)) 0 4 = 2 ∧
    ∃ t, exec (.h d) s = .next t ∧
      Wrote d s t (fun r _ => frameLeft s.mem d s.latch r) ∧
      (d.haveLeft = false → ∀ r c : Nat, r < blockSide d → c < blockSide d →
        sampleIn t.mem d s.latch r c = baseValue (depthOf d) + 1) ∧
      (∀ (a r : Bool) (i : Nat),
        frameLeft s.mem { d with haveAbove := a, haveRight := r } s.latch i = frameLeft s.mem d s.latch i)

/-- R114: D45's down-left diagonal, its last sample, its replicated half, and that HAVE_LEFT has no effect. That only
`r = c = N-1` takes the second arm, and the replicated half, are sentences of R114 that the spec marks as derived (from
R13 and R164). -/
def Obligations.D45Diagonal : Prop :=
  ∀ (d : Desc) (s : State), s.mem.wf → Runs .d45 d s →
    fieldOf (encode (.d45 d)) 0 4 = 3 ∧
    (∀ r c : Nat, r < blockSide d → c < blockSide d →
      (2 * blockSide d ≤ r + c + 2 ↔ r = blockSide d - 1 ∧ c = blockSide d - 1)) ∧
    ∃ t, exec (.d45 d) s = .next t ∧
      Wrote d s t (fun r c =>
        if r + c + 2 < 2 * blockSide d then
          avg3 (frameAbove s.mem d s.latch (r + c)) (frameAbove s.mem d s.latch (r + c + 1))
            (frameAbove s.mem d s.latch (r + c + 2))
        else frameAbove s.mem d s.latch (2 * blockSide d - 1)) ∧
      ((blockSide d ≠ 4 ∨ d.haveRight = false) → ∀ r c : Nat, r < blockSide d → c < blockSide d →
        blockSide d - 1 ≤ r + c → sampleIn t.mem d s.latch r c = frameAbove s.mem d s.latch (blockSide d - 1)) ∧
      (∀ (l : Bool) (i : Nat), frameAbove s.mem { d with haveLeft := l } s.latch i = frameAbove s.mem d s.latch i)

/-- R115: D135, the five equations of its pseudocode on the samples written, and that HAVE_RIGHT has no effect. -/
def Obligations.D135Diagonal : Prop :=
  ∀ (d : Desc) (s : State), s.mem.wf → Runs .d135 d s →
    fieldOf (encode (.d135 d)) 0 4 = 4 ∧
    ∃ (t : State) (P : Nat → Nat → Nat), exec (.d135 d) s = .next t ∧ Wrote d s t P ∧
      ∀ (A L : Int → Nat), A = frameAbove s.mem d s.latch → L = frameLeft s.mem d s.latch →
        P 0 0 = avg3 (L 0) (A (-1)) (A 0) ∧
        (∀ j : Nat, 1 ≤ j → j < blockSide d → P 0 j = avg3 (A (j - 2)) (A (j - 1)) (A j)) ∧
        P 1 0 = avg3 (A (-1)) (L 0) (L 1) ∧
        (∀ i : Nat, 2 ≤ i → i < blockSide d → P i 0 = avg3 (L (i - 2)) (L (i - 1)) (L i)) ∧
        (∀ i j : Nat, 1 ≤ i → i < blockSide d → 1 ≤ j → j < blockSide d → P i j = P (i - 1) (j - 1)) ∧
        (∀ (b : Bool) (i : Int), -1 ≤ i → i < blockSide d →
          frameAbove s.mem { d with haveRight := b } s.latch i = A i)

/-- R116: D117, the six equations of its pseudocode on the samples written; `L[N-1]` is never read; HAVE_RIGHT has no
effect. That `L[N-1]` is never read is a sentence of R116 that the spec marks as derived. -/
def Obligations.D117Diagonal : Prop :=
  ∀ (d : Desc) (s : State), s.mem.wf → Runs .d117 d s →
    fieldOf (encode (.d117 d)) 0 4 = 5 ∧
    ∃ (t : State) (P : Nat → Nat → Nat), exec (.d117 d) s = .next t ∧ Wrote d s t P ∧
      ∀ (A L : Int → Nat), A = frameAbove s.mem d s.latch → L = frameLeft s.mem d s.latch →
        (∀ j : Nat, j < blockSide d → P 0 j = avg2 (A (j - 1)) (A j)) ∧
        P 1 0 = avg3 (L 0) (A (-1)) (A 0) ∧
        (∀ j : Nat, 1 ≤ j → j < blockSide d → P 1 j = avg3 (A (j - 2)) (A (j - 1)) (A j)) ∧
        P 2 0 = avg3 (A (-1)) (L 0) (L 1) ∧
        (∀ i : Nat, 3 ≤ i → i < blockSide d → P i 0 = avg3 (L (i - 3)) (L (i - 2)) (L (i - 1))) ∧
        (∀ i j : Nat, 2 ≤ i → i < blockSide d → 1 ≤ j → j < blockSide d → P i j = P (i - 2) (j - 1)) ∧
        (∀ L' : Int → Nat, (∀ i : Int, 0 ≤ i → i < (blockSide d : Int) - 1 → L' i = L i) →
          ∀ r c : Nat, r < blockSide d → c < blockSide d →
            predictorOf .d117 (blockSide d) (depthOf d) A L' r c = P r c) ∧
        (∀ (b : Bool) (i : Int), -1 ≤ i → i < blockSide d →
          frameAbove s.mem { d with haveRight := b } s.latch i = A i)

/-- R117: D153, the seven equations of its pseudocode on the samples written; `A[N-1]` is never read; HAVE_RIGHT has no
effect. That `A[N-1]` is never read is a sentence of R117 that the spec marks as derived. -/
def Obligations.D153Diagonal : Prop :=
  ∀ (d : Desc) (s : State), s.mem.wf → Runs .d153 d s →
    fieldOf (encode (.d153 d)) 0 4 = 6 ∧
    ∃ (t : State) (P : Nat → Nat → Nat), exec (.d153 d) s = .next t ∧ Wrote d s t P ∧
      ∀ (A L : Int → Nat), A = frameAbove s.mem d s.latch → L = frameLeft s.mem d s.latch →
        P 0 0 = avg2 (L 0) (A (-1)) ∧
        (∀ i : Nat, 1 ≤ i → i < blockSide d → P i 0 = avg2 (L (i - 1)) (L i)) ∧
        P 0 1 = avg3 (L 0) (A (-1)) (A 0) ∧
        P 1 1 = avg3 (A (-1)) (L 0) (L 1) ∧
        (∀ i : Nat, 2 ≤ i → i < blockSide d → P i 1 = avg3 (L (i - 2)) (L (i - 1)) (L i)) ∧
        (∀ j : Nat, 2 ≤ j → j < blockSide d → P 0 j = avg3 (A (j - 3)) (A (j - 2)) (A (j - 1))) ∧
        (∀ i j : Nat, 1 ≤ i → i < blockSide d → 2 ≤ j → j < blockSide d → P i j = P (i - 1) (j - 2)) ∧
        (∀ A' : Int → Nat, (∀ i : Int, -1 ≤ i → i < (blockSide d : Int) - 1 → A' i = A i) →
          ∀ r c : Nat, r < blockSide d → c < blockSide d →
            predictorOf .d153 (blockSide d) (depthOf d) A' L r c = P r c) ∧
        (∀ (b : Bool) (i : Int), -1 ≤ i → i < blockSide d →
          frameAbove s.mem { d with haveRight := b } s.latch i = A i)

/-- R118: D207, the five equations of its pseudocode on the samples written, the samples that equal `L[N-1]`, and that
the above edge, HAVE_ABOVE and HAVE_RIGHT have no effect. The form `(L[N-2] + 3·L[N-1] + 2) >> 2` and the samples that
equal `L[N-1]` are sentences of R118 that the spec marks as derived (from R13 and R123). -/
def Obligations.D207Diagonal : Prop :=
  ∀ (d : Desc) (s : State), s.mem.wf → Runs .d207 d s →
    fieldOf (encode (.d207 d)) 0 4 = 7 ∧
    ∃ (t : State) (P : Nat → Nat → Nat), exec (.d207 d) s = .next t ∧ Wrote d s t P ∧
      ∀ (L : Int → Nat), L = frameLeft s.mem d s.latch →
        (∀ j : Nat, j < blockSide d → P (blockSide d - 1) j = L (blockSide d - 1)) ∧
        (∀ i : Nat, i + 2 ≤ blockSide d → P i 0 = avg2 (L i) (L (i + 1))) ∧
        (∀ i : Nat, i + 3 ≤ blockSide d → P i 1 = avg3 (L i) (L (i + 1)) (L (i + 2))) ∧
        P (blockSide d - 2) 1 = avg3 (L (blockSide d - 2)) (L (blockSide d - 1)) (L (blockSide d - 1)) ∧
        P (blockSide d - 2) 1 = (L (blockSide d - 2) + 3 * L (blockSide d - 1) + 2) / 4 ∧
        (∀ i j : Nat, i + 2 ≤ blockSide d → 2 ≤ j → j < blockSide d → P i j = P (i + 1) (j - 2)) ∧
        (∀ r c : Nat, r < blockSide d → c < blockSide d → blockSide d - 1 ≤ r + c / 2 →
          P r c = L (blockSide d - 1)) ∧
        (∀ A' : Int → Nat, ∀ r c : Nat, r < blockSide d → c < blockSide d →
          predictorOf .d207 (blockSide d) (depthOf d) A' L r c = P r c) ∧
        (∀ (a b : Bool) (i : Nat),
          frameLeft s.mem { d with haveAbove := a, haveRight := b } s.latch i = L i)

/-- R119: D63, its two cases with `k = r >> 1`, its replicated samples, that it reads no entry above `A[3N/2]`, and that
HAVE_LEFT has no effect. The largest index read and the replicated samples are sentences of R119 that the spec marks as
derived (from R13 and R164). -/
def Obligations.D63Diagonal : Prop :=
  ∀ (d : Desc) (s : State), s.mem.wf → Runs .d63 d s →
    fieldOf (encode (.d63 d)) 0 4 = 8 ∧
    ∃ t, exec (.d63 d) s = .next t ∧
      Wrote d s t (fun r c =>
        if r % 2 = 1 then
          avg3 (frameAbove s.mem d s.latch (r / 2 + c : Nat)) (frameAbove s.mem d s.latch (r / 2 + c + 1 : Nat))
            (frameAbove s.mem d s.latch (r / 2 + c + 2 : Nat))
        else avg2 (frameAbove s.mem d s.latch (r / 2 + c : Nat)) (frameAbove s.mem d s.latch (r / 2 + c + 1 : Nat))) ∧
      ((blockSide d ≠ 4 ∨ d.haveRight = false) → ∀ r c : Nat, r < blockSide d → c < blockSide d →
        blockSide d - 1 ≤ r / 2 + c → sampleIn t.mem d s.latch r c = frameAbove s.mem d s.latch (blockSide d - 1)) ∧
      (∀ A : Int → Nat, (∀ i : Nat, i ≤ 3 * blockSide d / 2 → A i = frameAbove s.mem d s.latch i) →
        ∀ (L : Int → Nat) (r c : Nat), r < blockSide d → c < blockSide d →
          predictorOf .d63 (blockSide d) (depthOf d) A L r c = sampleIn t.mem d s.latch r c) ∧
      (∀ (l : Bool) (i : Nat), frameAbove s.mem { d with haveLeft := l } s.latch i = frameAbove s.mem d s.latch i)

/-- R150: TM writes `clip(L[r] + A[c] - A[-1])`, and the unclipped value lies in `[-(2^BDV - 1), 2·(2^BDV - 1)]`. The
bound on the unclipped value is a sentence of R150 that the spec marks as derived. -/
def Obligations.TmClipsTheGradient : Prop :=
  ∀ (d : Desc) (s : State), s.mem.wf → Runs .tm d s →
    fieldOf (encode (.tm d)) 0 4 = 9 ∧
    ∃ t, exec (.tm d) s = .next t ∧
      Wrote d s t (fun r c => clip (depthOf d)
        ((frameLeft s.mem d s.latch r : Int) + frameAbove s.mem d s.latch c - frameAbove s.mem d s.latch (-1))) ∧
      (∀ r c : Nat, r < blockSide d → c < blockSide d →
        -(maxSample (depthOf d) : Int) ≤
            (frameLeft s.mem d s.latch r : Int) + frameAbove s.mem d s.latch c - frameAbove s.mem d s.latch (-1) ∧
        (frameLeft s.mem d s.latch r : Int) + frameAbove s.mem d s.latch c - frameAbove s.mem d s.latch (-1) ≤
          2 * maxSample (depthOf d))

/-- R151, which the spec marks as derived: TM without an above edge is an H prediction, with an above edge alone a V
prediction, with neither `base + 1`. -/
def Obligations.TmWithMissingEdges : Prop :=
  ∀ (d : Desc) (s t : State), s.mem.wf → Runs .tm d s → exec (.tm d) s = .next t →
    ∀ r c : Nat, r < blockSide d → c < blockSide d →
      (d.haveAbove = false → sampleIn t.mem d s.latch r c = frameLeft s.mem d s.latch r) ∧
      (d.haveAbove = true → d.haveLeft = false → sampleIn t.mem d s.latch r c = frameAbove s.mem d s.latch c) ∧
      (d.haveAbove = false → d.haveLeft = false → sampleIn t.mem d s.latch r c = baseValue (depthOf d) + 1)

/-- R141: DC_BOTH writes the rounded average of both edges; the sum's bound, the average's range, and half-way rounding.
The bound, the range and the half-way rounding are sentences of R141 that the spec marks as derived. -/
def Obligations.DcBothAverages : Prop :=
  ∀ (e : DcDesc) (d : Desc) (s : State), d = dcDesc true true e → s.mem.wf → Runs .dcBoth d s →
    encode (.dcBoth e) &&& 0xFFFFF0CF#32 = 0x000000C0#32 ∧
    ∃ (t : State) (sum dc : Nat), exec (.dcBoth e) s = .next t ∧
      sum = sumTo (frameAbove s.mem d s.latch) (blockSide d) + sumTo (frameLeft s.mem d s.latch) (blockSide d) ∧
      dc = (sum + blockSide d) / (2 * blockSide d) ∧
      Wrote d s t (fun _ _ => dc) ∧
      sum ≤ 262080 ∧ dc ≤ maxSample (depthOf d) ∧
      (∀ k : Nat, sum = 2 * blockSide d * k + blockSide d → dc = k + 1)

/-- R142: DC_LEFT writes the rounded average of the left column, whatever the above edge. -/
def Obligations.DcLeftAverages : Prop :=
  ∀ (e : DcDesc) (d : Desc) (s : State), d = dcDesc true false e → s.mem.wf → Runs .dcLeft d s →
    encode (.dcLeft e) &&& 0xFFFFF0CF#32 = 0x00000040#32 ∧
    ∃ t, exec (.dcLeft e) s = .next t ∧
      Wrote d s t (fun _ _ => (sumTo (frameLeft s.mem d s.latch) (blockSide d) + blockSide d / 2) / blockSide d) ∧
      (∀ (A L : Int → Nat), (∀ i : Nat, i < blockSide d → L i = frameLeft s.mem d s.latch i) →
        ∀ r c : Nat, r < blockSide d → c < blockSide d →
          predictorOf .dcLeft (blockSide d) (depthOf d) A L r c = sampleIn t.mem d s.latch r c)

/-- R143: DC_TOP writes the rounded average of the above row's first N samples, whatever the left column, the corner and
the above-right samples. -/
def Obligations.DcTopAverages : Prop :=
  ∀ (e : DcDesc) (d : Desc) (s : State), d = dcDesc false true e → s.mem.wf → Runs .dcTop d s →
    encode (.dcTop e) &&& 0xFFFFF0CF#32 = 0x00000080#32 ∧
    ∃ t, exec (.dcTop e) s = .next t ∧
      Wrote d s t (fun _ _ => (sumTo (frameAbove s.mem d s.latch) (blockSide d) + blockSide d / 2) / blockSide d) ∧
      (∀ (A L : Int → Nat), (∀ i : Nat, i < blockSide d → A i = frameAbove s.mem d s.latch i) →
        ∀ r c : Nat, r < blockSide d → c < blockSide d →
          predictorOf .dcTop (blockSide d) (depthOf d) A L r c = sampleIn t.mem d s.latch r c)

/-- R144: DC_128 writes `128 << (BDV - 8)`, that is 128, 512 or 2048, and reads no memory. That it reads no memory is a
sentence of R144 that the spec marks as derived, from R161. -/
def Obligations.Dc128Constant : Prop :=
  ∀ (e : DcDesc) (d : Desc) (s : State), d = dcDesc false false e → s.mem.wf → Runs .dc128 d s →
    encode (.dc128 e) &&& 0xFFFFF0CF#32 = 0x00000000#32 ∧
    readAddresses (needsOf .dc128) d s.latch = [] ∧
    ∃ t, exec (.dc128 e) s = .next t ∧
      Wrote d s t (fun _ _ => 128 <<< (depthOf d - 8)) ∧
      (128 <<< (depthOf d - 8) = 128 ∨ 128 <<< (depthOf d - 8) = 512 ∨ 128 <<< (depthOf d - 8) = 2048)

/-- R42's derived sentence: a completed command leaves no sample above `2^BDV - 1` in its block: the bits above BD of a
16-bit sample are 0. -/
def Obligations.WrittenSamplesFitDepth : Prop :=
  ∀ (i : Instr) (s t : State), s.mem.wf → Runs (kindOf i) (descOf i) s → exec i s = .next t →
    ∀ r c : Nat, r < blockSide (descOf i) → c < blockSide (descOf i) →
      sampleIn t.mem (descOf i) s.latch r c ≤ maxSample (depthOf (descOf i))

/-- R62's derived sentence: HAVE_RIGHT has an effect only when N = 4 and only on D45 and D63: in every other case the
command does exactly the same with it 0 or 1, however it ends. -/
def Obligations.HaveRightIgnored : Prop :=
  ∀ (k : Kind) (d : Desc) (b : Bool) (s : State), (blockSide d ≠ 4 ∨ (k ≠ .d45 ∧ k ≠ .d63)) →
    exec (instrOfKind k { d with haveRight := b }) s = exec (instrOfKind k d) s

/-- R104's derived sentence: a command with BD = 0 and SAMPLE16 = 1 writes the same sample values as the same command
with SAMPLE16 = 0 on the same edges, whatever the two states are otherwise. -/
def Obligations.StorageSizeIndependent : Prop :=
  ∀ (k : Kind) (d₁ d₂ : Desc) (s₁ s₂ t₁ t₂ : State), d₁.bitDepth = .bits8 → d₁.sample16 = false →
    d₂ = { d₁ with sample16 := true } →
    (descOf (instrOfKind k d₁) = d₁) → s₁.mem.wf → s₂.mem.wf → Runs k d₁ s₁ → Runs k d₂ s₂ →
    (∀ i : Int, -1 ≤ i → i < 2 * blockSide d₁ → frameAbove s₂.mem d₂ s₂.latch i = frameAbove s₁.mem d₁ s₁.latch i) →
    (∀ i : Int, 0 ≤ i → i < blockSide d₁ → frameLeft s₂.mem d₂ s₂.latch i = frameLeft s₁.mem d₁ s₁.latch i) →
    exec (instrOfKind k d₁) s₁ = .next t₁ → exec (instrOfKind k d₂) s₂ = .next t₂ →
    ∀ r c : Nat, r < blockSide d₁ → c < blockSide d₁ →
      sampleIn t₂.mem d₂ s₂.latch r c = sampleIn t₁.mem d₁ s₁.latch r c

/-! Edges (44_edge_handling.md) and addresses (20_memory.md). -/

/-- R162, R163, R164, R165, R166: once the reads are good, `FillEdges` leaves the frame's edges in LEFT and ABOVE. -/
def Obligations.EdgesAreTheFrames : Prop :=
  ∀ (k : Kind) (d : Desc) (s : State), ReadsOk (needsOf k) d s →
    ∃ t, fillEdges d (edgePlan (needsOf k) d s.latch) s = .filled t ∧ t.mem = s.mem ∧ t.status = s.status ∧
      ((needsOf k).left = true → ∀ i : Nat, i < blockSide d → leftEdge t i = frameLeft s.mem d s.latch i) ∧
      ((needsOf k).above ≠ .nothing → ∀ i : Int, -1 ≤ i → i < aboveCount (needsOf k).above (blockSide d) →
        aboveEdge t i = frameAbove s.mem d s.latch i)

/-- R167, which the spec marks as derived: every read of a command that CheckCommand passes lies in the footprint R167
names and inside the valid frame. -/
def Obligations.ReadsInsideFrame : Prop :=
  ∀ (k : Kind) (d : Desc) (g : OperandRegs) (slot : EdgeSlot) (dr dc : Int), checkCommand d g = none →
    (slot, EdgeSource.sample dr dc) ∈ edgePlan (needsOf k) d g →
      ((dc = -1 ∧ (g.y0.toNat : Int) - 1 ≤ g.y0.toNat + dr ∧
          (g.y0.toNat : Int) + dr ≤ min ((g.y0.toNat : Int) + blockSide d) g.frameH.toNat - 1) ∨
       (dr = -1 ∧ (g.x0.toNat : Int) - 1 ≤ g.x0.toNat + dc ∧
          (g.x0.toNat : Int) + dc ≤ min ((g.x0.toNat : Int) + 2 * blockSide d) g.frameW.toNat - 1)) ∧
      0 ≤ (g.y0.toNat : Int) + dr ∧ (g.y0.toNat : Int) + dr < g.frameH.toNat ∧
      0 ≤ (g.x0.toNat : Int) + dc ∧ (g.x0.toNat : Int) + dc < g.frameW.toNat

/-- R168's derived sentence: inside the frame every `min` of R161 returns its first argument, so replication changes
nothing. -/
def Obligations.FastPathAgrees : Prop :=
  ∀ (d : Desc) (g : OperandRegs),
    ((g.x0.toNat : Int) + limOf d + 1 ≤ g.frameW.toNat → d.haveAbove = true → ∀ i : Nat,
      aboveSource d g i = .sample (-1) (min (i : Int) (limOf d))) ∧
    (g.y0.toNat + blockSide d ≤ g.frameH.toNat → d.haveLeft = true → ∀ i : Nat, i < blockSide d →
      leftSource d g i = .sample i (-1))

/-- R48's derived sentence: a command with 16-bit samples that CheckCommand passes makes only even addresses. -/
def Obligations.SampleAccessesAligned : Prop :=
  ∀ (d : Desc) (g : OperandRegs), checkCommand d g = none → d.sample16 = true →
    dstOf g % 2 = 0 ∧ ∀ dr dc : Int, saddr d g dr dc % 2 = 0

/-- R46's derived sentence, taken literally: with STRIDE ≥ N the reads and the writes of a command are disjoint. -/
def Obligations.ReadsDisjointFromWritesAtAnyStride : Prop :=
  ∀ (k : Kind) (d : Desc) (g : OperandRegs) (slot : EdgeSlot) (dr dc : Int) (r c : Nat),
    checkCommand d g = none → (slot, EdgeSource.sample dr dc) ∈ edgePlan (needsOf k) d g →
    r < blockSide d → c < blockSide d → saddr d g dr dc ≠ saddr d g r c

/-- R46, with the strides for which its disjointness does hold: more than N, and more than the last above column read.
-/
def Obligations.ReadsDisjointFromWritesAtWideStride : Prop :=
  ∀ (k : Kind) (d : Desc) (g : OperandRegs) (slot : EdgeSlot) (dr dc : Int) (r c : Nat),
    checkCommand d g = none → blockSide d < g.stride.toNat → limOf d < g.stride.toNat →
    (slot, EdgeSource.sample dr dc) ∈ edgePlan (needsOf k) d g → r < blockSide d → c < blockSide d →
      saddr d g dr dc + sampleBytes d ≤ saddr d g r c ∨ saddr d g r c + sampleBytes d ≤ saddr d g dr dc

/-! How a command ends (40_command.md, 60_exceptions.md, 70_reset_and_hazards.md). -/

/-- A step runs the decoded command: on the block's turn a running command whose latched CMD decodes to `i` steps as
`exec i`, the input that gave the turn taken (R34, R67, R100). -/
def Obligations.StepRunsDecodedCommand : Prop :=
  ∀ (s : State) (i : Instr), BlockToMove s → decode s.latch.cmd = .ok i → step s = exec i (afterInput s)

/-- R200, R201: on the block's turn the smallest code of 2 to 9 whose condition holds on the latched values is raised,
with no memory access; if none holds the command is decoded and runs with CheckCommand passed. -/
def Obligations.SmallestFaultCodeWins : Prop :=
  ∀ s : State, BlockToMove s →
    (∀ n : Nat, faultCause s.latch n → (∀ m, m < n → ¬ faultCause s.latch m) →
      ∃ t k, faultNumber k = n ∧ step s = .next t ∧ Faulted k (afterInput s) t) ∧
    ((∀ n, ¬ faultCause s.latch n) →
      ∃ i, decode s.latch.cmd = .ok i ∧ checkCommand (descOf i) s.latch = none ∧ step s = exec i (afterInput s))

/-- R44, R202: a command that passed CheckCommand and whose first bad read is above `2^BDV - 1` faults with code 10 and
writes nothing. -/
def Obligations.FirstOutOfRangeReadFaults : Prop :=
  ∀ (i : Instr) (s : State) (pre post : List (EdgeSlot × EdgeSource)) (slot : EdgeSlot) (dr dc : Int),
    checkCommand (descOf i) s.latch = none →
    edgePlan (needsOf (kindOf i)) (descOf i) s.latch = pre ++ (slot, .sample dr dc) :: post →
    (∀ slot' dr' dc', (slot', EdgeSource.sample dr' dc') ∈ pre → ReadOk (descOf i) s dr' dc') →
    admitted s.platform (saddr (descOf i) s.latch dr dc) (sampleBytes (descOf i)) = true →
    maxSample (depthOf (descOf i)) < sampleIn s.mem (descOf i) s.latch dr dc →
    ∃ t, exec i s = .next t ∧ Faulted .sampleOutOfRange s t ∧ faultNumber .sampleOutOfRange = 10

/-- R47, R202, R227: a command whose first bad read is not admitted is stuck: no code, BUSY as it was, nothing written,
the latch kept. -/
def Obligations.UnadmittedReadSticks : Prop :=
  ∀ (i : Instr) (s : State) (pre post : List (EdgeSlot × EdgeSource)) (slot : EdgeSlot) (dr dc : Int),
    checkCommand (descOf i) s.latch = none →
    edgePlan (needsOf (kindOf i)) (descOf i) s.latch = pre ++ (slot, .sample dr dc) :: post →
    (∀ slot' dr' dc', (slot', EdgeSource.sample dr' dc') ∈ pre → ReadOk (descOf i) s dr' dc') →
    admitted s.platform (saddr (descOf i) s.latch dr dc) (sampleBytes (descOf i)) = false →
    ∃ t, exec i s = .next t ∧ t.stuck = true ∧ t.status = s.status ∧ t.mem = s.mem ∧ t.latch = s.latch ∧ SameOutside s t

/-- R47, R220, R227: a command one of whose writes is not admitted is stuck; each admitted destination sample holds its
old or its predicted value, and no other byte changed: none outside the block, and no sample that is not admitted. Rests
on the model's free choice (log 6). -/
def Obligations.UnadmittedWriteSticks : Prop :=
  ∀ (i : Instr) (s : State) (d : Desc), d = descOf i → s.mem.wf → checkCommand d s.latch = none →
    ReadsOk (needsOf (kindOf i)) d s → ¬ WritesOk d s →
    ∃ t, exec i s = .next t ∧ t.stuck = true ∧ t.status = s.status ∧ t.latch = s.latch ∧ SameOutside s t ∧
      (∀ a, OutsideBlock d s.latch a → readByte t.mem a = readByte s.mem a) ∧
      (∀ r c : Nat, r < blockSide d → c < blockSide d →
        admitted s.platform (saddr d s.latch r c) (sampleBytes d) = true →
        sampleIn t.mem d s.latch r c = sampleIn s.mem d s.latch r c ∨
        sampleIn t.mem d s.latch r c = predictorOf (kindOf i) (blockSide d) (depthOf d)
          (frameAbove s.mem d s.latch) (frameLeft s.mem d s.latch) r c) ∧
      (∀ r c : Nat, r < blockSide d → c < blockSide d →
        admitted s.platform (saddr d s.latch r c) (sampleBytes d) = false →
        sampleIn t.mem d s.latch r c = sampleIn s.mem d s.latch r c)

/-- R227, which the spec marks as derived: a stuck command never completes: whatever happens but a reset, BUSY stays 1,
it stays stuck and keeps its latch; and a START then faults with code 1. -/
def Obligations.StuckUntilReset : Prop :=
  ∀ (s : State), s.status.busy = true → s.stuck = true →
    (∀ t, s.inputs.head? ≠ some .reset → step s = .next t →
      t.status.busy = true ∧ t.stuck = true ∧ t.latch = s.latch) ∧
    (∀ v rest, regWriteNext s 0x20 4 v rest → bitOf v 0 = true →
      ∃ t, step s = .next t ∧ t.status.fault = true ∧
        t.status.faultCode = (if s.status.fault then s.status.faultCode else .startWhileBusy))

/-- R203, R105: a fault of a command is one of codes 5 to 10 (2 to 4 cannot hold of a decoded command) and precise: if
running `i` turned FAULT on, STATUS holds that code with BUSY 0, and memory and the registers are as before. -/
def Obligations.FaultingCommandWritesNothing : Prop :=
  ∀ (i : Instr) (s t : State), exec i s = .next t → s.status.fault = false → t.status.fault = true →
    ∃ k, 5 ≤ faultNumber k ∧ t.status = ⟨false, true, k⟩ ∧ Faulted k s t

/-- The frame of every command, R32, R45, R105: whichever way it ends, the operand registers, the platform and the lists
are unchanged; FAULT and FAULT_CODE are unchanged unless it faulted; and every byte outside its N·N destination samples
reads as before. -/
def Obligations.CommandFrame : Prop :=
  ∀ (i : Instr) (s t : State), exec i s = .next t →
    SameOutside s t ∧
    (t.status.fault = s.status.fault ∨ t.status.fault = true) ∧
    (s.status.fault = true → t.status.faultCode = s.status.faultCode) ∧
    (t.status.fault = false → t.status.faultCode = s.status.faultCode) ∧
    (∀ a, OutsideBlock (descOf i) s.latch a → readByte t.mem a = readByte s.mem a)

/-! The host's accesses and STATUS (10_state.md, 20_memory.md). -/

/-- R29, R100; that the accepted START only latches and sets BUSY, and the command runs at a later step, is the model's
reading (log 2): CTRL reads 0; a write with bit 0 = 0 has no effect; with bit 0 = 1 it faults with code 1 while BUSY,
does nothing while halted, and otherwise latches the registers and sets BUSY; the other bits are ignored. -/
def Obligations.ControlRegister : Prop :=
  ∀ s : State,
    (∀ rest, regReadNext s 0x20 4 rest →
      step s = .next { afterInput s with replies := .register 0 :: s.replies }) ∧
    (∀ v rest, regWriteNext s 0x20 4 v rest →
      (bitOf v 0 = false → step s = .next (afterInput s)) ∧
      (bitOf v 0 = true → s.status.busy = true →
        step s = .next { afterInput s with status := ⟨true, true,
          if s.status.fault then s.status.faultCode else .startWhileBusy⟩ }) ∧
      (bitOf v 0 = true → s.status.busy = false → s.status.fault = true → step s = .next (afterInput s)) ∧
      (bitOf v 0 = true → s.status.busy = false → s.status.fault = false →
        step s = .next { afterInput s with latch := s.regs, status := ⟨true, false, s.status.faultCode⟩ }))

/-- R23, R30: a host read returns the register at its offset, and reserved offsets read 0. -/
def Obligations.RegisterMap : Prop :=
  ∀ (s : State) (off : Nat) (rest : List Event), off % 4 = 0 → off < 0x40 → regReadNext s off 4 rest →
    ∃ w, step s = .next { afterInput s with replies := .register w :: s.replies } ∧
      (off = 0x00 → w = s.regs.cmd) ∧ (off = 0x04 → w = s.regs.stride) ∧
      (off = 0x08 → w = s.regs.dstLo) ∧ (off = 0x0C → w = s.regs.dstHi) ∧
      (off = 0x10 → w = s.regs.x0) ∧ (off = 0x14 → w = s.regs.y0) ∧
      (off = 0x18 → w = s.regs.frameW) ∧ (off = 0x1C → w = s.regs.frameH) ∧
      (off = 0x20 → w = 0) ∧ (off = 0x24 → w = statusWord s.status) ∧ (0x28 ≤ off → w = 0)

/-- R24 to R28: a host write of an operand register while the block is idle stores every bit of it, and changes nothing
else. -/
def Obligations.OperandWriteReadsBack : Prop :=
  ∀ (s : State) (off : Nat) (v : Word) (rest : List Event), off ∈ operandOffsets → s.status.busy = false →
    regWriteNext s off 4 v rest →
    ∃ t, step s = .next t ∧ readRegister t (regAtOffset off) = v ∧
      (∀ off' ∈ operandOffsets, off' ≠ off → readRegister t (regAtOffset off') = readRegister s (regAtOffset off')) ∧
      t = { afterInput s with regs := t.regs }

/-- R23, R30: writes of STATUS and of the reserved offsets are ignored. -/
def Obligations.ReadOnlyOffsetsIgnoreWrites : Prop :=
  ∀ (s : State) (off : Nat) (v : Word) (rest : List Event), off % 4 = 0 → 0x24 ≤ off → off < 0x40 →
    regWriteNext s off 4 v rest → step s = .next (afterInput s)

/-- R30: the fields of the STATUS word; the reserved bits read 0; and FAULT_CODE is 0 when FAULT = 0, in every state
that keeps the invariants. -/
def Obligations.StatusWordFields : Prop :=
  ∀ s : State,
    fieldOf (statusWord s.status) 0 1 = s.status.busy.toNat ∧
    fieldOf (statusWord s.status) 1 1 = s.status.fault.toNat ∧
    fieldOf (statusWord s.status) 2 6 = 0 ∧
    fieldOf (statusWord s.status) 8 8 = faultNumber s.status.faultCode ∧
    fieldOf (statusWord s.status) 16 16 = 0 ∧
    (Inv s → fieldOf (statusWord s.status) 1 1 = 0 → fieldOf (statusWord s.status) 8 8 = 0)

/-- R31: a register access that is not 32-bit and aligned is refused, and so is a write of an operand register while
BUSY = 1. -/
def Obligations.RegisterAccessRefusals : Prop :=
  ∀ (s : State) (off bytes : Nat) (v : Word) (rest : List Event), off < 0x40 →
    ((bytes ≠ 4 ∨ off % 4 ≠ 0) →
      (regReadNext s off bytes rest → step s = .refused .registerAccessShape) ∧
      (regWriteNext s off bytes v rest → step s = .refused .registerAccessShape)) ∧
    (off ∈ operandOffsets → s.status.busy = true → regWriteNext s off 4 v rest →
      step s = .refused .operandWriteWhileBusy)

/-- R226: while BUSY = 1 a host access to a byte that the running command reads or writes is refused, whether memory
admits the access or not, and so also where the command is stuck on that byte. That the read footprint is the samples
R161 reads is the model's reading (log 10). -/
def Obligations.FootprintAccessRefused : Prop :=
  ∀ (s : State) (i : Instr) (addr bytes v a : Nat) (rest : List Event), s.status.busy = true →
    decode s.latch.cmd = .ok i → checkCommand (descOf i) s.latch = none →
    addr ≤ a → a < addr + bytes → InFootprint i s.latch a →
    (s.inputs = .host (.readMem addr bytes) :: rest → step s = .refused .footprintAccessWhileBusy) ∧
    (s.inputs = .host (.writeMem addr bytes v) :: rest → step s = .refused .footprintAccessWhileBusy)

/-- R42, R50, R52, R226: an admitted host access of memory that touches no byte of a running command's footprint (log
10) goes through, the block idle or BUSY: a write is read back, least significant byte first, changes only its own bytes
and nothing else of the state; a read changes nothing but the reply. The widths and the byte order of the host's
accesses are the model's choice (log 21), and so is that such an access reaches plane memory at every address (log 22).
-/
def Obligations.HostMemoryAccess : Prop :=
  ∀ (s : State) (addr bytes v : Nat) (rest : List Event), s.mem.wf → admitted s.platform addr bytes = true →
    (s.status.busy = true → ∀ i, decode s.latch.cmd = .ok i → checkCommand (descOf i) s.latch = none →
      ∀ a : Nat, addr ≤ a → a < addr + bytes → ¬ InFootprint i s.latch a) →
    (s.inputs = .host (.writeMem addr bytes v) :: rest →
      ∃ t, step s = .next t ∧ readBytes t.mem addr bytes = v % 256 ^ bytes ∧
        (∀ a, a < addr ∨ addr + bytes ≤ a → readByte t.mem a = readByte s.mem a) ∧
        t = { afterInput s with mem := t.mem }) ∧
    (s.inputs = .host (.readMem addr bytes) :: rest →
      step s = .next { afterInput s with replies := .memory (readBytes s.mem addr bytes) :: s.replies })

/-- R204: FAULT and FAULT_CODE are sticky: no step but a reset changes them once FAULT = 1, and a reset clears them; a
halted idle block starts nothing. -/
def Obligations.FaultIsSticky : Prop :=
  ∀ s : State, s.status.fault = true →
    (∀ t, s.inputs.head? ≠ some .reset → step s = .next t →
      t.status.fault = true ∧ t.status.faultCode = s.status.faultCode) ∧
    (∀ v rest, s.status.busy = false → regWriteNext s 0x20 4 v rest → step s = .next (afterInput s)) ∧
    (∀ rest, s.inputs = .reset :: rest → ∃ t, step s = .next t ∧ t.status = ⟨false, false, .none⟩)

/-- R209: an idle block with no input holds its state. R47, R223, R224: at a change of the platform's allocation every
block, idle or running, holds its state: only the allocation changes, memory's bytes included among what stays, and from
then on memory admits exactly the requests in range whose bytes the new regions hold. How admission follows from the
allocation is the model's choice (logs 8, 9), and so is the event itself (log 1). -/
def Obligations.IdleBlockHolds : Prop :=
  ∀ s : State,
    (s.status.busy = false → s.inputs = [] → step s = .next s) ∧
    (∀ (rs : List Region) (rest : List Event), s.inputs = .allocation rs :: rest →
      ∃ t, step s = .next t ∧ t = { afterInput s with platform := { s.platform with alloc := rs } } ∧
        ∀ (a : Int) (n : Nat), admitted t.platform a n = true ↔
          0 ≤ a ∧ a + n ≤ 2 ^ s.platform.addrW ∧
          ∀ k : Nat, k < n → ∃ r ∈ rs, (r.base : Int) ≤ a + k ∧ a + k < r.base + r.size)

/-! Reset (10_state.md R36, 70_reset_and_hazards.md R220) and the invariants. -/

/-- R36, R221: the values the spec gives for reset, and that a command started straight after reset faults with code 7
(R36's sentence, which the spec marks as derived). -/
def Obligations.ResetValues : Prop :=
  State.reset.regs = ⟨0, 0, 0, 0, 0, 0, 0, 0⟩ ∧ statusWord State.reset.status = 0 ∧
  readRegister State.reset .ctrl = 0 ∧
  (∃ t, Host.Core.run core 2
      { State.reset with inputs := [.host (.writeReg (State.reset.platform.ipredBase + 0x20) 4 1), .blockTurn] } = .next t ∧
    statusWord t.status = 0x00000702#32)

/-- R220: a reset event sets the registers and STATUS to their reset values from every state, whatever the block was
doing. Memory changes only where a command in progress wrote: each of its admitted samples then holds its old or its
predicted value (the model's free choice, log 6), and a sample that is not admitted is as before. All of memory is
unchanged where the block is idle or stuck, and where the command fails a check or has a bad read (R203). -/
def Obligations.ResetEvent : Prop :=
  ∀ (s : State) (rest : List Event), s.mem.wf → s.inputs = .reset :: rest →
    ∃ t, step s = .next t ∧ t.regs = ⟨0, 0, 0, 0, 0, 0, 0, 0⟩ ∧ statusWord t.status = 0 ∧ t.stuck = false ∧
      t.platform = s.platform ∧ t.inputs = rest ∧ t.replies = s.replies ∧
      ((s.status.busy = false ∨ s.stuck = true) → t.mem = s.mem) ∧
      (∀ i, decode s.latch.cmd = .ok i →
        (∀ a, OutsideBlock (descOf i) s.latch a → readByte t.mem a = readByte s.mem a) ∧
        (checkCommand (descOf i) s.latch = none → ReadsOk (needsOf (kindOf i)) (descOf i) s →
          ∀ r c : Nat, r < blockSide (descOf i) → c < blockSide (descOf i) →
            admitted s.platform (saddr (descOf i) s.latch r c) (sampleBytes (descOf i)) = true →
            sampleIn t.mem (descOf i) s.latch r c = sampleIn s.mem (descOf i) s.latch r c ∨
            sampleIn t.mem (descOf i) s.latch r c =
              predictorOf (kindOf i) (blockSide (descOf i)) (depthOf (descOf i))
                (frameAbove s.mem (descOf i) s.latch) (frameLeft s.mem (descOf i) s.latch) r c) ∧
        (checkCommand (descOf i) s.latch = none →
          ∀ r c : Nat, r < blockSide (descOf i) → c < blockSide (descOf i) →
            admitted s.platform (saddr (descOf i) s.latch r c) (sampleBytes (descOf i)) = false →
            sampleIn t.mem (descOf i) s.latch r c = sampleIn s.mem (descOf i) s.latch r c) ∧
        (checkCommand (descOf i) s.latch ≠ none → t.mem = s.mem) ∧
        (¬ ReadsOk (needsOf (kindOf i)) (descOf i) s → t.mem = s.mem)) ∧
      (∀ e, decode s.latch.cmd = .error e → t.mem = s.mem)

/-- The invariants hold right after reset. -/
def Obligations.InvariantAtReset : Prop :=
  Inv State.reset

/-- Every step keeps the invariants: memory canonical and inside the address space, FAULT_CODE 0 exactly when FAULT = 0
(R30), only a running command stuck (R227), and the latch equal to the registers while BUSY = 1 (R34). -/
def Obligations.InvariantKept : Prop :=
  ∀ s t : State, Inv s → step s = .next t → Inv t

/-! Assembler notation (R70, R72). -/

/-- R61, R67, R70, R72: a line that assembles gives a legal descriptor of the line's mode word, size, flags, depth and
storage: the command it decodes to is of the kind the mode word names, DC's by `.L` and `.A`, and a plain line's
HAVE_LEFT and HAVE_ABOVE are its `.L` and `.A`. Every line assembles but those refused: `.BD10` or `.BD12` without
`.S16`, and a pseudo form with `.L` or `.A` added; a pseudo form assembles as the DC line with its fixed suffixes. That
a line is a structure of its fields is the model's choice (log 19). -/
def Obligations.AssembledLinesDecode : Prop :=
  ∀ l : AsmLine,
    (∀ w, assembleLine l = some w → ∃ i, decode w = .ok i ∧ (descOf i).txSize = l.size ∧
      (descOf i).bitDepth = l.depth ∧ (descOf i).sample16 = l.s16 ∧ (descOf i).haveRight = l.sufR ∧
      (∀ k, (l.mode, k) ∈ [(AsmMode.v, Kind.v), (.h, .h), (.d45, .d45), (.d135, .d135), (.d117, .d117), (.d153, .d153),
          (.d207, .d207), (.d63, .d63), (.tm, .tm), (.dcBoth, .dcBoth), (.dcLeft, .dcLeft), (.dcTop, .dcTop),
          (.dc128, .dc128)] → kindOf i = k) ∧
      (∀ k, (l.mode, l.sufL, l.sufA, k) ∈ [(AsmMode.dc, true, true, Kind.dcBoth), (.dc, true, false, .dcLeft),
          (.dc, false, true, .dcTop), (.dc, false, false, .dc128)] → kindOf i = k) ∧
      (l.mode ∉ [AsmMode.dcBoth, .dcLeft, .dcTop, .dc128] →
        (descOf i).haveLeft = l.sufL ∧ (descOf i).haveAbove = l.sufA)) ∧
    ((l.depth = .bits8 ∨ l.s16 = true) →
      (l.mode ∉ [AsmMode.dcBoth, .dcLeft, .dcTop, .dc128] ∨ (l.sufL = false ∧ l.sufA = false)) →
      ∃ w, assembleLine l = some w) ∧
    (l.depth ≠ .bits8 → l.s16 = false → assembleLine l = none) ∧
    (∀ m hl ha, (m, hl, ha) ∈ [(AsmMode.dcBoth, true, true), (.dcLeft, true, false), (.dcTop, false, true),
        (.dc128, false, false)] → l.mode = m →
      ((l.sufL = true ∨ l.sufA = true) → assembleLine l = none) ∧
      (l.sufL = false → l.sufA = false →
        assembleLine l = assembleLine { l with mode := .dc, sufL := hl, sufA := ha }))

/-- R71, R100, R52: from an idle, unfaulted block the host sequence of an assembled line, the command running for any
number of STATUS polls, leaves the line's operands in the registers, BUSY read as 1 at each poll and STATUS read as 0 at
the end, the prediction in the destination block and every other byte unchanged. The list of inputs that orders host and
block is the model's own (log 1); that a line's numbers are taken modulo 2^32 by the register writes, and that the
number of polls is given, is the model's choice (log 19). -/
def Obligations.AssembledLineRuns : Prop :=
  ∀ (l : AsmLine) (w : Word) (i : Instr) (d : Desc) (g : OperandRegs) (s : State) (polls : Nat) (rest : List Event),
    assembleLine l = some w → decode w = .ok i → d = descOf i →
    g = ⟨w, BitVec.ofNat 32 l.stride, BitVec.ofNat 32 l.dst, BitVec.ofNat 32 (l.dst / 2 ^ 32), BitVec.ofNat 32 l.x0,
      BitVec.ofNat 32 l.y0, BitVec.ofNat 32 l.fw, BitVec.ofNat 32 l.fh⟩ →
    Inv s → s.status = ⟨false, false, .none⟩ → s.inputs = lineEvents s.platform w l polls ++ rest →
    Runs (kindOf i) d { s with latch := g } →
    ∃ t, Host.Core.run core (polls + 11) s = .next t ∧ t.regs = g ∧ t.status = s.status ∧ t.inputs = rest ∧
      t.platform = s.platform ∧
      t.replies = .register 0 :: (List.replicate polls (.register 1) ++ s.replies) ∧
      (∀ r c : Nat, r < blockSide d → c < blockSide d →
        sampleIn t.mem d g r c =
          predictorOf (kindOf i) (blockSide d) (depthOf d) (frameAbove s.mem d g) (frameLeft s.mem d g) r c) ∧
      (∀ a, OutsideBlock d g a → readByte t.mem a = readByte s.mem a)
end

