-- ==== Sys2Proof/Laws/Memory.lean ====
section
/-! SUPPORT. The laws of plane memory: a byte written is read back, every other byte keeps its value, and every operation keeps the canonical form. -/

namespace Sys2Proof.Machine

theorem readByte_writeByte_ne (m : Memory) {a b : Nat} (v : Byte) (h : b ≠ a) :
    readByte (writeByte m a v) b = readByte m b := by
  induction m with
  | nil =>
    unfold writeByte
    split
    · rfl
    · simp [readByte, h]
  | cons c rest ih =>
    obtain ⟨x, w⟩ := c
    unfold writeByte
    split
    · split
      · rfl
      · simp [readByte, h]
    · split
      · next _ hax =>
        subst hax
        split
        · simp [readByte, h]
        · simp [readByte, h]
      · simp [readByte, ih]

theorem readByte_of_all_gt (m : Memory) {a : Nat} (h : ∀ c ∈ m, a < c.1) : readByte m a = unlistedByte := by
  induction m with
  | nil => rfl
  | cons c rest ih =>
    obtain ⟨x, w⟩ := c
    have hx : a < x := h (x, w) (by simp)
    have hr : ∀ c ∈ rest, a < c.1 := fun c hc => h c (by simp [hc])
    simp [readByte, Nat.ne_of_lt hx, ih hr]

theorem readByte_writeByte_same {m : Memory} (hm : m.wf) (a : Nat) (v : Byte) :
    readByte (writeByte m a v) a = v := by
  obtain ⟨hs, -⟩ := hm
  induction m with
  | nil =>
    unfold writeByte
    split
    · next h => simp [readByte, h]
    · simp [readByte]
  | cons c rest ih =>
    obtain ⟨x, w⟩ := c
    obtain ⟨hx, hr⟩ := List.pairwise_cons.mp hs
    unfold writeByte
    split
    · next hlt =>
      split
      · next hv =>
        rw [hv]
        refine readByte_of_all_gt _ fun c hc => ?_
        rcases List.mem_cons.mp hc with rfl | hc
        · exact hlt
        · exact Nat.lt_trans hlt (hx c hc)
      · simp [readByte]
    · split
      · next _ hax =>
        subst hax
        split
        · next hv => rw [hv]; exact readByte_of_all_gt _ hx
        · simp [readByte]
      · next _ hne => simp [readByte, hne, ih hr]

theorem mem_writeByte {m : Memory} {a : Nat} {v : Byte} {c : Host.Cell} (h : c ∈ writeByte m a v) :
    (c = (a, v) ∧ v ≠ unlistedByte) ∨ c ∈ m := by
  induction m with
  | nil =>
    unfold writeByte at h
    split at h
    · simp at h
    · next hv => exact .inl ⟨by simpa using h, hv⟩
  | cons e rest ih =>
    obtain ⟨x, w⟩ := e
    unfold writeByte at h
    split at h
    · split at h
      · exact .inr h
      · next hv =>
        rcases List.mem_cons.mp h with h | h
        · exact .inl ⟨h, hv⟩
        · exact .inr h
    · split at h
      · split at h
        · exact .inr (by simp [h])
        · next hv =>
          rcases List.mem_cons.mp h with h | h
          · exact .inl ⟨h, hv⟩
          · exact .inr (by simp [h])
      · rcases List.mem_cons.mp h with h | h
        · exact .inr (by simp [h])
        · exact (ih h).imp id fun h => by simp [h]

theorem writeByte_wf {m : Memory} (hm : m.wf) (a : Nat) (v : Byte) : (writeByte m a v).wf := by
  obtain ⟨hs, hz⟩ := hm
  refine ⟨?_, fun c hc => ?_⟩
  · induction m with
    | nil => unfold writeByte; split <;> simp
    | cons e rest ih =>
      obtain ⟨x, w⟩ := e
      obtain ⟨hx, hr⟩ := List.pairwise_cons.mp hs
      unfold writeByte
      split
      · next hlt =>
        split
        · exact hs
        · refine List.pairwise_cons.mpr ⟨fun c hc => ?_, hs⟩
          rcases List.mem_cons.mp hc with rfl | hc
          · exact hlt
          · exact Nat.lt_trans hlt (hx c hc)
      · split
        · next _ hax =>
          subst hax
          split
          · exact hr
          · exact List.pairwise_cons.mpr ⟨hx, hr⟩
        · next hlt hne =>
          refine List.pairwise_cons.mpr ⟨fun c hc => ?_, ih hr fun c hc => hz c (by simp [hc])⟩
          rcases mem_writeByte hc with ⟨rfl, -⟩ | hc
          · exact Nat.lt_of_le_of_ne (Nat.le_of_not_lt hlt) (Ne.symm hne)
          · exact hx c hc
  · rcases mem_writeByte hc with ⟨rfl, hv⟩ | hc
    · exact hv
    · exact hz c hc

/-- Bytes outside the written ones keep their value. -/
theorem readByte_writeBytes_outside (m : Memory) (a n v : Nat) {b : Nat} (h : b < a ∨ a + n ≤ b) :
    readByte (writeBytes m a n v) b = readByte m b := by
  induction n generalizing m a v with
  | zero => rfl
  | succ n ih =>
    rw [writeBytes, ih _ _ _ (by omega), readByte_writeByte_ne _ _ (by omega)]

theorem writeBytes_wf {m : Memory} (hm : m.wf) (a n v : Nat) : (writeBytes m a n v).wf := by
  induction n generalizing m a v with
  | zero => exact hm
  | succ n ih => exact ih (writeByte_wf hm a _) _ _

/-- A listed byte after a write was listed before or is one of the written ones. -/
theorem mem_writeBytes {m : Memory} {a n v : Nat} {c : Host.Cell} (h : c ∈ writeBytes m a n v) :
    (a ≤ c.1 ∧ c.1 < a + n) ∨ c ∈ m := by
  induction n generalizing m a v with
  | zero => exact .inr h
  | succ n ih =>
    rcases ih h with h | h
    · exact .inl (by omega)
    · rcases mem_writeByte h with ⟨rfl, -⟩ | h
      · exact .inl (by simp)
      · exact .inr h

theorem readBytes_congr {m m' : Memory} {a n : Nat}
    (h : ∀ b, a ≤ b → b < a + n → readByte m b = readByte m' b) : readBytes m a n = readBytes m' a n := by
  induction n generalizing a with
  | zero => rfl
  | succ n ih =>
    rw [readBytes, readBytes, h a (by omega) (by omega), ih fun b h1 h2 => h b (by omega) (by omega)]

/-- Values outside the written bytes read as before. -/
theorem readBytes_writeBytes_outside (m : Memory) (a n v : Nat) {b k : Nat} (h : b + k ≤ a ∨ a + n ≤ b) :
    readBytes (writeBytes m a n v) b k = readBytes m b k :=
  readBytes_congr fun c h1 h2 => readByte_writeBytes_outside m a n v (by omega)

/-- A value written is read back (R42). -/
theorem readBytes_writeBytes_same {m : Memory} (hm : m.wf) (a n v : Nat) :
    readBytes (writeBytes m a n v) a n = v % 256 ^ n := by
  induction n generalizing m a v with
  | zero => simp [readBytes, Nat.mod_one]
  | succ n ih =>
    rw [readBytes, writeBytes, ih (writeByte_wf hm a _), readByte_writeBytes_outside _ _ _ _ (by omega),
      readByte_writeByte_same hm, BitVec.toNat_ofNat, show 256 ^ (n + 1) = 256 * 256 ^ n from Nat.pow_succ',
      Nat.mod_mul]

theorem readBytes_lt (m : Memory) (a n : Nat) : readBytes m a n < 256 ^ n := by
  induction n generalizing a with
  | zero => simp [readBytes]
  | succ n ih =>
    have h1 := ih (a + 1)
    have h2 := (readByte m a).isLt
    rw [readBytes, Nat.pow_succ]
    omega

/-! Runs of sample writes. -/

theorem writeSamples_wf {m : Memory} (hm : m.wf) (n : Nat) (ws : List (Int × Nat)) : (writeSamples n ws m).wf := by
  induction ws generalizing m with
  | nil => exact hm
  | cons w rest ih => exact ih (writeBytes_wf hm _ _ _)

theorem readByte_writeSamples_outside {n : Nat} {ws : List (Int × Nat)} (m : Memory) {b : Nat}
    (h : ∀ w ∈ ws, b < w.1.toNat ∨ w.1.toNat + n ≤ b) :
    readByte (writeSamples n ws m) b = readByte m b := by
  induction ws generalizing m with
  | nil => rfl
  | cons w rest ih =>
    rw [writeSamples, ih _ fun x hx => h x (by simp [hx]), readByte_writeBytes_outside _ _ _ _ (h w (by simp))]

theorem mem_writeSamples {n : Nat} {ws : List (Int × Nat)} {m : Memory} {c : Host.Cell}
    (h : c ∈ writeSamples n ws m) :
    (∃ w ∈ ws, w.1.toNat ≤ c.1 ∧ c.1 < w.1.toNat + n) ∨ c ∈ m := by
  induction ws generalizing m with
  | nil => exact .inr h
  | cons w rest ih =>
    rcases ih h with ⟨x, hx, hc⟩ | h
    · exact .inl ⟨x, by simp [hx], hc⟩
    · rcases mem_writeBytes h with h | h
      · exact .inl ⟨w, by simp, h⟩
      · exact .inr h

/-- Of writes to pairwise disjoint places, each value is read back. -/
theorem readBytes_writeSamples {n : Nat} {ws : List (Int × Nat)} {m : Memory} (hm : m.wf)
    (hd : ws.Pairwise fun x y => x.1.toNat + n ≤ y.1.toNat ∨ y.1.toNat + n ≤ x.1.toNat)
    {w : Int × Nat} (hw : w ∈ ws) : readBytes (writeSamples n ws m) w.1.toNat n = w.2 % 256 ^ n := by
  induction ws generalizing m with
  | nil => simp at hw
  | cons x rest ih =>
    obtain ⟨hx, hr⟩ := List.pairwise_cons.mp hd
    rcases List.mem_cons.mp hw with rfl | hw
    · rw [writeSamples, ← readBytes_writeBytes_same hm w.1.toNat n w.2]
      refine readBytes_congr fun b h1 h2 => readByte_writeSamples_outside _ fun y hy => ?_
      have := hx y hy
      omega
    · exact ih (writeBytes_wf hm _ _ _) hr hw

theorem writeSomeSamples_wf {m : Memory} (hm : m.wf) (p : Platform) (use k n : Nat) (ws : List (Int × Nat)) :
    (writeSomeSamples p use k n ws m).wf := by
  induction ws generalizing m k with
  | nil => exact hm
  | cons w rest ih =>
    unfold writeSomeSamples
    refine ih ?_ _
    split
    · exact writeBytes_wf hm _ _ _
    · exact hm

theorem readByte_writeSomeSamples_outside {p : Platform} {use k n : Nat} {ws : List (Int × Nat)} (m : Memory) {b : Nat}
    (h : ∀ w ∈ ws, admitted p w.1 n = true → b < w.1.toNat ∨ w.1.toNat + n ≤ b) :
    readByte (writeSomeSamples p use k n ws m) b = readByte m b := by
  induction ws generalizing m k with
  | nil => rfl
  | cons w rest ih =>
    rw [writeSomeSamples, ih _ fun x hx => h x (by simp [hx])]
    split
    · next hw =>
      simp only [Bool.and_eq_true] at hw
      exact readByte_writeBytes_outside _ _ _ _ (h w (by simp) hw.1)
    · rfl

theorem mem_writeSomeSamples {p : Platform} {use k n : Nat} {ws : List (Int × Nat)} {m : Memory} {c : Host.Cell}
    (h : c ∈ writeSomeSamples p use k n ws m) :
    (∃ w ∈ ws, admitted p w.1 n = true ∧ w.1.toNat ≤ c.1 ∧ c.1 < w.1.toNat + n) ∨ c ∈ m := by
  induction ws generalizing m k with
  | nil => exact .inr h
  | cons w rest ih =>
    rcases ih h with ⟨x, hx, hc⟩ | h
    · exact .inl ⟨x, by simp [hx], hc⟩
    · split at h
      · next hw =>
        simp only [Bool.and_eq_true] at hw
        rcases mem_writeBytes h with h | h
        · exact .inl ⟨w, by simp, hw.1, h⟩
        · exact .inr h
      · exact .inr h

end Sys2Proof.Machine
end

