-- ==== Sys2Proof/Laws/State.lean ====
section
/-! SUPPORT. What each state update leaves of each field: one lemma a field, so that no proof unfolds a record update. -/

namespace Sys2Proof.Machine

section storeEdge
variable (s : State) (slot : EdgeSlot) (v : Nat)

@[simp] theorem storeEdge_regs : (storeEdge s slot v).regs = s.regs := by cases slot <;> rfl
@[simp] theorem storeEdge_status : (storeEdge s slot v).status = s.status := by cases slot <;> rfl
@[simp] theorem storeEdge_latch : (storeEdge s slot v).latch = s.latch := by cases slot <;> rfl
@[simp] theorem storeEdge_stuck : (storeEdge s slot v).stuck = s.stuck := by cases slot <;> rfl
@[simp] theorem storeEdge_mem : (storeEdge s slot v).mem = s.mem := by cases slot <;> rfl
@[simp] theorem storeEdge_platform : (storeEdge s slot v).platform = s.platform := by cases slot <;> rfl
@[simp] theorem storeEdge_inputs : (storeEdge s slot v).inputs = s.inputs := by cases slot <;> rfl
@[simp] theorem storeEdge_replies : (storeEdge s slot v).replies = s.replies := by cases slot <;> rfl
@[simp] theorem storeEdge_freeCount : (storeEdge s slot v).freeCount = s.freeCount := by cases slot <;> rfl

end storeEdge

section releaseScratch
variable (s : State)

@[simp] theorem releaseScratch_regs : (releaseScratch s).regs = s.regs := rfl
@[simp] theorem releaseScratch_status : (releaseScratch s).status = s.status := rfl
@[simp] theorem releaseScratch_stuck : (releaseScratch s).stuck = s.stuck := rfl
@[simp] theorem releaseScratch_mem : (releaseScratch s).mem = s.mem := rfl
@[simp] theorem releaseScratch_platform : (releaseScratch s).platform = s.platform := rfl
@[simp] theorem releaseScratch_inputs : (releaseScratch s).inputs = s.inputs := rfl
@[simp] theorem releaseScratch_replies : (releaseScratch s).replies = s.replies := rfl
@[simp] theorem releaseScratch_freeCount : (releaseScratch s).freeCount = s.freeCount + 1 := rfl

end releaseScratch

section raiseFault
variable (k : FaultCode) (s : State)

@[simp] theorem raiseFault_regs : (raiseFault k s).regs = s.regs := by unfold raiseFault; split <;> rfl
@[simp] theorem raiseFault_stuck : (raiseFault k s).stuck = s.stuck := by unfold raiseFault; split <;> rfl
@[simp] theorem raiseFault_mem : (raiseFault k s).mem = s.mem := by unfold raiseFault; split <;> rfl
@[simp] theorem raiseFault_platform : (raiseFault k s).platform = s.platform := by unfold raiseFault; split <;> rfl
@[simp] theorem raiseFault_inputs : (raiseFault k s).inputs = s.inputs := by unfold raiseFault; split <;> rfl
@[simp] theorem raiseFault_replies : (raiseFault k s).replies = s.replies := by unfold raiseFault; split <;> rfl

@[simp] theorem raiseFault_fault : (raiseFault k s).status.fault = true := by unfold raiseFault; split <;> rfl

@[simp] theorem raiseFault_faultCode :
    (raiseFault k s).status.faultCode = if s.status.fault then s.status.faultCode else k := by
  unfold raiseFault; split <;> rfl

theorem raiseFault_busy :
    (raiseFault k s).status.busy = if k = .startWhileBusy then s.status.busy else false := by
  unfold raiseFault; split <;> rfl

theorem raiseFault_latch_start : (raiseFault .startWhileBusy s).latch = s.latch := rfl

end raiseFault

section completeCommand
variable (n : Nat) (ws : List (Int × Nat)) (s : State)

@[simp] theorem completeCommand_regs : (completeCommand n ws s).regs = s.regs := rfl
@[simp] theorem completeCommand_status :
    (completeCommand n ws s).status = { s.status with busy := false } := rfl
@[simp] theorem completeCommand_stuck : (completeCommand n ws s).stuck = s.stuck := rfl
@[simp] theorem completeCommand_mem : (completeCommand n ws s).mem = writeSamples n ws s.mem := rfl
@[simp] theorem completeCommand_platform : (completeCommand n ws s).platform = s.platform := rfl
@[simp] theorem completeCommand_inputs : (completeCommand n ws s).inputs = s.inputs := rfl
@[simp] theorem completeCommand_replies : (completeCommand n ws s).replies = s.replies := rfl

end completeCommand

section stallReading
variable (s : State)

@[simp] theorem stallReading_regs : (stallReading s).regs = s.regs := rfl
@[simp] theorem stallReading_status : (stallReading s).status = s.status := rfl
@[simp] theorem stallReading_latch : (stallReading s).latch = s.latch := rfl
@[simp] theorem stallReading_stuck : (stallReading s).stuck = true := rfl
@[simp] theorem stallReading_mem : (stallReading s).mem = s.mem := rfl
@[simp] theorem stallReading_platform : (stallReading s).platform = s.platform := rfl
@[simp] theorem stallReading_inputs : (stallReading s).inputs = s.inputs := rfl
@[simp] theorem stallReading_replies : (stallReading s).replies = s.replies := rfl

end stallReading

section stallWriting
variable (n : Nat) (ws : List (Int × Nat)) (s : State)

@[simp] theorem stallWriting_regs : (stallWriting n ws s).regs = s.regs := rfl
@[simp] theorem stallWriting_status : (stallWriting n ws s).status = s.status := rfl
@[simp] theorem stallWriting_latch : (stallWriting n ws s).latch = s.latch := rfl
@[simp] theorem stallWriting_stuck : (stallWriting n ws s).stuck = true := rfl
@[simp] theorem stallWriting_mem :
    (stallWriting n ws s).mem = writeSomeSamples s.platform s.freeCount 0 n ws s.mem := rfl
@[simp] theorem stallWriting_platform : (stallWriting n ws s).platform = s.platform := rfl
@[simp] theorem stallWriting_inputs : (stallWriting n ws s).inputs = s.inputs := rfl
@[simp] theorem stallWriting_replies : (stallWriting n ws s).replies = s.replies := rfl

end stallWriting

section resetBlock
variable (s : State)

@[simp] theorem resetBlock_regs : (resetBlock s).regs = zeroRegs := rfl
@[simp] theorem resetBlock_status : (resetBlock s).status = ⟨false, false, .none⟩ := rfl
@[simp] theorem resetBlock_stuck : (resetBlock s).stuck = false := rfl
@[simp] theorem resetBlock_mem : (resetBlock s).mem = abandonedMemory s := rfl
@[simp] theorem resetBlock_platform : (resetBlock s).platform = s.platform := rfl
@[simp] theorem resetBlock_inputs : (resetBlock s).inputs = s.inputs := rfl
@[simp] theorem resetBlock_replies : (resetBlock s).replies = s.replies := rfl

end resetBlock

section startCommand
variable (s : State)

@[simp] theorem startCommand_regs : (startCommand s).regs = s.regs := by
  unfold startCommand; split <;> (try split) <;> simp
@[simp] theorem startCommand_stuck : (startCommand s).stuck = s.stuck := by
  unfold startCommand; split <;> (try split) <;> simp
@[simp] theorem startCommand_mem : (startCommand s).mem = s.mem := by
  unfold startCommand; split <;> (try split) <;> simp
@[simp] theorem startCommand_platform : (startCommand s).platform = s.platform := by
  unfold startCommand; split <;> (try split) <;> simp
@[simp] theorem startCommand_inputs : (startCommand s).inputs = s.inputs := by
  unfold startCommand; split <;> (try split) <;> simp
@[simp] theorem startCommand_replies : (startCommand s).replies = s.replies := by
  unfold startCommand; split <;> (try split) <;> simp

end startCommand

section loadCommand
variable (s : State) (w : Word)

@[simp] theorem loadCommand_cmd : (loadCommand s w).regs.cmd = w := rfl
@[simp] theorem loadCommand_latch : (loadCommand s w).latch = (loadCommand s w).regs := rfl
@[simp] theorem loadCommand_busy : (loadCommand s w).status.busy = true := rfl
@[simp] theorem loadCommand_stuck : (loadCommand s w).stuck = false := rfl
@[simp] theorem loadCommand_mem : (loadCommand s w).mem = s.mem := rfl
@[simp] theorem loadCommand_platform : (loadCommand s w).platform = s.platform := rfl
@[simp] theorem loadCommand_inputs : (loadCommand s w).inputs = .blockTurn :: s.inputs := rfl
@[simp] theorem loadCommand_replies : (loadCommand s w).replies = s.replies := rfl

end loadCommand

end Sys2Proof.Machine
end

