-- ==== Sys2Proof/Laws/Command.lean ====
section
/-! SUPPORT. What filling the edges and running a command can do, said once: the inversion lemmas of `fillEdges` and `runCommand`, the edge buffers after a fill, and the destination block after the writes. -/

namespace Sys2Proof.Machine

open Sys2Proof.Safety

/-- `t` is `s` but for the edge buffers. -/
def EdgesOnly (s t : State) : Prop :=
  t = { s with above := t.above, left := t.left }

theorem EdgesOnly.refl (s : State) : EdgesOnly s s := rfl

theorem EdgesOnly.latch {s t : State} (h : EdgesOnly s t) : t.latch = s.latch := by rw [h]
theorem EdgesOnly.mem {s t : State} (h : EdgesOnly s t) : t.mem = s.mem := by rw [h]
theorem EdgesOnly.platform {s t : State} (h : EdgesOnly s t) : t.platform = s.platform := by rw [h]
theorem EdgesOnly.regs {s t : State} (h : EdgesOnly s t) : t.regs = s.regs := by rw [h]
theorem EdgesOnly.status {s t : State} (h : EdgesOnly s t) : t.status = s.status := by rw [h]
theorem EdgesOnly.stuck {s t : State} (h : EdgesOnly s t) : t.stuck = s.stuck := by rw [h]
theorem EdgesOnly.inputs {s t : State} (h : EdgesOnly s t) : t.inputs = s.inputs := by rw [h]
theorem EdgesOnly.replies {s t : State} (h : EdgesOnly s t) : t.replies = s.replies := by rw [h]
theorem EdgesOnly.freeCount {s t : State} (h : EdgesOnly s t) : t.freeCount = s.freeCount := by rw [h]

theorem edgesOnly_storeEdge {s t : State} {slot : EdgeSlot} {v : Nat} (h : EdgesOnly (storeEdge s slot v) t) :
    EdgesOnly s t := by
  unfold EdgesOnly at h ⊢
  rw [h]
  cases slot <;> rfl

/-- A source's value depends on memory, the latch and the platform only. -/
@[simp] theorem sourceValue_storeEdge (d : Desc) (s : State) (slot : EdgeSlot) (v : Nat) (src : EdgeSource) :
    sourceValue d (storeEdge s slot v) src = sourceValue d s src := by
  cases src <;> simp [sourceValue, readSample]

/-- The value of a source, 0 where it has none. -/
def valueOf (d : Desc) (s : State) (src : EdgeSource) : Nat :=
  match sourceValue d s src with
  | .value v => v
  | .outOfRange => 0
  | .notAdmitted => 0

@[simp] theorem valueOf_storeEdge (d : Desc) (s : State) (slot : EdgeSlot) (v : Nat) (src : EdgeSource) :
    valueOf d (storeEdge s slot v) src = valueOf d s src := by
  simp [valueOf]

/-- The source gives a value. -/
def SourceOk (d : Desc) (s : State) (src : EdgeSource) : Prop :=
  sourceValue d s src = .value (valueOf d s src)

theorem sourceOk_storeEdge (d : Desc) (s : State) (slot : EdgeSlot) (v : Nat) (src : EdgeSource) :
    SourceOk d (storeEdge s slot v) src ↔ SourceOk d s src := by
  simp [SourceOk]

theorem sourceOk_of_value {d : Desc} {s : State} {src : EdgeSource} {v : Nat} (h : sourceValue d s src = .value v) :
    SourceOk d s src := by
  simp [SourceOk, valueOf, h]

/-- Store the values of a plan, all of it. -/
def storeAll (d : Desc) (s₀ : State) (plan : List (EdgeSlot × EdgeSource)) (s : State) : State :=
  match plan with
  | [] => s
  | (slot, src) :: rest => storeAll d s₀ rest (storeEdge s slot (valueOf d s₀ src))

theorem storeAll_append (d : Desc) (s₀ : State) (p q : List (EdgeSlot × EdgeSource)) (s : State) :
    storeAll d s₀ (p ++ q) s = storeAll d s₀ q (storeAll d s₀ p s) := by
  induction p generalizing s with
  | nil => rfl
  | cons e rest ih => exact ih _

theorem storeAll_congr {d : Desc} {s₀ s₁ : State} {plan : List (EdgeSlot × EdgeSource)} (s : State)
    (h : ∀ e ∈ plan, valueOf d s₁ e.2 = valueOf d s₀ e.2) : storeAll d s₁ plan s = storeAll d s₀ plan s := by
  induction plan generalizing s with
  | nil => rfl
  | cons e rest ih =>
    obtain ⟨slot, src⟩ := e
    rw [storeAll, storeAll, h (slot, src) (by simp)]
    exact ih _ fun e he => h e (by simp [he])

theorem edgesOnly_storeAll (d : Desc) (s₀ : State) (plan : List (EdgeSlot × EdgeSource)) (s : State) :
    EdgesOnly s (storeAll d s₀ plan s) := by
  induction plan generalizing s with
  | nil => exact .refl s
  | cons e rest ih => exact edgesOnly_storeEdge (ih _)

/-- If every source gives a value, the edges are filled with those values. -/
theorem fillEdges_filled {d : Desc} {s : State} {plan : List (EdgeSlot × EdgeSource)}
    (h : ∀ e ∈ plan, SourceOk d s e.2) : fillEdges d plan s = .filled (storeAll d s plan s) := by
  induction plan generalizing s with
  | nil => rfl
  | cons e rest ih =>
    obtain ⟨slot, src⟩ := e
    have h0 : sourceValue d s src = .value (valueOf d s src) := h (slot, src) (by simp)
    rw [fillEdges, h0]
    simp only
    rw [ih fun e he => (sourceOk_storeEdge d s slot _ e.2).mpr (h e (by simp [he])), storeAll]
    exact congrArg _ (storeAll_congr _ fun e _ => by simp)

/-- The first source that gives no value ends the fill. -/
theorem fillEdges_stop {d : Desc} {s : State} {pre post : List (EdgeSlot × EdgeSource)} {slot : EdgeSlot}
    {src : EdgeSource} (h : ∀ e ∈ pre, SourceOk d s e.2) :
    fillEdges d (pre ++ (slot, src) :: post) s = fillEdges d ((slot, src) :: post) (storeAll d s pre s) := by
  induction pre generalizing s with
  | nil => rfl
  | cons e rest ih =>
    obtain ⟨sl, sr⟩ := e
    have h0 : sourceValue d s sr = .value (valueOf d s sr) := h (sl, sr) (by simp)
    rw [List.cons_append, fillEdges, h0]
    simp only
    rw [ih fun e he => (sourceOk_storeEdge d s sl _ e.2).mpr (h e (by simp [he])), storeAll]
    exact congrArg _ (storeAll_congr _ fun e _ => by simp)

theorem sourceValue_edgesOnly {d : Desc} {s t : State} (h : EdgesOnly s t) (src : EdgeSource) :
    sourceValue d t src = sourceValue d s src := by
  cases src <;> simp [sourceValue, readSample, h.latch, h.mem, h.platform]

/-- How filling the edges ends, in every case. -/
theorem fillEdges_cases (d : Desc) (plan : List (EdgeSlot × EdgeSource)) (s : State) :
    ((∀ e ∈ plan, SourceOk d s e.2) ∧ fillEdges d plan s = .filled (storeAll d s plan s)) ∨
    (∃ pre slot src post, plan = pre ++ (slot, src) :: post ∧ (∀ e ∈ pre, SourceOk d s e.2) ∧
      ((sourceValue d s src = .outOfRange ∧ fillEdges d plan s = .outOfRange (storeAll d s pre s)) ∨
       (sourceValue d s src = .notAdmitted ∧ fillEdges d plan s = .notAdmitted (storeAll d s pre s)))) := by
  by_cases hall : ∀ e ∈ plan, SourceOk d s e.2
  · exact .inl ⟨hall, fillEdges_filled hall⟩
  right
  have key : ∀ plan : List (EdgeSlot × EdgeSource), (¬ ∀ e ∈ plan, SourceOk d s e.2) →
      ∃ pre slot src post, plan = pre ++ (slot, src) :: post ∧ (∀ e ∈ pre, SourceOk d s e.2) ∧ ¬ SourceOk d s src := by
    intro plan hn
    induction plan with
    | nil => simp at hn
    | cons e rest ih =>
      obtain ⟨slot, src⟩ := e
      by_cases h0 : SourceOk d s src
      · obtain ⟨pre, sl, sr, post, rfl, h1, h2⟩ := ih fun h => hn fun e he => by
          rcases List.mem_cons.mp he with rfl | he
          · exact h0
          · exact h e he
        refine ⟨(slot, src) :: pre, sl, sr, post, rfl, fun e he => ?_, h2⟩
        rcases List.mem_cons.mp he with rfl | he
        · exact h0
        · exact h1 e he
      · exact ⟨[], slot, src, rest, rfl, by simp, h0⟩
  obtain ⟨pre, slot, src, post, rfl, h1, h2⟩ := key plan hall
  refine ⟨pre, slot, src, post, rfl, h1, ?_⟩
  have hsv := sourceValue_edgesOnly (d := d) (edgesOnly_storeAll d s pre s) src
  cases hv : sourceValue d s src with
  | value v => exact absurd (sourceOk_of_value hv) h2
  | outOfRange => exact .inl ⟨rfl, by rw [fillEdges_stop h1, fillEdges, hsv, hv]⟩
  | notAdmitted => exact .inr ⟨rfl, by rw [fillEdges_stop h1, fillEdges, hsv, hv]⟩

/-- The destination writes of a command whose edges `storeAll` filled. -/
def writesOf (needs : EdgeNeeds) (p : Predictor) (d : Desc) (s : State) : List (Int × Nat) :=
  let t := storeAll d s (edgePlan needs d s.latch) s
  destWrites d s.latch (p (blockSide d) (depthOf d) (aboveEdge t) (leftEdge t))

/-- Everything `runCommand` can do: a check raises its fault; the first bad read raises code 10 or sticks; a write that is
not admitted sticks; otherwise the command completes. -/
theorem runCommand_cases (needs : EdgeNeeds) (p : Predictor) (d : Desc) (s : State) :
    (∃ k, checkCommand d s.latch = some k ∧ runCommand needs p d s = .next (raiseFault k s)) ∨
    (checkCommand d s.latch = none ∧
      ((∃ pre slot src post, edgePlan needs d s.latch = pre ++ (slot, src) :: post ∧ (∀ e ∈ pre, SourceOk d s e.2) ∧
          ((sourceValue d s src = .outOfRange ∧
              runCommand needs p d s = .next (raiseFault .sampleOutOfRange (storeAll d s pre s))) ∨
           (sourceValue d s src = .notAdmitted ∧ runCommand needs p d s = .next (stallReading (storeAll d s pre s))))) ∨
       ((∀ e ∈ edgePlan needs d s.latch, SourceOk d s e.2) ∧
         (((∀ w ∈ writesOf needs p d s, admitted s.platform w.1 (sampleBytes d) = true) ∧
            runCommand needs p d s = .next (completeCommand (sampleBytes d) (writesOf needs p d s)
              (storeAll d s (edgePlan needs d s.latch) s))) ∨
          ((∃ w ∈ writesOf needs p d s, admitted s.platform w.1 (sampleBytes d) = false) ∧
            runCommand needs p d s = .next (stallWriting (sampleBytes d) (writesOf needs p d s)
              (storeAll d s (edgePlan needs d s.latch) s))))))) := by
  unfold runCommand commandFront
  cases hc : checkCommand d s.latch with
  | some k => exact .inl ⟨k, rfl, rfl⟩
  | none =>
    refine .inr ⟨rfl, ?_⟩
    rcases fillEdges_cases d (edgePlan needs d s.latch) s with
      ⟨hok, hf⟩ | ⟨pre, slot, src, post, hplan, hpre, hstop⟩
    · refine .inr ⟨hok, ?_⟩
      have he := edgesOnly_storeAll d s (edgePlan needs d s.latch) s
      simp only [hf]
      rw [show destWrites d (storeAll d s (edgePlan needs d s.latch) s).latch _ = writesOf needs p d s by
        rw [he.latch]; rfl, he.platform]
      by_cases hw : ∀ w ∈ writesOf needs p d s, admitted s.platform w.1 (sampleBytes d) = true
      · exact .inl ⟨hw, by rw [if_pos (by simpa [List.all_eq_true] using hw)]⟩
      · refine .inr ⟨?_, by rw [if_neg (by simpa [List.all_eq_true] using hw)]⟩
        simpa using hw
    · refine .inl ⟨pre, slot, src, post, hplan, hpre, ?_⟩
      rcases hstop with ⟨hv, hf⟩ | ⟨hv, hf⟩
      · exact .inl ⟨hv, by simp only [hf]⟩
      · exact .inr ⟨hv, by simp only [hf]⟩

/-- A fault that ends the command frees the edge buffers, so what they held does not matter. -/
theorem raiseFault_edgesOnly {k : FaultCode} (hk : k ≠ .startWhileBusy) {s t : State} (h : EdgesOnly s t) :
    raiseFault k t = raiseFault k s := by
  rw [EdgesOnly] at h
  rw [h]
  simp [raiseFault, hk, releaseScratch]

end Sys2Proof.Machine
end

