-- ==== Sys2Proof/Laws/Decode.lean ====
section
/-! SUPPORT. What the decoder can do, said once: the inversion lemma of `decode` in the fields of the word (R66, R67). -/

namespace Sys2Proof

/-- A legal MODE selects a command with the descriptor's fields (R67). -/
theorem instrOfMode_some {mode : Nat} {d : Desc} (h : mode ≤ 9) : ∃ i, instrOfMode mode d = some i ∧ descOf i = d := by
  obtain ⟨t, l, a, r, b, s⟩ := d
  interval_cases mode <;> cases l <;> cases a <;> exact ⟨_, rfl, rfl⟩

/-- The decoder's outcomes, in the order of R66's codes. -/
theorem decode_cases (w : Word) :
    (fieldOf w 12 20 ≠ 0 ∧ decode w = .error .reservedBits) ∨
    (fieldOf w 12 20 = 0 ∧ 9 < fieldOf w 0 4 ∧ decode w = .error .reservedMode) ∨
    (fieldOf w 12 20 = 0 ∧ fieldOf w 0 4 ≤ 9 ∧ fieldOf w 9 2 = 3 ∧ decode w = .error .reservedBd) ∨
    (fieldOf w 12 20 = 0 ∧ fieldOf w 0 4 ≤ 9 ∧ fieldOf w 9 2 ≤ 2 ∧ fieldOf w 9 2 ≠ 0 ∧ bitOf w 11 = false ∧
      decode w = .error .bdStorageMismatch) ∨
    (fieldOf w 12 20 = 0 ∧ fieldOf w 0 4 ≤ 9 ∧ fieldOf w 9 2 ≤ 2 ∧ (fieldOf w 9 2 = 0 ∨ bitOf w 11 = true) ∧
      ∃ i bd, decode w = .ok i ∧ bitDepthOfCode (fieldOf w 9 2) = some bd ∧ storageMatches bd (bitOf w 11) = true ∧
        descOf i = ⟨txSizeOfCode (fieldOf w 4 2), bitOf w 6, bitOf w 7, bitOf w 8, bd, bitOf w 11⟩) := by
  have hlt : fieldOf w 9 2 < 4 := by unfold fieldOf; omega
  have some9 := fun bd => instrOfMode_some (mode := fieldOf w 0 4)
    (d := ⟨txSizeOfCode (fieldOf w 4 2), bitOf w 6, bitOf w 7, bitOf w 8, bd, bitOf w 11⟩)
  unfold decode
  by_cases h1 : fieldOf w 12 20 = 0
  swap
  · exact .inl ⟨h1, by rw [if_pos h1]⟩
  right
  rw [if_neg (by simpa using h1)]
  by_cases h2 : 9 < fieldOf w 0 4
  · exact .inl ⟨h1, h2, by rw [if_pos h2]⟩
  right
  rw [if_neg h2]
  have h9 : fieldOf w 0 4 ≤ 9 := by omega
  obtain ⟨i, hi⟩ := some9 .bits8 h9
  obtain ⟨j, hj⟩ := some9 .bits10 h9
  obtain ⟨k, hk⟩ := some9 .bits12 h9
  generalize fieldOf w 9 2 = b at *
  interval_cases b
  · exact .inr (.inr ⟨h1, h9, by omega, .inl rfl, i, .bits8, by simp [bitDepthOfCode, storageMatches, hi.1], rfl, rfl, hi.2⟩)
  · right
    cases hs : bitOf w 11
    · exact .inl ⟨h1, h9, by omega, by omega, rfl, by simp [bitDepthOfCode, storageMatches]⟩
    · rw [hs] at hj
      exact .inr ⟨h1, h9, by omega, .inr rfl, j, .bits10, by simp [bitDepthOfCode, storageMatches, hj.1], rfl, rfl, hj.2⟩
  · right
    cases hs : bitOf w 11
    · exact .inl ⟨h1, h9, by omega, by omega, rfl, by simp [bitDepthOfCode, storageMatches]⟩
    · rw [hs] at hk
      exact .inr ⟨h1, h9, by omega, .inr rfl, k, .bits12, by simp [bitDepthOfCode, storageMatches, hk.1], rfl, rfl, hk.2⟩
  · exact .inl ⟨h1, h9, rfl, rfl⟩

end Sys2Proof
end

