-- ==== Sys2Proof/Laws/Edges.lean ====
section
/-! SUPPORT. The edge buffers after a fill hold the edges of the frame (R161 to R166), and the destination samples of a command are disjoint. -/

namespace Sys2Proof.Machine

open Sys2Proof.Safety

theorem leftEdge_storeEdge_left (s : State) {i : Nat} (v : Nat) (hi : i < 32) (j : Nat) :
    leftEdge (storeEdge s (.left i) v) j = if j = i then v % 2 ^ 16 else leftEdge s j := by
  unfold leftEdge storeEdge
  simp only [Int.toNat_natCast, Vector.getElem?_setIfInBounds]
  by_cases h : i = j
  · subst h; simp [hi]
  · simp [h, Ne.symm h]

theorem aboveEdge_storeEdge_left (s : State) (i v : Nat) : aboveEdge (storeEdge s (.left i) v) = aboveEdge s := rfl

theorem leftEdge_storeEdge_above (s : State) (i v : Nat) : leftEdge (storeEdge s (.above i) v) = leftEdge s := rfl

theorem leftEdge_storeEdge_corner (s : State) (v : Nat) : leftEdge (storeEdge s .corner v) = leftEdge s := rfl

theorem aboveEdge_storeEdge_corner (s : State) (v : Nat) {j : Int} (hj : -1 ≤ j) :
    aboveEdge (storeEdge s .corner v) j = if j = -1 then v % 2 ^ 16 else aboveEdge s j := by
  unfold aboveEdge storeEdge
  simp only [Vector.getElem?_setIfInBounds]
  by_cases h : j = -1
  · subst h; simp
  · have : 0 ≠ (j + 1).toNat := by omega
    simp [h, this]

theorem aboveEdge_storeEdge_above (s : State) {i : Nat} (v : Nat) (hi : i < 64) {j : Int} (hj : -1 ≤ j) :
    aboveEdge (storeEdge s (.above i) v) j = if j = i then v % 2 ^ 16 else aboveEdge s j := by
  unfold aboveEdge storeEdge
  simp only [Vector.getElem?_setIfInBounds]
  by_cases h : j = i
  · subst h
    have : ((i : Int) + 1).toNat = i + 1 := by omega
    simp [this, show i + 1 < 65 by omega]
  · have : i + 1 ≠ (j + 1).toNat := by omega
    simp [h, this]

section rows
variable (d : Desc) (s₀ : State) (f : Nat → EdgeSource)

/-- A row of left entries. -/
theorem leftEdge_storeAll_left (s : State) {n : Nat} (hn : n ≤ 32) (j : Nat) :
    leftEdge (storeAll d s₀ ((List.range n).map fun i => (.left i, f i)) s) j =
      if j < n then valueOf d s₀ (f j) % 2 ^ 16 else leftEdge s j := by
  induction n with
  | zero => rfl
  | succ n ih =>
    rw [List.range_succ, List.map_append, storeAll_append]
    simp only [List.map_cons, List.map_nil, storeAll]
    rw [leftEdge_storeEdge_left _ _ (by omega), ih (by omega)]
    by_cases h : j = n
    · subst h; simp
    · by_cases h2 : j < n
      · simp [h, h2, Nat.lt_succ_of_lt h2]
      · simp [h, h2, show ¬ j < n + 1 by omega]

theorem aboveEdge_storeAll_left (s : State) (n : Nat) :
    aboveEdge (storeAll d s₀ ((List.range n).map fun i => (.left i, f i)) s) = aboveEdge s := by
  induction n with
  | zero => rfl
  | succ n ih =>
    rw [List.range_succ, List.map_append, storeAll_append]
    simpa only [List.map_cons, List.map_nil, storeAll, aboveEdge_storeEdge_left] using ih

theorem leftEdge_storeAll_above (s : State) (n : Nat) :
    leftEdge (storeAll d s₀ ((List.range n).map fun i => (.above i, f i)) s) = leftEdge s := by
  induction n with
  | zero => rfl
  | succ n ih =>
    rw [List.range_succ, List.map_append, storeAll_append]
    simpa only [List.map_cons, List.map_nil, storeAll, leftEdge_storeEdge_above] using ih

/-- A row of above entries. -/
theorem aboveEdge_storeAll_above (s : State) {n : Nat} (hn : n ≤ 64) {j : Int} (hj : -1 ≤ j) :
    aboveEdge (storeAll d s₀ ((List.range n).map fun i => (.above i, f i)) s) j =
      if 0 ≤ j ∧ j < n then valueOf d s₀ (f j.toNat) % 2 ^ 16 else aboveEdge s j := by
  induction n with
  | zero => rw [if_neg (by omega)]; rfl
  | succ n ih =>
    rw [List.range_succ, List.map_append, storeAll_append]
    simp only [List.map_cons, List.map_nil, storeAll]
    rw [aboveEdge_storeEdge_above _ _ (by omega) hj, ih (by omega)]
    by_cases h : j = n
    · subst h; simp
    · by_cases h2 : 0 ≤ j ∧ j < n
      · have : 0 ≤ j ∧ j < ((n + 1 : Nat) : Int) := by omega
        simp only [h, h2, this, if_false, and_self, if_true]
      · have : ¬ (0 ≤ j ∧ j < ((n + 1 : Nat) : Int)) := by omega
        simp only [h, h2, this, if_false]

end rows

theorem blockSide_le (d : Desc) : blockSide d ≤ 32 := by
  unfold blockSide; split <;> omega

theorem blockSide_ge (d : Desc) : 4 ≤ blockSide d := by
  unfold blockSide; split <;> omega

theorem depthOf_le (d : Desc) : depthOf d ≤ 12 := by
  unfold depthOf; split <;> omega

theorem maxSample_le (d : Desc) : maxSample (depthOf d) ≤ 4095 := by
  unfold depthOf maxSample; split <;> omega

theorem baseValue_le (d : Desc) : baseValue (depthOf d) ≤ 2048 := by
  unfold depthOf baseValue; split <;> omega

theorem sampleBytes_pos (d : Desc) : 1 ≤ sampleBytes d := by
  unfold sampleBytes; split <;> omega

/-- A read that is admitted and in range gives the sample in memory. -/
theorem readSample_of_readOk {d : Desc} {s : State} {dr dc : Int} (h : ReadOk d s dr dc) :
    readSample d s dr dc = .value (sampleIn s.mem d s.latch dr dc) := by
  obtain ⟨h1, h2⟩ := h
  unfold sampleIn at h2 ⊢
  simp [readSample, h1, Nat.not_lt.mpr h2]

/-- A read that gives a value is admitted and in range. -/
theorem readOk_of_readSample {d : Desc} {s : State} {dr dc : Int} {v : Nat} (h : readSample d s dr dc = .value v) :
    ReadOk d s dr dc := by
  unfold readSample at h
  by_cases h1 : admitted s.platform (saddr d s.latch dr dc) (sampleBytes d)
  · refine ⟨h1, ?_⟩
    by_cases h2 : maxSample (depthOf d) < readBytes s.mem (saddr d s.latch dr dc).toNat (sampleBytes d)
    · simp [h1, h2] at h
    · exact Nat.le_of_not_lt h2
  · simp [h1] at h

theorem sourceOk_const (d : Desc) (s : State) (v : Nat) : SourceOk d s (.const v) := rfl

theorem sourceOk_sample {d : Desc} {s : State} {dr dc : Int} :
    SourceOk d s (.sample dr dc) ↔ ReadOk d s dr dc :=
  ⟨fun h => readOk_of_readSample h, fun h => sourceOk_of_value (readSample_of_readOk h)⟩

theorem readsOk_iff {needs : EdgeNeeds} {d : Desc} {s : State} :
    ReadsOk needs d s ↔ ∀ e ∈ edgePlan needs d s.latch, SourceOk d s e.2 := by
  constructor
  · rintro h ⟨slot, src⟩ he
    cases src with
    | const v => rfl
    | sample dr dc => exact sourceOk_sample.mpr (h slot dr dc he)
  · exact fun h slot dr dc he => sourceOk_sample.mp (h _ he)

theorem valueOf_sample {d : Desc} {s : State} {dr dc : Int} (h : SourceOk d s (.sample dr dc)) :
    valueOf d s (.sample dr dc) = sampleIn s.mem d s.latch dr dc := by
  simp only [valueOf, sourceValue, readSample_of_readOk (sourceOk_sample.mp h)]

/-- Every value stored fits its 16-bit entry. -/
theorem valueOf_lt {d : Desc} {s : State} {src : EdgeSource} (h : SourceOk d s src)
    (hc : ∀ v, src = .const v → v ≤ 2049) : valueOf d s src < 2 ^ 16 := by
  cases src with
  | const v => have := hc v rfl; simp only [valueOf, sourceValue]; omega
  | sample dr dc =>
    rw [valueOf_sample h]
    have := (sourceOk_sample.mp h).2
    have := maxSample_le d
    omega

theorem leftSource_const {d : Desc} {g : OperandRegs} {i v : Nat} (h : leftSource d g i = .const v) : v ≤ 2049 := by
  have := baseValue_le d
  unfold leftSource at h
  split at h
  · cases h
  · cases h; omega

theorem aboveSource_const {d : Desc} {g : OperandRegs} {i v : Nat} (h : aboveSource d g i = .const v) : v ≤ 2049 := by
  have := baseValue_le d
  unfold aboveSource at h
  split at h
  · cases h
  · cases h; omega

theorem cornerSource_const {d : Desc} {v : Nat} (h : cornerSource d = .const v) : v ≤ 2049 := by
  have := baseValue_le d
  unfold cornerSource at h
  split at h
  · split at h
    · cases h
    · cases h; omega
  · cases h; omega

theorem aboveLimit_eq (d : Desc) : (aboveLimit d : Int) = limOf d := by
  have := blockSide_ge d
  unfold aboveLimit limOf
  split <;> omega

theorem valueOf_leftSource {d : Desc} {s : State} {i : Nat} (h : SourceOk d s (leftSource d s.latch i)) :
    valueOf d s (leftSource d s.latch i) = frameLeft s.mem d s.latch i := by
  unfold leftSource at h ⊢
  unfold frameLeft
  split at h
  · next hl =>
    rw [if_pos hl, if_pos hl, valueOf_sample h]
    split
    · rw [min_eq_left (by omega)]
    · rw [min_eq_right (by omega)]
  · next hl => rw [if_neg hl, if_neg hl]; rfl

theorem valueOf_aboveSource {d : Desc} {s : State} {i : Nat} (h : SourceOk d s (aboveSource d s.latch i)) :
    valueOf d s (aboveSource d s.latch i) = frameAbove s.mem d s.latch i := by
  unfold aboveSource at h ⊢
  unfold frameAbove
  rw [if_neg (show ¬ ((i : Int) = -1) by omega)]
  split at h
  · next hl =>
    rw [if_pos hl, if_pos hl, valueOf_sample h, aboveLimit_eq]
    split
    · rw [min_eq_left (by omega)]
    · rw [min_eq_right (by omega)]
  · next hl => rw [if_neg hl, if_neg hl]; rfl

theorem valueOf_cornerSource {d : Desc} {s : State} (h : SourceOk d s (cornerSource d)) :
    valueOf d s (cornerSource d) = frameAbove s.mem d s.latch (-1) := by
  unfold cornerSource at h ⊢
  unfold frameAbove
  rw [if_pos rfl]
  split at h
  · next ha =>
    rw [if_pos ha, if_pos ha]
    split at h
    · next hl => rw [if_pos hl, if_pos hl, valueOf_sample h]
    · next hl => rw [if_neg hl, if_neg hl]; rfl
  · next ha => rw [if_neg ha, if_neg ha]; rfl

/-- After the fill, LEFT holds the frame's left column (R165). -/
theorem leftEdge_fill {needs : EdgeNeeds} {d : Desc} {s : State} (h : ReadsOk needs d s) (hn : needs.left = true)
    {i : Nat} (hi : i < blockSide d) :
    leftEdge (storeAll d s (edgePlan needs d s.latch) s) i = frameLeft s.mem d s.latch i := by
  rw [readsOk_iff] at h
  have hok : SourceOk d s (leftSource d s.latch i) :=
    h (.left i, leftSource d s.latch i) (by simp [edgePlan, hn, hi])
  have hlt := valueOf_lt hok fun v => leftSource_const
  have hrow := leftEdge_storeAll_left d s (fun i => leftSource d s.latch i) s (blockSide_le d) i
  rw [if_pos hi, Nat.mod_eq_of_lt hlt, valueOf_leftSource hok] at hrow
  rw [edgePlan, if_pos hn, storeAll_append]
  split
  · exact hrow
  · rw [storeAll, leftEdge_storeAll_above, leftEdge_storeEdge_corner]
    exact hrow

/-- After the fill, ABOVE holds the frame's above edge (R162, R163, R164, R166). -/
theorem aboveEdge_fill {needs : EdgeNeeds} {d : Desc} {s : State} (h : ReadsOk needs d s) (hn : needs.above ≠ .nothing)
    {i : Int} (h0 : -1 ≤ i) (hi : i < aboveCount needs.above (blockSide d)) :
    aboveEdge (storeAll d s (edgePlan needs d s.latch) s) i = frameAbove s.mem d s.latch i := by
  rw [readsOk_iff] at h
  have hM : aboveCount needs.above (blockSide d) ≤ 64 := by
    have := blockSide_le d
    unfold aboveCount; split <;> omega
  rw [edgePlan, if_neg hn, storeAll_append, storeAll, aboveEdge_storeAll_above _ _ _ _ hM h0]
  split
  · next hr =>
    obtain ⟨k, rfl⟩ := Int.eq_ofNat_of_zero_le hr.1
    have hok : SourceOk d s (aboveSource d s.latch k) :=
      h (.above k, aboveSource d s.latch k) (by
        have : k < aboveCount needs.above (blockSide d) := by omega
        simp [edgePlan, hn, this])
    rw [Int.toNat_natCast, Nat.mod_eq_of_lt (valueOf_lt hok fun v => aboveSource_const), valueOf_aboveSource hok]
  · next hr =>
    obtain rfl : i = -1 := by omega
    have hok : SourceOk d s (cornerSource d) := h (.corner, cornerSource d) (by simp [edgePlan, hn])
    rw [aboveEdge_storeEdge_corner _ _ (by omega), if_pos rfl,
      Nat.mod_eq_of_lt (valueOf_lt hok fun v => cornerSource_const), valueOf_cornerSource hok]

/-! The destination samples. -/

theorem mem_destWrites {d : Desc} {g : OperandRegs} {pred : Nat → Nat → Nat} {w : Int × Nat} :
    w ∈ destWrites d g pred ↔ ∃ r c, r < blockSide d ∧ c < blockSide d ∧ w = (saddr d g r c, pred r c) := by
  simp only [destWrites, List.mem_flatMap, List.mem_range, List.mem_map]
  constructor
  · rintro ⟨r, hr, c, hc, rfl⟩; exact ⟨r, c, hr, hc, rfl⟩
  · rintro ⟨r, c, hr, hc, rfl⟩; exact ⟨r, hr, c, hc, rfl⟩

/-- What a command that CheckCommand passes satisfies (R201). -/
theorem of_checkCommand {d : Desc} {g : OperandRegs} (h : checkCommand d g = none) :
    storageMatches d.bitDepth d.sample16 = true ∧ (d.sample16 = true → dstOf g % 2 = 0) ∧
      blockSide d ≤ g.stride.toNat ∧ g.x0.toNat < g.frameW.toNat ∧ g.y0.toNat < g.frameH.toNat ∧
      (d.haveAbove = true → 0 < g.y0.toNat) ∧ (d.haveLeft = true → 0 < g.x0.toNat) := by
  unfold checkCommand at h
  split_ifs at h with h1 h2 h3 h4 h5
  refine ⟨by simpa using h1, fun hs => ?_, by omega, by omega, by omega, fun ha => ?_, fun hl => ?_⟩
  · by_contra hc; exact h2 ⟨hs, by omega⟩
  · by_contra hc; exact h5 (.inl ⟨ha, by omega⟩)
  · by_contra hc; exact h5 (.inr ⟨hl, by omega⟩)

theorem stride_of_check {d : Desc} {g : OperandRegs} (h : checkCommand d g = none) : blockSide d ≤ g.stride.toNat :=
  (of_checkCommand h).2.2.1

/-- Every read of a command: a left sample, the corner, or an above sample (R161). -/
theorem mem_edgePlan_sample {needs : EdgeNeeds} {d : Desc} {g : OperandRegs} {slot : EdgeSlot} {dr dc : Int}
    (h : (slot, EdgeSource.sample dr dc) ∈ edgePlan needs d g) :
    (d.haveLeft = true ∧ dc = -1 ∧
      ∃ i : Nat, i < blockSide d ∧ dr = min (i : Int) ((g.frameH.toNat : Int) - 1 - g.y0.toNat)) ∨
    (d.haveAbove = true ∧ d.haveLeft = true ∧ dr = -1 ∧ dc = -1) ∨
    (d.haveAbove = true ∧ dr = -1 ∧
      ∃ i : Nat, i < aboveCount needs.above (blockSide d) ∧
        dc = min (min (i : Int) (aboveLimit d)) ((g.frameW.toNat : Int) - 1 - g.x0.toNat)) := by
  unfold edgePlan at h
  rcases List.mem_append.mp h with h | h
  · split at h
    · simp only [List.mem_map, List.mem_range, Prod.mk.injEq] at h
      obtain ⟨i, hi, -, h⟩ := h
      unfold leftSource at h
      split at h
      · next hl => cases h; exact .inl ⟨hl, rfl, i, hi, rfl⟩
      · cases h
    · simp at h
  · right
    split at h
    · simp at h
    · rcases List.mem_cons.mp h with h | h
      · injection h with h1 h2
        unfold cornerSource at h2
        split at h2
        · split at h2
          · cases h2; exact .inl ⟨‹_›, ‹_›, rfl, rfl⟩
          · cases h2
        · cases h2
      · simp only [List.mem_map, List.mem_range, Prod.mk.injEq] at h
        obtain ⟨i, hi, -, h⟩ := h
        unfold aboveSource at h
        split at h
        · next ha => cases h; exact .inr ⟨ha, rfl, i, hi, rfl⟩
        · cases h

/-- Two destination samples with a smaller place in row-major order come first in memory (R43, STRIDE ≥ N). -/
theorem saddr_lt {d : Desc} {g : OperandRegs} (hst : blockSide d ≤ g.stride.toNat) {r c r' c' : Nat}
    (hc : c < blockSide d) (h : r < r' ∨ (r = r' ∧ c < c')) :
    saddr d g r c + sampleBytes d ≤ saddr d g r' c' := by
  unfold saddr
  have hS := sampleBytes_pos d
  have key : (r : Int) * g.stride.toNat + c + 1 ≤ (r' : Int) * g.stride.toNat + c' := by
    rcases h with h | ⟨rfl, h⟩
    · have : ((r : Int) + 1) * g.stride.toNat ≤ (r' : Int) * g.stride.toNat :=
        Int.mul_le_mul_of_nonneg_right (by omega) (by omega)
      rw [Int.add_mul, Int.one_mul] at this
      omega
    · omega
  have := Int.mul_le_mul_of_nonneg_right key (show (0 : Int) ≤ sampleBytes d by omega)
  rw [Int.add_mul _ 1, Int.one_mul] at this
  omega

theorem saddr_nonneg_of_admitted {p : Platform} {a : Int} {n : Nat} (h : admitted p a n = true) : 0 ≤ a := by
  simp only [admitted, Bool.and_eq_true, decide_eq_true_eq] at h
  exact h.1.1

theorem bound_of_admitted {p : Platform} {a : Int} {n : Nat} (h : admitted p a n = true) : a + n ≤ 2 ^ p.addrW := by
  simp only [admitted, Bool.and_eq_true, decide_eq_true_eq] at h
  exact h.1.2

theorem pairwise_range_lt (n : Nat) : (List.range n).Pairwise (· < ·) := List.pairwise_lt_range

/-- The destination writes go to rising, disjoint places. -/
theorem destWrites_rising {d : Desc} {g : OperandRegs} (hst : blockSide d ≤ g.stride.toNat) (pred : Nat → Nat → Nat) :
    (destWrites d g pred).Pairwise fun x y => x.1 + (sampleBytes d : Int) ≤ y.1 := by
  unfold destWrites
  rw [List.pairwise_flatMap]
  refine ⟨fun r hr => ?_, ?_⟩
  · rw [List.pairwise_map]
    exact (pairwise_range_lt _).imp_of_mem fun {a b} ha hb hab =>
      saddr_lt hst (List.mem_range.mp ha) (.inr ⟨rfl, hab⟩)
  · refine (pairwise_range_lt _).imp fun {a b} hab x hx y hy => ?_
    simp only [List.mem_map, List.mem_range] at hx hy
    obtain ⟨c, hc, rfl⟩ := hx
    obtain ⟨c', hc', rfl⟩ := hy
    exact saddr_lt hst hc (.inl hab)

/-- The destination samples are disjoint byte ranges. -/
theorem destWrites_disjoint {d : Desc} {g : OperandRegs} (hst : blockSide d ≤ g.stride.toNat) (pred : Nat → Nat → Nat)
    (hpos : ∀ w ∈ destWrites d g pred, 0 ≤ w.1) :
    (destWrites d g pred).Pairwise fun x y =>
      x.1.toNat + sampleBytes d ≤ y.1.toNat ∨ y.1.toNat + sampleBytes d ≤ x.1.toNat := by
  refine (destWrites_rising hst pred).imp_of_mem fun {a b} ha hb hab => .inl ?_
  have := hpos a ha
  have := hpos b hb
  omega

end Sys2Proof.Machine
end

