-- ==== Sys2Proof/Laws/PerInstr.lean ====
section
/-! SUPPORT. The family EncodedBits: a statement about each constructor as it is encoded. Its word lies in its row of opcode_table.json (R73), its reserved bits are 0 (R60), and its TXSZ field is its size's code (R63). -/

namespace Sys2Proof.Laws.EncodedBits

/-- The word of `i` matches its row of the opcode table, has no reserved bit set, and carries its size. -/
def Statement (i : Instr) : Prop :=
  encode i &&& tableMask (kindOf i) = tableMatch (kindOf i) ∧
  fieldOf (encode i) 12 20 = 0 ∧
  fieldOf (encode i) 4 2 = txSizeCode (descOf i).txSize

theorem of_desc {f : Desc → Instr} (h : ∀ (t : TxSize) (l a r : Bool) (b : BitDepth) (s : Bool), Statement (f ⟨t, l, a, r, b, s⟩))
    (d : Desc) : Statement (f d) := by
  obtain ⟨t, l, a, r, b, s⟩ := d
  exact h t l a r b s

theorem of_dcDesc {f : DcDesc → Instr} (h : ∀ (t : TxSize) (r : Bool) (b : BitDepth) (s : Bool), Statement (f ⟨t, r, b, s⟩))
    (d : DcDesc) : Statement (f d) := by
  obtain ⟨t, r, b, s⟩ := d
  exact h t r b s

theorem v (d : Desc) : Statement (.v d) :=
  of_desc (fun t l a r b s => by
    cases t <;> cases l <;> cases a <;> cases r <;> cases b <;> cases s <;> exact ⟨rfl, rfl, rfl⟩) d

theorem h (d : Desc) : Statement (.h d) :=
  of_desc (fun t l a r b s => by
    cases t <;> cases l <;> cases a <;> cases r <;> cases b <;> cases s <;> exact ⟨rfl, rfl, rfl⟩) d

theorem d45 (d : Desc) : Statement (.d45 d) :=
  of_desc (fun t l a r b s => by
    cases t <;> cases l <;> cases a <;> cases r <;> cases b <;> cases s <;> exact ⟨rfl, rfl, rfl⟩) d

theorem d135 (d : Desc) : Statement (.d135 d) :=
  of_desc (fun t l a r b s => by
    cases t <;> cases l <;> cases a <;> cases r <;> cases b <;> cases s <;> exact ⟨rfl, rfl, rfl⟩) d

theorem d117 (d : Desc) : Statement (.d117 d) :=
  of_desc (fun t l a r b s => by
    cases t <;> cases l <;> cases a <;> cases r <;> cases b <;> cases s <;> exact ⟨rfl, rfl, rfl⟩) d

theorem d153 (d : Desc) : Statement (.d153 d) :=
  of_desc (fun t l a r b s => by
    cases t <;> cases l <;> cases a <;> cases r <;> cases b <;> cases s <;> exact ⟨rfl, rfl, rfl⟩) d

theorem d207 (d : Desc) : Statement (.d207 d) :=
  of_desc (fun t l a r b s => by
    cases t <;> cases l <;> cases a <;> cases r <;> cases b <;> cases s <;> exact ⟨rfl, rfl, rfl⟩) d

theorem d63 (d : Desc) : Statement (.d63 d) :=
  of_desc (fun t l a r b s => by
    cases t <;> cases l <;> cases a <;> cases r <;> cases b <;> cases s <;> exact ⟨rfl, rfl, rfl⟩) d

theorem tm (d : Desc) : Statement (.tm d) :=
  of_desc (fun t l a r b s => by
    cases t <;> cases l <;> cases a <;> cases r <;> cases b <;> cases s <;> exact ⟨rfl, rfl, rfl⟩) d

theorem dcBoth (d : DcDesc) : Statement (.dcBoth d) :=
  of_dcDesc (fun t r b s => by cases t <;> cases r <;> cases b <;> cases s <;> exact ⟨rfl, rfl, rfl⟩) d

theorem dcLeft (d : DcDesc) : Statement (.dcLeft d) :=
  of_dcDesc (fun t r b s => by cases t <;> cases r <;> cases b <;> cases s <;> exact ⟨rfl, rfl, rfl⟩) d

theorem dcTop (d : DcDesc) : Statement (.dcTop d) :=
  of_dcDesc (fun t r b s => by cases t <;> cases r <;> cases b <;> cases s <;> exact ⟨rfl, rfl, rfl⟩) d

theorem dc128 (d : DcDesc) : Statement (.dc128 d) :=
  of_dcDesc (fun t r b s => by cases t <;> cases r <;> cases b <;> cases s <;> exact ⟨rfl, rfl, rfl⟩) d

end Sys2Proof.Laws.EncodedBits
end

