-- ==== Sys2Proof/Laws/Run.lean ====
section
/-! SUPPORT. Running a command: every meaning is the shared command with its kind's needs and rule; what a command that runs normally leaves; what every command leaves unchanged; and the range of the frame's edges. -/

namespace Sys2Proof.Machine

open Sys2Proof.Safety

/-- Every meaning is the shared command at its kind's edge needs and mode rule. -/
theorem exec_eq_runCommand (i : Instr) (s : State) :
    exec i s = runCommand (needsOf (kindOf i)) (predictorOf (kindOf i)) (descOf i) s := by
  cases i <;> rfl

theorem kindOf_instrOfKind (k : Kind) (d : Desc) : kindOf (instrOfKind k d) = k := by
  cases k <;> rfl

/-- A sample's value modulo its storage: what memory holds of `pred`. -/
theorem sampleIn_writeSamples {d : Desc} {g : OperandRegs} {m : Memory} (hm : m.wf) (hst : blockSide d ≤ g.stride.toNat)
    {pred : Nat → Nat → Nat} (hpos : ∀ w ∈ destWrites d g pred, 0 ≤ w.1) {r c : Nat} (hr : r < blockSide d)
    (hc : c < blockSide d) :
    sampleIn (writeSamples (sampleBytes d) (destWrites d g pred) m) d g r c = pred r c % 256 ^ sampleBytes d :=
  readBytes_writeSamples hm (destWrites_disjoint hst pred hpos) (mem_destWrites.mpr ⟨r, c, hr, hc, rfl⟩)

/-- Of partial writes to rising places, each admitted place holds the new or the old value (I11). -/
theorem readBytes_writeSome_rising {p : Platform} {use n : Nat} {ws : List (Int × Nat)}
    (hd : ws.Pairwise fun x y => x.1 + (n : Int) ≤ y.1) {w : Int × Nat} (hw : w ∈ ws) (h0 : 0 ≤ w.1) {k : Nat}
    {m : Memory} (hm : m.wf) :
    readBytes (writeSomeSamples p use k n ws m) w.1.toNat n = readBytes m w.1.toNat n ∨
      readBytes (writeSomeSamples p use k n ws m) w.1.toNat n = w.2 % 256 ^ n := by
  induction ws generalizing m k with
  | nil => simp at hw
  | cons x rest ih =>
    obtain ⟨hx, hr⟩ := List.pairwise_cons.mp hd
    rcases List.mem_cons.mp hw with rfl | hw
    · have hrest : ∀ m', readBytes (writeSomeSamples p use (k + 1) n rest m') w.1.toNat n = readBytes m' w.1.toNat n :=
        fun m' => readBytes_congr fun b h1 h2 => readByte_writeSomeSamples_outside _ fun y hy _ => by
          have := hx y hy
          omega
      rw [writeSomeSamples, hrest]
      split
      · exact .inr (readBytes_writeBytes_same hm _ _ _)
      · exact .inl rfl
    · rw [writeSomeSamples]
      split
      · next ha =>
        simp only [Bool.and_eq_true] at ha
        have hx0 := saddr_nonneg_of_admitted ha.1
        refine (ih hr hw (writeBytes_wf hm _ _ _)).imp (fun h => h.trans ?_) id
        refine readBytes_writeBytes_outside _ _ _ _ ?_
        have := hx w hw
        omega
      · exact ih hr hw hm

/-- The destination samples after some of the writes: each admitted one is old or new (I11). -/
theorem sampleIn_writeSomeSamples {d : Desc} {g : OperandRegs} {m : Memory} (hm : m.wf)
    (hst : blockSide d ≤ g.stride.toNat) (p : Platform) (use k : Nat) {pred : Nat → Nat → Nat} {r c : Nat}
    (hr : r < blockSide d) (hc : c < blockSide d) (ha : admitted p (saddr d g r c) (sampleBytes d) = true) :
    sampleIn (writeSomeSamples p use k (sampleBytes d) (destWrites d g pred) m) d g r c = sampleIn m d g r c ∨
      sampleIn (writeSomeSamples p use k (sampleBytes d) (destWrites d g pred) m) d g r c =
        pred r c % 256 ^ sampleBytes d :=
  readBytes_writeSome_rising (destWrites_rising hst pred) (mem_destWrites.mpr ⟨r, c, hr, hc, rfl⟩)
    (saddr_nonneg_of_admitted ha) hm

/-- Of partial writes to rising places, a place that is not admitted keeps its bytes. -/
theorem readBytes_writeSome_unadmitted {p : Platform} {use n : Nat} {ws : List (Int × Nat)}
    (hd : ws.Pairwise fun x y => x.1 + (n : Int) ≤ y.1) {w : Int × Nat} (hw : w ∈ ws) (h0 : 0 ≤ w.1) {k : Nat}
    {m : Memory} (ha : admitted p w.1 n = false) :
    readBytes (writeSomeSamples p use k n ws m) w.1.toNat n = readBytes m w.1.toNat n := by
  refine readBytes_congr fun b h1 h2 => readByte_writeSomeSamples_outside _ fun y hy hadm => ?_
  have hy0 := saddr_nonneg_of_admitted hadm
  rcases eq_or_ne y w with rfl | hne
  · rw [ha] at hadm; cases hadm
  · have hsym : Std.Symm fun x y : Int × Nat => x.1 + (n : Int) ≤ y.1 ∨ y.1 + (n : Int) ≤ x.1 := ⟨fun _ _ h => h.symm⟩
    have := (hd.imp fun h => Or.inl h : ws.Pairwise fun x y : Int × Nat =>
      x.1 + (n : Int) ≤ y.1 ∨ y.1 + (n : Int) ≤ x.1).forall hy hw hne
    omega

/-- The address of a destination sample is no negative number: R43 adds naturals to DST. -/
theorem saddr_natCast_nonneg (d : Desc) (g : OperandRegs) (r c : Nat) : 0 ≤ saddr d g r c := by
  unfold saddr
  positivity

/-- The destination samples after some of the writes: each one that is not admitted is as before. -/
theorem sampleIn_writeSomeSamples_unadmitted {d : Desc} {g : OperandRegs} {m : Memory}
    (hst : blockSide d ≤ g.stride.toNat) (p : Platform) (use k : Nat) (pred : Nat → Nat → Nat) {r c : Nat}
    (hr : r < blockSide d) (hc : c < blockSide d) (ha : admitted p (saddr d g r c) (sampleBytes d) = false) :
    sampleIn (writeSomeSamples p use k (sampleBytes d) (destWrites d g pred) m) d g r c = sampleIn m d g r c :=
  readBytes_writeSome_unadmitted (destWrites_rising hst pred) (mem_destWrites.mpr ⟨r, c, hr, hc, rfl⟩)
    (saddr_natCast_nonneg d g r c) ha

/-- A byte outside the block belongs to no destination write. -/
theorem outside_destWrites {d : Desc} {g : OperandRegs} {a : Nat} (h : OutsideBlock d g a) {pred : Nat → Nat → Nat}
    {w : Int × Nat} (hw : w ∈ destWrites d g pred) (hpos : 0 ≤ w.1) :
    a < w.1.toNat ∨ w.1.toNat + sampleBytes d ≤ a := by
  obtain ⟨r, c, hr, hc, rfl⟩ := mem_destWrites.mp hw
  have := h r c hr hc
  simp only at hpos ⊢
  omega

theorem writesOk_iff {d : Desc} {s : State} (pred : Nat → Nat → Nat) :
    WritesOk d s ↔ ∀ w ∈ destWrites d s.latch pred, admitted s.platform w.1 (sampleBytes d) = true := by
  constructor
  · intro h w hw
    obtain ⟨r, c, hr, hc, rfl⟩ := mem_destWrites.mp hw
    exact h r c hr hc
  · exact fun h r c hr hc => h _ (mem_destWrites.mpr ⟨r, c, hr, hc, rfl⟩)

/-- The state a fill leaves, when every source gives a value. -/
def filledState (k : Kind) (d : Desc) (s : State) : State :=
  storeAll d s (edgePlan (needsOf k) d s.latch) s

/-- A command that runs normally completes and writes its rule's samples, modulo their storage. -/
theorem runCommand_of_runs {k : Kind} {d : Desc} {s : State} (p : Predictor) (hm : s.mem.wf) (h : Runs k d s) :
    ∃ t, runCommand (needsOf k) p d s = .next t ∧
      Wrote d s t fun r c =>
        p (blockSide d) (depthOf d) (aboveEdge (filledState k d s)) (leftEdge (filledState k d s)) r c
          % 256 ^ sampleBytes d := by
  have hst := stride_of_check h.check
  have hE := edgesOnly_storeAll d s (edgePlan (needsOf k) d s.latch) s
  have hW := (writesOk_iff (p (blockSide d) (depthOf d) (aboveEdge (filledState k d s)) (leftEdge (filledState k d s)))).mp
    h.writes
  have hpos := fun w hw => saddr_nonneg_of_admitted (hW w hw)
  rcases runCommand_cases (needsOf k) p d s with
    ⟨f, hf, -⟩ | ⟨-, ⟨pre, slot, src, post, hplan, -, hbad⟩ | ⟨-, ⟨-, hrun⟩ | ⟨⟨w, hw, hbad⟩, -⟩⟩⟩
  · rw [h.check] at hf; cases hf
  · exfalso
    have hok := readsOk_iff.mp h.reads (slot, src) (by simp [hplan])
    simp only [SourceOk] at hok
    rcases hbad with ⟨hv, -⟩ | ⟨hv, -⟩ <;> rw [hv] at hok <;> cases hok
  · refine ⟨_, hrun, ?_, ?_, ?_, fun r c hr hc => ?_, fun a ha => ?_⟩
    · rw [completeCommand_status, hE.status]
    · rw [completeCommand_stuck, hE.stuck]
    · exact ⟨by rw [completeCommand_regs, hE.regs], by rw [completeCommand_platform, hE.platform],
        by rw [completeCommand_inputs, hE.inputs], by rw [completeCommand_replies, hE.replies]⟩
    · rw [completeCommand_mem, hE.mem]
      exact sampleIn_writeSamples hm hst hpos hr hc
    · rw [completeCommand_mem, hE.mem]
      exact readByte_writeSamples_outside _ fun w hw => outside_destWrites ha hw (hpos w hw)
  · rw [show admitted s.platform w.1 (sampleBytes d) = true from hW w hw] at hbad
    cases hbad

/-- What every command leaves unchanged, whichever way it ends. -/
theorem runCommand_frame {needs : EdgeNeeds} {p : Predictor} {d : Desc} {s t : State}
    (h : runCommand needs p d s = .next t) :
    SameOutside s t ∧ (∀ a, OutsideBlock d s.latch a → readByte t.mem a = readByte s.mem a) := by
  have hE := edgesOnly_storeAll d s
  rcases runCommand_cases needs p d s with
    ⟨f, -, hr⟩ | ⟨-, ⟨pre, slot, src, post, -, -, ⟨-, hr⟩ | ⟨-, hr⟩⟩ | ⟨-, ⟨hw, hr⟩ | ⟨-, hr⟩⟩⟩
  all_goals
    rw [h] at hr
    injection hr with hr
    subst hr
  · exact ⟨⟨by simp, by simp, by simp, by simp⟩, by simp⟩
  · exact ⟨⟨by simp [(hE _ _).regs], by simp [(hE _ _).platform], by simp [(hE _ _).inputs], by simp [(hE _ _).replies]⟩,
      by simp [(hE _ _).mem]⟩
  · exact ⟨⟨by simp [(hE _ _).regs], by simp [(hE _ _).platform], by simp [(hE _ _).inputs], by simp [(hE _ _).replies]⟩,
      by simp [(hE _ _).mem]⟩
  · refine ⟨⟨by simp [(hE _ _).regs], by simp [(hE _ _).platform], by simp [(hE _ _).inputs],
      by simp [(hE _ _).replies]⟩, fun a ha => ?_⟩
    rw [completeCommand_mem, (hE _ _).mem]
    exact readByte_writeSamples_outside _ fun w hx => outside_destWrites ha hx (saddr_nonneg_of_admitted (hw w hx))
  · refine ⟨⟨by simp [(hE _ _).regs], by simp [(hE _ _).platform], by simp [(hE _ _).inputs],
      by simp [(hE _ _).replies]⟩, fun a ha => ?_⟩
    rw [stallWriting_mem, (hE _ _).mem]
    exact readByte_writeSomeSamples_outside _ fun w hx hadm => outside_destWrites ha hx (saddr_nonneg_of_admitted hadm)

/-! The range of the frame's edges. -/

theorem baseValue_range (d : Desc) :
    baseValue (depthOf d) + 1 ≤ maxSample (depthOf d) ∧ baseValue (depthOf d) - 1 ≤ maxSample (depthOf d) := by
  unfold depthOf; split <;> decide

/-- The left column's samples are in range when the reads are good. -/
theorem frameLeft_le {needs : EdgeNeeds} {d : Desc} {s : State} (h : ReadsOk needs d s) (hn : needs.left = true)
    {i : Nat} (hi : i < blockSide d) : frameLeft s.mem d s.latch i ≤ maxSample (depthOf d) := by
  have hok : SourceOk d s (leftSource d s.latch i) :=
    readsOk_iff.mp h (.left i, leftSource d s.latch i) (by simp [edgePlan, hn, hi])
  rw [← valueOf_leftSource hok]
  unfold leftSource at hok ⊢
  split at hok
  · next hl => rw [if_pos hl, valueOf_sample hok]; exact (sourceOk_sample.mp hok).2
  · next hl => rw [if_neg hl]; exact (baseValue_range d).1

/-- The above edge's samples are in range when the reads are good. -/
theorem frameAbove_le {needs : EdgeNeeds} {d : Desc} {s : State} (h : ReadsOk needs d s) (hn : needs.above ≠ .nothing)
    {i : Int} (h0 : -1 ≤ i) (hi : i < aboveCount needs.above (blockSide d)) :
    frameAbove s.mem d s.latch i ≤ maxSample (depthOf d) := by
  rcases eq_or_ne i (-1) with rfl | hne
  · have hok : SourceOk d s (cornerSource d) := readsOk_iff.mp h (.corner, cornerSource d) (by simp [edgePlan, hn])
    rw [← valueOf_cornerSource hok]
    unfold cornerSource at hok ⊢
    split at hok
    · next ha =>
      rw [if_pos ha]
      split at hok
      · next hl => rw [if_pos hl, valueOf_sample hok]; exact (sourceOk_sample.mp hok).2
      · next hl => rw [if_neg hl]; exact (baseValue_range d).1
    · next ha => rw [if_neg ha]; exact (baseValue_range d).2
  · obtain ⟨k, rfl⟩ := Int.eq_ofNat_of_zero_le (show 0 ≤ i by omega)
    have hok : SourceOk d s (aboveSource d s.latch k) :=
      readsOk_iff.mp h (.above k, aboveSource d s.latch k) (by
        have : k < aboveCount needs.above (blockSide d) := by omega
        simp [edgePlan, hn, this])
    rw [← valueOf_aboveSource hok]
    unfold aboveSource at hok ⊢
    split at hok
    · next hl => rw [if_pos hl, valueOf_sample hok]; exact (sourceOk_sample.mp hok).2
    · next hl => rw [if_neg hl]; exact (baseValue_range d).2

end Sys2Proof.Machine
end

