-- ==== Sys2Proof/Laws/Step.lean ====
section
/-! SUPPORT. What one step can do, said once: the running command's footprint, the inversion lemmas of `memoryAccess`, `hostOp` and `step`, the block's turn, and that every operation that changes memory keeps its canonical form. -/

namespace Sys2Proof.Machine

open Sys2Proof.Safety

section afterInput
variable (s : State)

@[simp] theorem afterInput_regs : (afterInput s).regs = s.regs := rfl
@[simp] theorem afterInput_status : (afterInput s).status = s.status := rfl
@[simp] theorem afterInput_latch : (afterInput s).latch = s.latch := rfl
@[simp] theorem afterInput_above : (afterInput s).above = s.above := rfl
@[simp] theorem afterInput_left : (afterInput s).left = s.left := rfl
@[simp] theorem afterInput_stuck : (afterInput s).stuck = s.stuck := rfl
@[simp] theorem afterInput_mem : (afterInput s).mem = s.mem := rfl
@[simp] theorem afterInput_platform : (afterInput s).platform = s.platform := rfl
@[simp] theorem afterInput_replies : (afterInput s).replies = s.replies := rfl
@[simp] theorem afterInput_freeCount : (afterInput s).freeCount = s.freeCount := rfl
@[simp] theorem afterInput_inputs : (afterInput s).inputs = s.inputs.tail := rfl

end afterInput

theorem afterInput_nil {s : State} (h : s.inputs = []) : afterInput s = s := by
  cases s
  simp only at h
  subst h
  rfl

theorem takeTurn_blockTurn {s : State} {rest : List Event} (h : s.inputs = .blockTurn :: rest) :
    takeTurn s = blockTurn (afterInput s) := by
  cases s
  simp only at h
  subst h
  rfl

theorem takeTurn_host {s : State} {op : HostOp} {rest : List Event} (h : s.inputs = .host op :: rest) :
    takeTurn s = .other (hostOp op (afterInput s)) := by
  cases s
  simp only at h
  subst h
  rfl

theorem takeTurn_reset {s : State} {rest : List Event} (h : s.inputs = .reset :: rest) :
    takeTurn s = .other (.next (resetBlock (afterInput s))) := by
  cases s
  simp only at h
  subst h
  rfl

theorem takeTurn_allocation {s : State} {rs : List Region} {rest : List Event}
    (h : s.inputs = .allocation rs :: rest) :
    takeTurn s = .other (.next { afterInput s with platform := { s.platform with alloc := rs } }) := by
  cases s
  simp only at h
  subst h
  rfl

/-- A step whose next input is a host access is that access. -/
theorem step_host {s : State} {op : HostOp} {rest : List Event} (h : s.inputs = .host op :: rest) :
    step s = hostOp op (afterInput s) := by
  simp only [step, takeTurn_host h]

/-- A step whose next input is a reset is that reset. -/
theorem step_reset {s : State} {rest : List Event} (h : s.inputs = .reset :: rest) :
    step s = .next (resetBlock (afterInput s)) := by
  simp only [step, takeTurn_reset h]

/-- A 32-bit aligned access inside the block names the register at its offset (R23, R31). -/
theorem registerOf_inside (p : Platform) {off : Nat} (h : off < 0x40) (h4 : off % 4 = 0) :
    registerOf p (p.ipredBase + off) 4 = .ok (regAtOffset off) := by
  unfold registerOf
  rw [if_neg (by omega), if_neg (by simp [h4])]
  simp

/-- An access inside the block of another width or alignment is refused (R31). -/
theorem registerOf_shape (p : Platform) {off bytes : Nat} (h : off < 0x40) (h4 : bytes ≠ 4 ∨ off % 4 ≠ 0) :
    registerOf p (p.ipredBase + off) bytes = .error .registerAccessShape := by
  unfold registerOf
  rw [if_neg (by omega), if_pos (by simpa using h4)]

/-- A host read of a register returns it and changes nothing else. -/
theorem step_regRead {s : State} {off : Nat} {rest : List Event} (hin : regReadNext s off 4 rest) (h : off < 0x40)
    (h4 : off % 4 = 0) :
    step s = .next { afterInput s with replies := .register (readRegister s (regAtOffset off)) :: s.replies } := by
  rw [step_host hin, show s.platform = (afterInput s).platform from rfl]
  simp only [hostOp, registerOf_inside _ h h4]
  cases regAtOffset off <;> rfl

/-- A host write of a register is `writeRegister`. -/
theorem step_regWrite {s : State} {off : Nat} {v : Word} {rest : List Event} (hin : regWriteNext s off 4 v rest)
    (h : off < 0x40) (h4 : off % 4 = 0) : step s = writeRegister (afterInput s) (regAtOffset off) v := by
  rw [step_host hin, show s.platform = (afterInput s).platform from rfl]
  simp only [hostOp, registerOf_inside _ h h4]

theorem mem_readAddresses {needs : EdgeNeeds} {d : Desc} {g : OperandRegs} {q : Int} :
    q ∈ readAddresses needs d g ↔
      ∃ slot dr dc, (slot, EdgeSource.sample dr dc) ∈ edgePlan needs d g ∧ q = saddr d g dr dc := by
  simp only [readAddresses, List.mem_filterMap]
  constructor
  · rintro ⟨⟨slot, src⟩, he, h⟩
    cases src with
    | const v => simp at h
    | sample dr dc => exact ⟨slot, dr, dc, he, by simpa using h.symm⟩
  · rintro ⟨slot, dr, dc, he, rfl⟩
    exact ⟨_, he, rfl⟩

theorem mem_writeAddresses {d : Desc} {g : OperandRegs} {q : Int} :
    q ∈ writeAddresses d g ↔ ∃ r c, r < blockSide d ∧ c < blockSide d ∧ q = saddr d g r c := by
  simp only [writeAddresses, List.mem_map, mem_destWrites]
  constructor
  · rintro ⟨w, ⟨r, c, hr, hc, rfl⟩, rfl⟩; exact ⟨r, c, hr, hc, rfl⟩
  · rintro ⟨r, c, hr, hc, rfl⟩; exact ⟨_, ⟨r, c, hr, hc, rfl⟩, rfl⟩

/-- A byte is in the footprint exactly when one of the command's samples holds it. -/
theorem inFootprint_iff {i : Instr} {g : OperandRegs} {a : Nat} :
    InFootprint i g a ↔
      ∃ q ∈ readAddresses (needsOf (kindOf i)) (descOf i) g ++ writeAddresses (descOf i) g,
        q ≤ (a : Int) ∧ (a : Int) < q + sampleBytes (descOf i) := by
  simp only [InFootprint, OutsideBlock, List.mem_append, mem_readAddresses, mem_writeAddresses]
  push Not
  constructor
  · rintro (⟨slot, dr, dc, he, h⟩ | ⟨r, c, hr, hc, h⟩)
    · exact ⟨_, .inl ⟨slot, dr, dc, he, rfl⟩, h⟩
    · exact ⟨_, .inr ⟨r, c, hr, hc, rfl⟩, h⟩
  · rintro ⟨q, ⟨slot, dr, dc, he, rfl⟩ | ⟨r, c, hr, hc, rfl⟩, h⟩
    · exact .inl ⟨slot, dr, dc, he, h⟩
    · exact .inr ⟨r, c, hr, hc, h⟩

/-- A host access touches a running command exactly when one of its bytes is in the command's footprint (R226). -/
theorem touchesRunning_iff {s : State} {addr bytes : Nat} :
    touchesRunning s addr bytes = true ↔
      s.status.busy = true ∧ ∃ i, decode s.latch.cmd = .ok i ∧ checkCommand (descOf i) s.latch = none ∧
        ∃ a : Nat, addr ≤ a ∧ a < addr + bytes ∧ InFootprint i s.latch a := by
  simp only [touchesRunning, Bool.and_eq_true, List.any_eq_true, decide_eq_true_eq, inFootprint_iff]
  constructor
  · rintro ⟨⟨hb, h0⟩, q, hq, h1, h2⟩
    unfold footprint fetch at hq h1
    cases hd : decode s.latch.cmd with
    | error e => simp [hd] at hq
    | ok i =>
      cases hc : checkCommand (descOf i) s.latch with
      | some k => simp [hd, hc] at hq
      | none =>
        simp only [hd, hc] at hq h1
        have := sampleBytes_pos (descOf i)
        refine ⟨hb, i, rfl, hc, max addr q.toNat, by omega, by omega, q, hq, ?_, ?_⟩ <;> omega
  · rintro ⟨hb, i, hd, hc, a, ha1, ha2, q, hq, h1, h2⟩
    simp only [footprint, fetch, hd, hc]
    exact ⟨⟨hb, by omega⟩, q, hq, by omega, by omega⟩

/-- A host memory access outside the footprint that memory admits goes through. -/
theorem memoryAccess_next {addr bytes : Nat} {s : State} (t : State) (ht : touchesRunning s addr bytes = false)
    (ha : admitted s.platform addr bytes = true) : memoryAccess addr bytes s t = .next t := by
  simp [memoryAccess, ht, ha]

/-- A host memory access in the footprint is refused, admitted or not. -/
theorem memoryAccess_touches {addr bytes : Nat} {s : State} (t : State) (ht : touchesRunning s addr bytes = true) :
    memoryAccess addr bytes s t = .refused .footprintAccessWhileBusy := by
  simp [memoryAccess, ht]

/-- Everything a host memory access that goes through can do. -/
theorem memoryAccess_cases {addr bytes : Nat} {s t u : State} (h : memoryAccess addr bytes s t = .next u) :
    u = t ∧ touchesRunning s addr bytes = false ∧ admitted s.platform addr bytes = true := by
  unfold memoryAccess at h
  split at h
  · cases h
  · next ht =>
    split at h
    · next ha => cases h; exact ⟨rfl, by simpa using ht, ha⟩
    · cases h

/-- On the block's turn the machine runs what the latch decodes to, or faults with the code of the illegal descriptor. -/
theorem step_blockToMove {s : State} (h : BlockToMove s) :
    step s =
      match decode s.latch.cmd with
      | .ok i => exec i (afterInput s)
      | .error e => .next (raiseFault (decodeFault e) (afterInput s)) := by
  obtain ⟨hb, hs, hin | ⟨rest, hin⟩⟩ := h
  · have ht : takeTurn s = .block (afterInput s) := by
      rw [afterInput_nil hin, takeTurn, hin]
      simp [blockTurn, hb, hs]
    simp only [step, ht]
    rfl
  · have ht : takeTurn s = .block (afterInput s) := by
      rw [takeTurn_blockTurn hin]
      simp [blockTurn, afterInput, hb, hs]
    simp only [step, ht]
    rfl

/-- The block's turn when no command is running, or when it is stuck, changes nothing. -/
theorem step_idleTurn {s : State} (hb : s.status.busy = false ∨ s.stuck = true)
    (hin : s.inputs = [] ∨ ∃ rest, s.inputs = .blockTurn :: rest) : step s = .next (afterInput s) := by
  have hq : (s.status.busy && !s.stuck) = false := by
    rcases hb with h | h <;> simp [h]
  rcases hin with hin | ⟨rest, hin⟩
  · have ht : takeTurn s = .other (.next s) := by
      rw [takeTurn, hin]
      simp only [blockTurn, hq]
      rfl
    simp only [step, ht, afterInput_nil hin]
  · have ht : takeTurn s = .other (.next (afterInput s)) := by
      rw [takeTurn_blockTurn hin]
      simp only [blockTurn, afterInput, hq]
      rfl
    simp only [step, ht]

/-- Everything a host access that goes through can do. -/
theorem hostOp_cases {op : HostOp} {s t : State} (h : hostOp op s = .next t) :
    (∃ r, t = { s with replies := r :: s.replies }) ∨
    (∃ g, s.status.busy = false ∧ t = { s with regs := g }) ∨
    t = s ∨ t = startCommand s ∨
    (∃ addr bytes value : Nat, admitted s.platform addr bytes = true ∧ touchesRunning s addr bytes = false ∧
      t = { s with mem := writeBytes s.mem addr bytes value }) := by
  cases op with
  | readReg addr bytes =>
    simp only [hostOp] at h
    split at h
    · cases h
    · cases h; exact .inl ⟨_, rfl⟩
  | writeReg addr bytes value =>
    simp only [hostOp] at h
    split at h
    · cases h
    · unfold writeRegister at h
      split at h
      · split at h
        · cases h
        · next hb => cases h; exact .inr (.inl ⟨_, by simpa using hb, rfl⟩)
      · split at h
        · cases h; exact .inr (.inr (.inr (.inl rfl)))
        · cases h; exact .inr (.inr (.inl rfl))
  | readMem addr bytes =>
    obtain ⟨rfl, -⟩ := memoryAccess_cases h
    exact .inl ⟨_, rfl⟩
  | writeMem addr bytes value =>
    obtain ⟨rfl, ht, ha⟩ := memoryAccess_cases h
    exact .inr (.inr (.inr (.inr ⟨addr, bytes, value, ha, ht, rfl⟩)))

/-- Everything a step that answers a next state can do. -/
theorem step_cases {s t : State} (h : step s = .next t) :
    (BlockToMove s ∧
      ((∃ i, decode s.latch.cmd = .ok i ∧ exec i (afterInput s) = .next t) ∨
       (∃ e, decode s.latch.cmd = .error e ∧ t = raiseFault (decodeFault e) (afterInput s)))) ∨
    ((s.status.busy = false ∨ s.stuck = true) ∧ t = afterInput s) ∨
    (∃ op rest, s.inputs = .host op :: rest ∧ hostOp op (afterInput s) = .next t) ∨
    (∃ rest, s.inputs = .reset :: rest ∧ t = resetBlock (afterInput s)) ∨
    (∃ rs rest, s.inputs = .allocation rs :: rest ∧
      t = { afterInput s with platform := { s.platform with alloc := rs } }) := by
  have turn : (s.inputs = [] ∨ ∃ rest, s.inputs = .blockTurn :: rest) →
      (BlockToMove s ∧
        ((∃ i, decode s.latch.cmd = .ok i ∧ exec i (afterInput s) = .next t) ∨
         (∃ e, decode s.latch.cmd = .error e ∧ t = raiseFault (decodeFault e) (afterInput s)))) ∨
      ((s.status.busy = false ∨ s.stuck = true) ∧ t = afterInput s) := by
    intro hin
    by_cases hq : s.status.busy = true ∧ s.stuck = false
    · have hm : BlockToMove s := ⟨hq.1, hq.2, hin⟩
      refine .inl ⟨hm, ?_⟩
      rw [step_blockToMove hm] at h
      split at h
      · next i hd => exact .inl ⟨i, hd, h⟩
      · next e hd => cases h; exact .inr ⟨e, hd, rfl⟩
    · have hb : s.status.busy = false ∨ s.stuck = true := by
        cases hb : s.status.busy <;> cases hs : s.stuck <;> simp_all
      rw [step_idleTurn hb hin] at h
      cases h
      exact .inr ⟨hb, rfl⟩
  cases hin : s.inputs with
  | nil => exact (turn (.inl hin)).imp id .inl
  | cons e rest =>
    cases e with
    | blockTurn => exact (turn (.inr ⟨rest, hin⟩)).imp id .inl
    | host op =>
      rw [step_host hin] at h
      exact .inr (.inr (.inl ⟨op, rest, rfl, h⟩))
    | reset =>
      rw [step_reset hin] at h
      cases h
      exact .inr (.inr (.inr (.inl ⟨rest, rfl, rfl⟩)))
    | allocation rs =>
      simp only [step, takeTurn_allocation hin] at h
      cases h
      exact .inr (.inr (.inr (.inr ⟨rs, rest, rfl, rfl⟩)))

/-- A run of one step more is the step and the run from there. -/
theorem run_succ (M : Host.Core) {s t : M.State} (n : Nat) (h : M.step s = .next t) : M.run (n + 1) s = M.run n t := by
  rw [Host.Core.run, h]

/-! Memory keeps its canonical form. -/

/-- The memory right after reset is in canonical form. -/
theorem reset_mem_wf : State.reset.mem.wf := by
  exact ⟨List.Pairwise.nil, by simp [State.reset]⟩

/-- A command keeps memory's canonical form, whichever way it ends. -/
theorem runCommand_wf {needs : EdgeNeeds} {p : Predictor} {d : Desc} {s t : State} (hm : s.mem.wf)
    (h : runCommand needs p d s = .next t) : t.mem.wf := by
  have hE := edgesOnly_storeAll d s
  rcases runCommand_cases needs p d s with
    ⟨f, -, hr⟩ | ⟨-, ⟨pre, slot, src, post, -, -, ⟨-, hr⟩ | ⟨-, hr⟩⟩ | ⟨-, ⟨-, hr⟩ | ⟨-, hr⟩⟩⟩
  all_goals
    rw [h] at hr
    injection hr with hr
    subst hr
  · simpa using hm
  · simpa [(hE _ _).mem] using hm
  · simpa [(hE _ _).mem] using hm
  · rw [completeCommand_mem, (hE _ _).mem]; exact writeSamples_wf hm _ _
  · rw [stallWriting_mem, (hE _ _).mem]; exact writeSomeSamples_wf hm _ _ _ _ _

/-- The part of a command before its first write changes the edge buffers only. -/
theorem commandFront_cases {needs : EdgeNeeds} {p : Predictor} {d : Desc} {s t : State} {ws : List (Int × Nat)}
    (h : commandFront needs p d s = .ready t ws) :
    EdgesOnly s t ∧ ws = writesOf needs p d s ∧ checkCommand d s.latch = none ∧
      (∀ e ∈ edgePlan needs d s.latch, SourceOk d s e.2) := by
  unfold commandFront at h
  split at h
  · cases h
  · next hc =>
    rcases fillEdges_cases d (edgePlan needs d s.latch) s with
      ⟨hok, hf⟩ | ⟨pre, slot, src, post, -, -, ⟨-, hf⟩ | ⟨-, hf⟩⟩
    · have hE := edgesOnly_storeAll d s (edgePlan needs d s.latch) s
      simp only [hf] at h
      cases h
      exact ⟨hE, by rw [hE.latch]; rfl, hc, hok⟩
    · simp only [hf] at h; cases h
    · simp only [hf] at h; cases h

/-- What a reset leaves of memory: all of it, or a running command's writes each performed or not (R220, log 6). -/
theorem abandonedMemory_cases (s : State) :
    abandonedMemory s = s.mem ∨
    ∃ i, s.status.busy = true ∧ s.stuck = false ∧ decode s.latch.cmd = .ok i ∧
      checkCommand (descOf i) s.latch = none ∧
      (∀ e ∈ edgePlan (needsOf (kindOf i)) (descOf i) s.latch, SourceOk (descOf i) s e.2) ∧
      abandonedMemory s = writeSomeSamples s.platform s.freeCount 0 (sampleBytes (descOf i))
        (writesOf (needsOf (kindOf i)) (predictorOf (kindOf i)) (descOf i) s) s.mem := by
  unfold abandonedMemory
  split
  · next hb =>
    simp only [Bool.and_eq_true, Bool.not_eq_true'] at hb
    unfold fetch
    split
    · exact .inl rfl
    · next i hd =>
      split
      · exact .inl rfl
      · exact .inl rfl
      · next t ws hf =>
        obtain ⟨hE, rfl, hc, hok⟩ := commandFront_cases hf
        exact .inr ⟨i, hb.1, hb.2, hd, hc, hok, by rw [hE.platform]⟩
  · exact .inl rfl

/-- A reset keeps memory's canonical form. -/
theorem abandonedMemory_wf {s : State} (hm : s.mem.wf) : (abandonedMemory s).wf := by
  rcases abandonedMemory_cases s with h | ⟨i, -, -, -, -, -, h⟩ <;> rw [h]
  · exact hm
  · exact writeSomeSamples_wf hm _ _ _ _ _

/-- A host access keeps memory's canonical form. -/
theorem hostOp_wf {op : HostOp} {s t : State} (hm : s.mem.wf) (h : hostOp op s = .next t) : t.mem.wf := by
  rcases hostOp_cases h with ⟨r, rfl⟩ | ⟨g, -, rfl⟩ | rfl | rfl | ⟨a, n, v, -, -, rfl⟩
  · exact hm
  · exact hm
  · exact hm
  · rw [startCommand_mem]; exact hm
  · exact writeBytes_wf hm _ _ _

end Sys2Proof.Machine
end

