-- ==== Sys2Proof/Tests/Slice0.lean ====
section
/-! SUPPORT. The model's own tests. Expected values come from spec/: the words of R69 and 95_test_vectors.md, the derived vectors of 95 sections 2, 3.2 and 3.4, and hand calculation from the encoding tables of R60 to R65. Each witness_... theorem shows a state and operands that meet the hypotheses of the obligation it names. -/

namespace Sys2Proof.Tests

open Sys2Proof.Machine Sys2Proof.Safety

/-! Small states. -/

/-- 95 section 2's inputs in a 16-sample-wide plane: A[-1..7] in row 0, L[0..3] in column 0; the block is at column 1, row 1. -/
def plane : Memory :=
  [(0, 50), (1, 10), (2, 20), (3, 30), (4, 40), (5, 50), (6, 60), (7, 70), (8, 80),
   (16, 15), (32, 25), (48, 35), (64, 45)]

/-- The same samples in 16-bit storage. -/
def plane16 : Memory :=
  plane.map fun c => (2 * c.1, c.2)

/-- The operands of a command on `plane`. -/
def operands (w : Word) : OperandRegs :=
  ⟨w, 16, 17, 0, 1, 1, 16, 16⟩

/-- The operands of a command on `plane16`. -/
def operands16 (w : Word) : OperandRegs :=
  ⟨w, 16, 34, 0, 1, 1, 16, 16⟩

/-- A running command with operands `g` over memory `m`, the block's turn next. -/
def running (g : OperandRegs) (m : Memory) : State :=
  { State.reset with
    regs := g
    latch := g
    status := ⟨true, false, .none⟩
    mem := m
    inputs := [.blockTurn] }

/-- The command `w` running on `plane`. -/
def scene (w : Word) : State :=
  running (operands w) plane

/-- The command `w` running on `plane16`. -/
def scene16 (w : Word) : State :=
  running (operands16 w) plane16

/-- An idle block with the host access `op` next. -/
def hostScene (op : HostOp) : State :=
  { State.reset with
    regs := operands 0xC1
    mem := plane
    inputs := [.host op] }

/-- The platform's memory ends at byte `n`. -/
def capped (n : Nat) (s : State) : State :=
  { s with platform := { s.platform with alloc := [⟨0, n⟩] } }

/-- A 4×4, 8-bit descriptor with the three availability flags. -/
def desc4 (l a r : Bool) : Desc :=
  ⟨.n4, l, a, r, .bits8, false⟩

/-- The 4×4 block of `n`-byte samples at byte address `base`, stride 16 samples, after a step. -/
def blockAt (base n : Nat) (o : Host.Outcome State Fault Refusal) : Option (List Nat) :=
  match o with
  | .next t =>
    some ((List.range 4).flatMap fun r => (List.range 4).map fun c => readBytes t.mem (base + (16 * r + c) * n) n)
  | .fault _ => none
  | .refused _ => none

/-- STATUS and whether memory is as in `m` after a step. -/
def statusAfter (m : Memory) (o : Host.Outcome State Fault Refusal) : Option (Word × Bool) :=
  match o with
  | .next t => some (statusWord t.status, decide (t.mem = m))
  | .fault _ => none
  | .refused _ => none

/-- A refusal, if the step refused. -/
def refusalOf (o : Host.Outcome State Fault Refusal) : Option Refusal :=
  match o with
  | .next _ => none
  | .fault _ => none
  | .refused r => some r

/-! WellFormed: the one check of R66 that a term can break. -/

/-- R66, code 5: 10-bit and 12-bit samples in 8-bit storage. -/
theorem test_wellFormed_refuses_deep_samples_in_bytes :
    wellFormed (.v ⟨.n4, false, true, false, .bits10, false⟩) = false ∧
    wellFormed (.dcBoth ⟨.n8, false, .bits12, false⟩) = false ∧
    wellFormed (.tm ⟨.n4, true, true, false, .bits10, true⟩) = true := by decide

/-! Decoding: words written out bit by bit from R60, R61, R63 to R65. -/

/-- MODE 1, TXSZ 01, HAVE_ABOVE: 0000 1001 0001. -/
theorem test_decode_v : decode 0b00000000000000000000000010010001#32 = .ok (.v ⟨.n8, false, true, false, .bits8, false⟩) := by
  decide

/-- MODE 2, HAVE_LEFT, SAMPLE16 (95 P4: 0x842). -/
theorem test_decode_h : decode 0b00000000000000000000100001000010#32 = .ok (.h ⟨.n4, true, false, false, .bits8, true⟩) := by
  decide

/-- MODE 3, HAVE_LEFT, HAVE_ABOVE, HAVE_RIGHT (95 P3: 0x1C3). -/
theorem test_decode_d45 : decode 0b00000000000000000000000111000011#32 = .ok (.d45 ⟨.n4, true, true, true, .bits8, false⟩) := by
  decide

/-- MODE 4, TXSZ 10, both edges. -/
theorem test_decode_d135 : decode 0b00000000000000000000000011100100#32 = .ok (.d135 ⟨.n16, true, true, false, .bits8, false⟩) := by
  decide

/-- MODE 5, TXSZ 11, HAVE_LEFT, BD 10, SAMPLE16. -/
theorem test_decode_d117 : decode 0b00000000000000000000110001110101#32 = .ok (.d117 ⟨.n32, true, false, false, .bits12, true⟩) := by
  decide

/-- MODE 6, both edges. -/
theorem test_decode_d153 : decode 0b00000000000000000000000011000110#32 = .ok (.d153 ⟨.n4, true, true, false, .bits8, false⟩) := by
  decide

/-- MODE 7, HAVE_LEFT, BD 01, SAMPLE16. -/
theorem test_decode_d207 : decode 0b00000000000000000000101001000111#32 = .ok (.d207 ⟨.n4, true, false, false, .bits10, true⟩) := by
  decide

/-- MODE 8, HAVE_ABOVE, HAVE_RIGHT. -/
theorem test_decode_d63 : decode 0b00000000000000000000000110001000#32 = .ok (.d63 ⟨.n4, false, true, true, .bits8, false⟩) := by
  decide

/-- MODE 9, both edges, BD 01, SAMPLE16 (95 P2: 0xAC9). -/
theorem test_decode_tm : decode 0b00000000000000000000101011001001#32 = .ok (.tm ⟨.n4, true, true, false, .bits10, true⟩) := by
  decide

/-- MODE 0 with (HAVE_LEFT, HAVE_ABOVE) = 11, 10, 01, 00 (R67; 95 P1's words). -/
theorem test_decode_dc :
    decode 0b00000000000000000000000011000000#32 = .ok (.dcBoth ⟨.n4, false, .bits8, false⟩) ∧
    decode 0b00000000000000000000000001000000#32 = .ok (.dcLeft ⟨.n4, false, .bits8, false⟩) ∧
    decode 0b00000000000000000000000010000000#32 = .ok (.dcTop ⟨.n4, false, .bits8, false⟩) ∧
    decode 0b00000000000000000000000000000000#32 = .ok (.dc128 ⟨.n4, false, .bits8, false⟩) := by decide

/-- R69's three example words are what the encoder makes. -/
theorem test_encode_examples :
    encode (.dcBoth ⟨.n8, false, .bits8, false⟩) = 0x000000D0#32 ∧
    encode (.tm ⟨.n8, true, true, false, .bits8, false⟩) = 0x000000D9#32 ∧
    encode (.d45 ⟨.n4, false, true, true, .bits10, true⟩) = 0x00000B83#32 := by decide

/-- R66: each illegal descriptor is rejected by name; the smallest code wins (95 X1 to X4, X9's word). -/
theorem test_decode_rejects :
    decode 0x00001000#32 = .error .reservedBits ∧ decode 0x80000E0F#32 = .error .reservedBits ∧
    decode 0x0000000A#32 = .error .reservedMode ∧ decode 0x00000E0F#32 = .error .reservedMode ∧
    decode 0x00000E00#32 = .error .reservedBd ∧ decode 0x00000600#32 = .error .reservedBd ∧
    decode 0x00000201#32 = .error .bdStorageMismatch ∧ decode 0x00000409#32 = .error .bdStorageMismatch := by decide

/-- The opcode table's match word of each row, read by `decodeTableWord`. -/
theorem test_decodeTableWord :
    decodeTableWord 32 0x00000001 = some (.v (desc4 false false false)) ∧
    decodeTableWord 32 0x00000009 = some (.tm (desc4 false false false)) ∧
    decodeTableWord 32 0x000000C0 = some (.dcBoth ⟨.n4, false, .bits8, false⟩) ∧
    decodeTableWord 32 0x0000000B = none := by decide

/-! One step of each command on 95 section 2's inputs, and a corner case of 95 section 3.2. -/

theorem test_v_copies : blockAt 17 1 (step (scene 0x1C1)) =
    some [10, 20, 30, 40, 10, 20, 30, 40, 10, 20, 30, 40, 10, 20, 30, 40] := by decide

/-- E1. -/
theorem test_v_no_above : blockAt 17 1 (step (scene 0x001)) = some (List.replicate 16 127) := by decide

theorem test_h_copies : blockAt 17 1 (step (scene 0x1C2)) =
    some [15, 15, 15, 15, 25, 25, 25, 25, 35, 35, 35, 35, 45, 45, 45, 45] := by decide

/-- E2: 10-bit. -/
theorem test_h_no_left : blockAt 34 2 (step (scene16 0xA02)) = some (List.replicate 16 513) := by decide

theorem test_d45 : blockAt 17 1 (step (scene 0x1C3)) =
    some [20, 30, 40, 50, 30, 40, 50, 60, 40, 50, 60, 70, 50, 60, 70, 80] := by decide +kernel

/-- E12: HAVE_RIGHT = 0. -/
theorem test_d45_replicates : blockAt 17 1 (step (scene 0x0C3)) =
    some [20, 30, 38, 40, 30, 38, 40, 40, 38, 40, 40, 40, 40, 40, 40, 40] := by decide +kernel

theorem test_d135 : blockAt 17 1 (step (scene 0x1C4)) =
    some [31, 23, 20, 30, 26, 31, 23, 20, 25, 26, 31, 23, 35, 25, 26, 31] := by decide

theorem test_d117 : blockAt 17 1 (step (scene 0x1C5)) =
    some [30, 15, 25, 35, 31, 23, 20, 30, 26, 30, 15, 25, 25, 31, 23, 20] := by decide

theorem test_d153 : blockAt 17 1 (step (scene 0x1C6)) =
    some [33, 31, 23, 20, 20, 26, 33, 31, 30, 25, 20, 26, 40, 35, 30, 25] := by decide

theorem test_d207 : blockAt 17 1 (step (scene 0x1C7)) =
    some [20, 25, 30, 35, 30, 35, 40, 43, 40, 43, 45, 45, 45, 45, 45, 45] := by decide

theorem test_d63 : blockAt 17 1 (step (scene 0x1C8)) =
    some [15, 25, 35, 45, 20, 30, 40, 50, 25, 35, 45, 55, 30, 40, 50, 60] := by decide +kernel

/-- The lower clip. -/
theorem test_tm : blockAt 17 1 (step (scene 0x1C9)) =
    some [0, 0, 0, 5, 0, 0, 5, 15, 0, 5, 15, 25, 5, 15, 25, 35] := by decide +kernel

/-- E11: 12-bit, the upper clip; A[-1] = 0, A = L = 4095 = 0xFF, 0x0F. -/
theorem test_tm_upper_clip : blockAt 34 2 (step (running (operands16 0xCC9)
    [(2, 0xFF), (3, 0x0F), (4, 0xFF), (5, 0x0F), (6, 0xFF), (7, 0x0F), (8, 0xFF), (9, 0x0F),
     (32, 0xFF), (33, 0x0F), (64, 0xFF), (65, 0x0F), (96, 0xFF), (97, 0x0F), (128, 0xFF), (129, 0x0F)])) =
    some (List.replicate 16 4095) := by decide +kernel

theorem test_dcBoth : blockAt 17 1 (step (scene 0x1C0)) = some (List.replicate 16 28) := by decide

theorem test_dcLeft : blockAt 17 1 (step (scene 0x140)) = some (List.replicate 16 30) := by decide

theorem test_dcTop : blockAt 17 1 (step (scene 0x180)) = some (List.replicate 16 25) := by decide

/-- E8 and E9: half rounds up, less than half rounds down. -/
theorem test_dcTop_rounds :
    blockAt 17 1 (step (running (operands 0x080) [(3, 3), (4, 3)])) = some (List.replicate 16 2) ∧
    blockAt 17 1 (step (running (operands 0x080) [(3, 2), (4, 3)])) = some (List.replicate 16 1) := by decide

theorem test_dc128 : blockAt 17 1 (step (scene 0x100)) = some (List.replicate 16 128) := by decide

/-- E7's value, 12-bit. -/
theorem test_dc128_12bit : blockAt 34 2 (step (scene16 0xC00)) = some (List.replicate 16 2048) := by decide

/-- E13, R104: 8-bit samples in 16-bit storage. -/
theorem test_d135_in_words : blockAt 34 2 (step (scene16 0x9C4)) =
    some [31, 23, 20, 30, 26, 31, 23, 20, 25, 26, 31, 23, 35, 25, 26, 31] := by decide

/-- F1: the plane sample at row y, column x is 10y + x, FRAME 6×8, block at (4, 4): the above row is clamped to column 5. -/
theorem test_replication_at_the_right_edge : blockAt 68 1 (step (running ⟨0x1C1, 16, 68, 0, 4, 4, 6, 8⟩
    [(51, 33), (52, 34), (53, 35), (54, 36), (55, 37), (67, 43), (83, 53), (99, 63), (115, 73)])) =
    some [34, 35, 35, 35, 34, 35, 35, 35, 34, 35, 35, 35, 34, 35, 35, 35] := by decide

/-- F3: FRAME 16×6: the left column is clamped to row 5. -/
theorem test_replication_at_the_bottom_edge : blockAt 68 1 (step (running ⟨0x0C2, 16, 68, 0, 4, 4, 16, 6⟩
    [(67, 43), (83, 53), (99, 63), (115, 73)])) =
    some [43, 43, 43, 43, 53, 53, 53, 53, 53, 53, 53, 53, 53, 53, 53, 53] := by decide

/-- After a command BUSY is 0 and FAULT is 0. -/
theorem test_completion_status : (statusAfter plane (step (scene 0x1C1))).map Prod.fst = some 0x00000000#32 := by decide

/-! Faults: 95 section 3.4. -/

/-- The legal registers 95 section 3.4 starts from, with the changes of a row. -/
def faultRow (w stride dstLo x0 : Word) : State :=
  running ⟨w, stride, dstLo, 0, x0, 8, 64, 64⟩ plane

/-- X1 to X9: the code, and no byte of memory changes. -/
theorem test_fault_codes :
    statusAfter plane (step (faultRow 0x1000 64 0x1000 8)) = some (0x00000202#32, true) ∧
    statusAfter plane (step (faultRow 0x000A 64 0x1000 8)) = some (0x00000302#32, true) ∧
    statusAfter plane (step (faultRow 0x0E00 64 0x1000 8)) = some (0x00000402#32, true) ∧
    statusAfter plane (step (faultRow 0x0201 64 0x1000 8)) = some (0x00000502#32, true) ∧
    statusAfter plane (step (faultRow 0x0801 64 0x1001 8)) = some (0x00000602#32, true) ∧
    statusAfter plane (step (faultRow 0x0031 16 0x1000 8)) = some (0x00000702#32, true) ∧
    statusAfter plane (step (faultRow 0x0001 64 0x1000 64)) = some (0x00000802#32, true) ∧
    statusAfter plane (step (faultRow 0x0041 64 0x1000 0)) = some (0x00000902#32, true) ∧
    statusAfter plane (step (faultRow 0x1000 64 0x1000 64)) = some (0x00000202#32, true) := by decide

/-- X10: every row of the opcode table, run as the first instruction after reset, faults with code 7 (STRIDE 0 < N). -/
theorem test_first_instruction_after_reset :
    ([0x01, 0x02, 0x03, 0x04, 0x05, 0x06, 0x07, 0x08, 0x09, 0xC0, 0x40, 0x80, 0x00].all fun w =>
      decide (statusAfter [] (step (State.reset.withFetchWord 32 w)) = some (0x00000702#32, true))) = true := by decide

/-- X11: a START while halted changes nothing. -/
theorem test_halted_block_ignores_start :
    statusAfter plane (step { hostScene (.writeReg 0x20 4 1) with status := ⟨false, true, .reservedBits⟩ }) =
      some (0x00000202#32, true) := by decide

/-- P4: the second left sample is 300 in 8-bit depth: code 10, nothing written. -/
theorem test_out_of_range_neighbour :
    statusAfter [(32, 7), (64, 0x2C), (65, 1)] (step (running (operands16 0x842) [(32, 7), (64, 0x2C), (65, 1)])) =
      some (0x00000A02#32, true) := by decide

/-- R100, R203: a START while BUSY records code 1 and leaves BUSY at 1. -/
theorem test_start_while_busy :
    statusAfter plane (step { scene 0x1C1 with inputs := [.host (.writeReg 0x20 4 1)] }) =
      some (0x00000103#32, true) := by decide

/-- R47, R227: a command whose last sample memory does not admit is stuck: BUSY stays 1, no code. -/
theorem test_unadmitted_write_sticks :
    (match step (capped 68 (scene 0x1C1)) with
     | .next t => some (statusWord t.status, t.stuck)
     | .fault _ => none
     | .refused _ => none) = some (0x00000001#32, true) := by decide

/-! Host accesses. -/

/-- R31: a byte-wide and a misaligned access are refused; so is an operand write while BUSY. -/
theorem test_register_refusals :
    refusalOf (step (hostScene (.readReg 0x00 1))) = some .registerAccessShape ∧
    refusalOf (step (hostScene (.writeReg 0x02 4 1))) = some .registerAccessShape ∧
    refusalOf (step { scene 0x1C1 with inputs := [.host (.writeReg 0x04 4 1)] }) = some .operandWriteWhileBusy := by decide

/-- R226: the corner (a read) and the last destination byte are refused while BUSY, the last one also where memory does
not admit it and the command is stuck on it; the byte after it is not. -/
theorem test_footprint_refusals :
    refusalOf (step { scene 0x1C4 with inputs := [.host (.readMem 0 1)] }) = some .footprintAccessWhileBusy ∧
    refusalOf (step { scene 0x1C4 with inputs := [.host (.writeMem 68 1 7)] }) = some .footprintAccessWhileBusy ∧
    refusalOf (step { capped 68 (scene 0x1C4) with stuck := true, inputs := [.host (.readMem 68 1)] }) =
      some .footprintAccessWhileBusy ∧
    refusalOf (step { scene 0x1C4 with inputs := [.host (.readMem 69 1)] }) = none := by decide

/-- R40, log 22: at IPRED_BASE, 0 here, a memory access reaches plane memory and a register access the register CMD. -/
theorem test_register_block_apart_from_memory :
    (match step (hostScene (.readMem 0 1)) with
      | .next t => decide (t.replies = [.memory 50])
      | .fault _ => false
      | .refused _ => false) = true ∧
    (match step (hostScene (.readReg 0 4)) with
      | .next t => decide (t.replies = [.register 0xC1])
      | .fault _ => false
      | .refused _ => false) = true := by decide

/-- R70, R72: 95 P1's lines and P2's line assemble to the words shown there. -/
theorem test_assembler_words :
    assembleLine ⟨.dcLeft, .n4, false, false, false, .bits8, false, 0x1004, 8, 4, 0, 8, 8⟩ = some 0x00000040#32 ∧
    assembleLine ⟨.tm, .n4, true, true, false, .bits10, true, 0x2012, 8, 1, 1, 8, 5⟩ = some 0x00000AC9#32 ∧
    assembleLine ⟨.v, .n8, false, true, false, .bits8, false, 0x3020, 4, 0, 4, 6, 8⟩ = some 0x00000091#32 ∧
    assembleLine ⟨.dcTop, .n4, false, true, false, .bits8, false, 0, 8, 0, 4, 8, 8⟩ = none := by decide

/-! Witnesses: a state and operands that meet each obligation's hypotheses. -/

theorem witness_DecodeEncodeRoundTrip : wellFormed (.d45 ⟨.n32, true, true, true, .bits12, true⟩) = true := by decide

/-- EncodeDecodeRoundTrip and DecodeFollowsDescriptor: a legal word; and a word for each MODE clause. -/
theorem witness_legal_words :
    ([0x01, 0x02, 0x03, 0x04, 0x05, 0x06, 0x07, 0x08, 0x09, 0xC0, 0x40, 0x80, 0x00, 0xC39].map fun w =>
      (decodeTableWord 32 w).map kindOf) =
    [some .v, some .h, some .d45, some .d135, some .d117, some .d153, some .d207, some .d63, some .tm,
      some .dcBoth, some .dcLeft, some .dcTop, some .dc128, some .tm] := by decide

/-- DescriptorLegality: a word for each clause. -/
theorem witness_DescriptorLegality :
    (fieldOf 0x00001000#32 12 20 ≠ 0) ∧
    (fieldOf 0x0000000A#32 12 20 = 0 ∧ 9 < fieldOf 0x0000000A#32 0 4) ∧
    (fieldOf 0x00000E00#32 12 20 = 0 ∧ fieldOf 0x00000E00#32 0 4 ≤ 9 ∧ 2 < fieldOf 0x00000E00#32 9 2) ∧
    (fieldOf 0x00000201#32 12 20 = 0 ∧ fieldOf 0x00000201#32 0 4 ≤ 9 ∧ fieldOf 0x00000201#32 9 2 ≤ 2 ∧
      fieldOf 0x00000201#32 11 1 = 0 ∧ fieldOf 0x00000201#32 9 2 ≠ 0) := by decide

/-- TableRowsSelectKinds: a word in its row, legal, at the last size, depth and storage. -/
theorem witness_TableRowsSelectKinds :
    0x00000C7A#32 &&& tableMask .v ≠ tableMatch .v ∧
    0x00000D31#32 &&& tableMask .v = tableMatch .v ∧ fieldOf 0x00000D31#32 9 2 ≠ 3 ∧ fieldOf 0x00000D31#32 11 1 = 1 ∧
    0x000000C0#32 &&& tableMask .dcBoth = tableMatch .dcBoth ∧ fieldOf 0x000000C0#32 9 2 = 0 := by decide

/-- PredictInRange: edges at the greatest sample. -/
theorem witness_PredictInRange :
    ∃ A L : Int → Nat, (∀ i : Int, -1 ≤ i → i < 2 * (4 : Nat) → A i ≤ maxSample 8) ∧
      (∀ i : Int, 0 ≤ i → i < (4 : Nat) → L i ≤ maxSample 8) :=
  ⟨fun _ => maxSample 8, fun _ => 0, fun _ _ _ => Nat.le_refl _, fun _ _ _ => Nat.zero_le _⟩

/-- PredictReadsItsEdges: for V, edges that agree on A[-1..N-1] only. -/
theorem witness_PredictReadsItsEdges :
    ∃ A A' L L' : Int → Nat, A ≠ A' ∧ L ≠ L' ∧
      ((needsOf .v).left = true → ∀ i : Int, 0 ≤ i → i < (4 : Nat) → L' i = L i) ∧
      ((needsOf .v).above ≠ .nothing →
        ∀ i : Int, -1 ≤ i → i < aboveCount (needsOf .v).above 4 → A' i = A i) := by
  refine ⟨fun _ => 0, fun i => if i = 4 then 1 else 0, fun _ => 0, fun _ => 1, fun h => ?_, fun h => ?_, fun h => ?_,
    fun _ i _ h => ?_⟩
  · simpa using congrFun h 4
  · simpa using congrFun h 0
  · simp [needsOf] at h
  · have : i ≠ 4 := by simp only [needsOf, aboveCount] at h; omega
    simp [this]

/-- The closed forms: a sample under each clause (row, column), N = 4. -/
theorem witness_closed_form_clauses :
    (0 / 2 ≤ 0 ∧ 0 % 2 = 0) ∧ (1 / 2 ≤ 0 ∧ 1 % 2 = 1) ∧ (0 < 2 / 2 ∧ (2 : Int) = (2 : Nat) - 2 * (0 : Nat)) ∧
    (0 = 2 * 0 + 0) ∧ (1 = 2 * 0 + 1) ∧ (3 = 2 * 0 + 3) ∧ (0 < 2 * 1 ∧ 0 % 2 = 0) ∧ (1 < 2 * 1 ∧ 1 % 2 = 1) ∧
    (∃ Lx : Nat → Nat, ∀ k : Nat, Lx k = (fun i : Int => i.toNat) ((min k (4 - 1) : Nat) : Int)) :=
  ⟨by decide, by decide, by decide, by decide, by decide, by decide, by decide, by decide, _, fun _ => rfl⟩

/-- `Runs` from three checks that evaluate. -/
theorem runs_of {k : Kind} {d : Desc} {s : State} (h1 : checkCommand d s.latch = none)
    (h2 : ∀ e ∈ edgePlan (needsOf k) d s.latch, sourceValue d s e.2 = .value (valueOf d s e.2))
    (h3 : ∀ w ∈ destWrites d s.latch (fun _ _ => 0), admitted s.platform w.1 (sampleBytes d) = true) : Runs k d s :=
  ⟨h1, readsOk_iff.mpr h2, (writesOk_iff _).mpr h3⟩

theorem plane_wf : (scene 0x1C1).mem.wf ∧ (scene16 0x9C1).mem.wf := by decide

theorem witness_runs_v : Runs .v (desc4 true true true) (scene 0x1C1) ∧ Runs .v (desc4 false false false) (scene 0x001) :=
  ⟨runs_of (by decide) (by decide) (by decide), runs_of (by decide) (by decide) (by decide)⟩

theorem witness_runs_h : Runs .h (desc4 true true true) (scene 0x1C2) ∧ Runs .h (desc4 false false false) (scene 0x002) :=
  ⟨runs_of (by decide) (by decide) (by decide), runs_of (by decide) (by decide) (by decide)⟩

theorem witness_runs_d45 : Runs .d45 (desc4 true true true) (scene 0x1C3) ∧ Runs .d45 (desc4 false false false) (scene 0x003) :=
  ⟨runs_of (by decide) (by decide) (by decide), runs_of (by decide) (by decide) (by decide)⟩

theorem witness_runs_d135 : Runs .d135 (desc4 true true true) (scene 0x1C4) ∧ Runs .d135 (desc4 false false false) (scene 0x004) :=
  ⟨runs_of (by decide) (by decide) (by decide), runs_of (by decide) (by decide) (by decide)⟩

theorem witness_runs_d117 : Runs .d117 (desc4 true true true) (scene 0x1C5) ∧ Runs .d117 (desc4 false false false) (scene 0x005) :=
  ⟨runs_of (by decide) (by decide) (by decide), runs_of (by decide) (by decide) (by decide)⟩

theorem witness_runs_d153 : Runs .d153 (desc4 true true true) (scene 0x1C6) ∧ Runs .d153 (desc4 false false false) (scene 0x006) :=
  ⟨runs_of (by decide) (by decide) (by decide), runs_of (by decide) (by decide) (by decide)⟩

theorem witness_runs_d207 : Runs .d207 (desc4 true true true) (scene 0x1C7) ∧ Runs .d207 (desc4 false false false) (scene 0x007) :=
  ⟨runs_of (by decide) (by decide) (by decide), runs_of (by decide) (by decide) (by decide)⟩

theorem witness_runs_d63 : Runs .d63 (desc4 true true true) (scene 0x1C8) ∧ Runs .d63 (desc4 false false false) (scene 0x008) :=
  ⟨runs_of (by decide) (by decide) (by decide), runs_of (by decide) (by decide) (by decide)⟩

theorem witness_runs_tm : Runs .tm (desc4 true true true) (scene 0x1C9) ∧ Runs .tm (desc4 false false false) (scene 0x009) :=
  ⟨runs_of (by decide) (by decide) (by decide), runs_of (by decide) (by decide) (by decide)⟩

/-- D45 and D63 with HAVE_RIGHT = 0 (the replicated clause); TM with one edge (R151's other clauses). -/
theorem witness_runs_clauses :
    Runs .d45 (desc4 false true false) (scene 0x083) ∧ Runs .d63 (desc4 false true false) (scene 0x088) ∧
    Runs .tm (desc4 false true false) (scene 0x089) ∧ Runs .tm (desc4 true false false) (scene 0x049) :=
  ⟨runs_of (by decide) (by decide) (by decide), runs_of (by decide) (by decide) (by decide),
    runs_of (by decide) (by decide) (by decide), runs_of (by decide) (by decide) (by decide)⟩

theorem witness_runs_dcBoth : Runs .dcBoth (dcDesc true true ⟨.n4, false, .bits8, false⟩) (scene 0x0C0) :=
  runs_of (by decide) (by decide) (by decide)

theorem witness_runs_dcLeft : Runs .dcLeft (dcDesc true false ⟨.n4, false, .bits8, false⟩) (scene 0x040) :=
  runs_of (by decide) (by decide) (by decide)

theorem witness_runs_dcTop : Runs .dcTop (dcDesc false true ⟨.n4, false, .bits8, false⟩) (scene 0x080) :=
  runs_of (by decide) (by decide) (by decide)

theorem witness_runs_dc128 : Runs .dc128 (dcDesc false false ⟨.n4, false, .bits8, false⟩) (scene 0x000) :=
  runs_of (by decide) (by decide) (by decide)

/-- A DC_BOTH whose sum is half-way: sum = 2N·k + N with k = 0 (the sum of one edge sample 4, N = 4). -/
theorem witness_DcBothAverages_half :
    sumTo (frameAbove [(1, 4)] (desc4 true true false) (operands 0x0C0)) 4 +
      sumTo (frameLeft [(1, 4)] (desc4 true true false) (operands 0x0C0)) 4 = 2 * 4 * 0 + 4 := by decide

/-- TmWithMissingEdges, WrittenSamplesFitDepth, CommandFrame: a command that answers a next state. -/
theorem witness_answers :
    (∃ t, exec (.tm (desc4 true true true)) (scene 0x1C9) = .next t) ∧
    (∃ t, exec (.tm (desc4 false false false)) (scene 0x009) = .next t) :=
  ⟨⟨_, rfl⟩, ⟨_, rfl⟩⟩

/-- StorageSizeIndependent: the same edges in bytes and in 16-bit words. -/
theorem witness_StorageSizeIndependent :
    descOf (instrOfKind .tm (desc4 true true true)) = desc4 true true true ∧
    (scene 0x1C9).mem.wf ∧ (scene16 0x9C9).mem.wf ∧
    Runs .tm (desc4 true true true) (scene 0x1C9) ∧
    Runs .tm { desc4 true true true with sample16 := true } (scene16 0x9C9) ∧
    (∀ i : Int, -1 ≤ i → i < 2 * blockSide (desc4 true true true) →
      frameAbove (scene16 0x9C9).mem { desc4 true true true with sample16 := true } (scene16 0x9C9).latch i =
        frameAbove (scene 0x1C9).mem (desc4 true true true) (scene 0x1C9).latch i) ∧
    (∀ i : Int, 0 ≤ i → i < blockSide (desc4 true true true) →
      frameLeft (scene16 0x9C9).mem { desc4 true true true with sample16 := true } (scene16 0x9C9).latch i =
        frameLeft (scene 0x1C9).mem (desc4 true true true) (scene 0x1C9).latch i) ∧
    (∃ t, exec (instrOfKind .tm (desc4 true true true)) (scene 0x1C9) = .next t) ∧
    (∃ t, exec (instrOfKind .tm { desc4 true true true with sample16 := true }) (scene16 0x9C9) = .next t) := by
  refine ⟨by decide, by decide, by decide, runs_of (by decide) (by decide) (by decide),
    runs_of (by decide) (by decide) (by decide), fun i h0 h1 => ?_, fun i h0 h1 => ?_, ⟨_, rfl⟩, ⟨_, rfl⟩⟩
  · change i < 8 at h1
    interval_cases i <;> decide
  · change i < 4 at h1
    interval_cases i <;> decide

/-- HaveRightIgnored: both sides of its hypothesis. -/
theorem witness_HaveRightIgnored :
    blockSide ⟨.n8, true, true, false, .bits8, false⟩ ≠ 4 ∧ (Kind.tm ≠ .d45 ∧ Kind.tm ≠ .d63) := by decide

/-- ReadsInsideFrame: a left sample, the corner and an above sample of a command that passes its checks, the frame's last
row and column among them. -/
theorem witness_ReadsInsideFrame :
    checkCommand (desc4 true true false) ⟨0x0C4, 16, 68, 0, 4, 4, 6, 6⟩ = none ∧
    (EdgeSlot.left 3, EdgeSource.sample 1 (-1)) ∈ edgePlan (needsOf .d135) (desc4 true true false) ⟨0x0C4, 16, 68, 0, 4, 4, 6, 6⟩ ∧
    (EdgeSlot.corner, EdgeSource.sample (-1) (-1)) ∈
      edgePlan (needsOf .d135) (desc4 true true false) ⟨0x0C4, 16, 68, 0, 4, 4, 6, 6⟩ ∧
    (EdgeSlot.above 3, EdgeSource.sample (-1) 1) ∈
      edgePlan (needsOf .d135) (desc4 true true false) ⟨0x0C4, 16, 68, 0, 4, 4, 6, 6⟩ := by decide

/-- FastPathAgrees: a block that just fits the frame, both clauses. -/
theorem witness_FastPathAgrees :
    ((4 : Nat) : Int) + limOf (desc4 true true true) + 1 ≤ ((12 : Nat) : Int) ∧
    4 + blockSide (desc4 true true true) ≤ 8 := by decide

/-- SampleAccessesAligned: a 16-bit command that passes its checks. -/
theorem witness_SampleAccessesAligned :
    checkCommand ⟨.n4, true, true, true, .bits12, true⟩ (operands16 0xDC9) = none := by decide

/-- ReadsDisjointFromWritesAtAnyStride: STRIDE = N, the left sample of row 1 and the last sample of row 0; its conclusion
fails there, which is why the statement is expected to fail. -/
theorem witness_ReadsDisjointFromWritesAtAnyStride :
    checkCommand (desc4 true false false) ⟨0x042, 4, 17, 0, 1, 1, 16, 16⟩ = none ∧
    (EdgeSlot.left 1, EdgeSource.sample 1 (-1)) ∈
      edgePlan (needsOf .h) (desc4 true false false) ⟨0x042, 4, 17, 0, 1, 1, 16, 16⟩ := by decide

/-- ReadsDisjointFromWritesAtWideStride: the narrowest stride with real above-right samples, 2N. -/
theorem witness_ReadsDisjointFromWritesAtWideStride :
    checkCommand (desc4 true true true) ⟨0x1C3, 8, 17, 0, 1, 1, 16, 16⟩ = none ∧
    blockSide (desc4 true true true) < (8#32).toNat ∧ limOf (desc4 true true true) < ((8#32).toNat : Int) ∧
    (EdgeSlot.above 7, EdgeSource.sample (-1) 7) ∈
      edgePlan (needsOf .d45) (desc4 true true true) ⟨0x1C3, 8, 17, 0, 1, 1, 16, 16⟩ := by decide

/-- StepRunsDecodedCommand: with the turn listed and with no input left. -/
theorem witness_StepRunsDecodedCommand :
    BlockToMove (scene 0x1C9) ∧ BlockToMove { scene 0x1C9 with inputs := [] } ∧
    decode (scene 0x1C9).latch.cmd = .ok (.tm (desc4 true true true)) :=
  ⟨⟨rfl, rfl, .inr ⟨[], rfl⟩⟩, ⟨rfl, rfl, .inl rfl⟩, by decide⟩

/-- SmallestFaultCodeWins: a state for each code, and one with no cause (codes 2 to 9 as in 95 X1 to X8). -/
theorem witness_SmallestFaultCodeWins :
    faultCause (faultRow 0x1000 64 0x1000 8).latch 2 ∧ faultCause (faultRow 0x000A 64 0x1000 8).latch 3 ∧
    faultCause (faultRow 0x0E00 64 0x1000 8).latch 4 ∧ faultCause (faultRow 0x0201 64 0x1000 8).latch 5 ∧
    faultCause (faultRow 0x0801 64 0x1001 8).latch 6 ∧ faultCause (faultRow 0x0031 16 0x1000 8).latch 7 ∧
    faultCause (faultRow 0x0001 64 0x1000 64).latch 8 ∧ faultCause (faultRow 0x0041 64 0x1000 0).latch 9 ∧
    BlockToMove (faultRow 0x0041 64 0x1000 0) ∧
    (∀ m, m < 9 → ¬ faultCause (faultRow 0x0041 64 0x1000 0).latch m) ∧
    (∀ n, ¬ faultCause (faultRow 0x0041 64 0x1000 8).latch n) := by
  refine ⟨?_, ?_, ?_, ?_, ?_, ?_, ?_, ?_, ⟨rfl, rfl, .inr ⟨[], rfl⟩⟩, fun m hm => ?_, fun n => ?_⟩
  iterate 8 · simp only [faultCause]; decide
  · interval_cases m <;> simp only [faultCause] <;> decide
  · match n with
    | 0 | 1 | 2 | 3 | 4 | 5 | 6 | 7 | 8 | 9 => simp only [faultCause]; decide
    | _ + 10 => simp only [faultCause]; decide

/-- FirstOutOfRangeReadFaults: P4, the second left sample 300. -/
theorem witness_FirstOutOfRangeReadFaults :
    let s := running (operands16 0x842) [(32, 7), (64, 0x2C), (65, 1)]
    let d : Desc := ⟨.n4, true, false, false, .bits8, true⟩
    checkCommand d s.latch = none ∧
    edgePlan (needsOf .h) d s.latch =
      [(.left 0, .sample 0 (-1))] ++ (.left 1, .sample 1 (-1)) :: [(.left 2, .sample 2 (-1)), (.left 3, .sample 3 (-1))] ∧
    (∀ slot' dr' dc', (slot', EdgeSource.sample dr' dc') ∈ [(EdgeSlot.left 0, EdgeSource.sample 0 (-1))] →
      ReadOk d s dr' dc') ∧
    admitted s.platform (saddr d s.latch 1 (-1)) (sampleBytes d) = true ∧
    maxSample (depthOf d) < sampleIn s.mem d s.latch 1 (-1) := by
  refine ⟨by decide, by decide, fun slot dr dc h => ?_, by decide, by decide⟩
  simp only [List.mem_singleton, Prod.mk.injEq, EdgeSource.sample.injEq] at h
  obtain ⟨-, rfl, rfl⟩ := h
  exact ⟨by decide, by decide⟩

/-- UnadmittedReadSticks: memory ends before the third left sample. -/
theorem witness_UnadmittedReadSticks :
    let s := capped 40 (scene 0x042)
    let d := desc4 true false false
    checkCommand d s.latch = none ∧
    edgePlan (needsOf .h) d s.latch =
      [(.left 0, .sample 0 (-1)), (.left 1, .sample 1 (-1))] ++ (.left 2, .sample 2 (-1)) :: [(.left 3, .sample 3 (-1))] ∧
    (∀ slot' dr' dc', (slot', EdgeSource.sample dr' dc') ∈
      [(EdgeSlot.left 0, EdgeSource.sample 0 (-1)), (EdgeSlot.left 1, EdgeSource.sample 1 (-1))] → ReadOk d s dr' dc') ∧
    admitted s.platform (saddr d s.latch 2 (-1)) (sampleBytes d) = false := by
  refine ⟨by decide, by decide, fun slot dr dc h => ?_, by decide⟩
  simp only [List.mem_cons, List.not_mem_nil, or_false, Prod.mk.injEq, EdgeSource.sample.injEq] at h
  rcases h with ⟨-, rfl, rfl⟩ | ⟨-, rfl, rfl⟩ <;> exact ⟨by decide, by decide⟩

/-- UnadmittedWriteSticks: memory ends one byte before the last destination sample, every read admitted. -/
theorem witness_UnadmittedWriteSticks :
    let s := capped 68 (scene 0x0C4)
    let d := desc4 true true false
    s.mem.wf ∧ checkCommand d s.latch = none ∧ ReadsOk (needsOf .d135) d s ∧ ¬ WritesOk d s := by
  refine ⟨by decide, by decide, readsOk_iff.mpr ?_, fun h => ?_⟩
  · show ∀ e ∈ edgePlan (needsOf .d135) (desc4 true true false) (operands 0x0C4),
      sourceValue (desc4 true true false) (capped 68 (scene 0x0C4)) e.2 = .value (valueOf _ _ e.2)
    decide
  · exact absurd (h 3 3 (by decide) (by decide)) (by decide)

/-- StuckUntilReset: a stuck command, its next input not a reset, and a START. -/
theorem witness_StuckUntilReset :
    let s : State := { scene 0x1C1 with stuck := true, inputs := [.host (.writeReg 0x20 4 1)] }
    s.status.busy = true ∧ s.stuck = true ∧ s.inputs.head? ≠ some .reset ∧ (∃ t, step s = .next t) ∧
      regWriteNext s 0x20 4 1 [] ∧ bitOf 1 0 = true :=
  ⟨rfl, rfl, by decide, ⟨_, rfl⟩, rfl, by decide⟩

/-- FaultingCommandWritesNothing: STRIDE too small turns FAULT on. -/
theorem witness_FaultingCommandWritesNothing :
    ∃ t, exec (.v (desc4 false true false)) (running ⟨0x081, 3, 17, 0, 1, 1, 16, 16⟩ plane) = .next t ∧
      (running ⟨0x081, 3, 17, 0, 1, 1, 16, 16⟩ plane).status.fault = false ∧ t.status.fault = true :=
  ⟨_, rfl, rfl, rfl⟩

/-- ControlRegister: a read; a write with bit 0 = 0; a START while BUSY, while halted, and while idle. -/
theorem witness_ControlRegister :
    regReadNext (hostScene (.readReg 0x20 4)) 0x20 4 [] ∧
    (regWriteNext (hostScene (.writeReg 0x20 4 0xFFFFFFFE)) 0x20 4 0xFFFFFFFE [] ∧ bitOf 0xFFFFFFFE 0 = false) ∧
    (regWriteNext { scene 0x1C1 with inputs := [.host (.writeReg 0x20 4 1)] } 0x20 4 1 [] ∧ bitOf 1 0 = true ∧
      (scene 0x1C1).status.busy = true) ∧
    (regWriteNext { hostScene (.writeReg 0x20 4 3) with status := ⟨false, true, .reservedBits⟩ } 0x20 4 3 [] ∧
      bitOf 3 0 = true) ∧
    (regWriteNext (hostScene (.writeReg 0x20 4 1)) 0x20 4 1 [] ∧ (hostScene (.writeReg 0x20 4 1)).status.busy = false ∧
      (hostScene (.writeReg 0x20 4 1)).status.fault = false) :=
  ⟨rfl, ⟨rfl, by decide⟩, ⟨rfl, by decide, rfl⟩, ⟨rfl, by decide⟩, rfl, rfl, rfl⟩

/-- RegisterMap: the first and the last register of the block. -/
theorem witness_RegisterMap :
    regReadNext (hostScene (.readReg 0x00 4)) 0x00 4 [] ∧ regReadNext (hostScene (.readReg 0x3C 4)) 0x3C 4 [] ∧
    0x3C % 4 = 0 ∧ 0x3C < 0x40 :=
  ⟨rfl, rfl, by decide, by decide⟩

/-- OperandWriteReadsBack: the last operand register, all bits set. -/
theorem witness_OperandWriteReadsBack :
    0x1C ∈ operandOffsets ∧ (hostScene (.writeReg 0x1C 4 0xFFFFFFFF)).status.busy = false ∧
    regWriteNext (hostScene (.writeReg 0x1C 4 0xFFFFFFFF)) 0x1C 4 0xFFFFFFFF [] :=
  ⟨by decide, rfl, rfl⟩

/-- ReadOnlyOffsetsIgnoreWrites: STATUS, and the last reserved offset. -/
theorem witness_ReadOnlyOffsetsIgnoreWrites :
    regWriteNext (hostScene (.writeReg 0x24 4 0xFFFFFFFF)) 0x24 4 0xFFFFFFFF [] ∧
    regWriteNext (hostScene (.writeReg 0x3C 4 1)) 0x3C 4 1 [] :=
  ⟨rfl, rfl⟩

theorem scene_inv : Inv (scene 0x1C1) :=
  ⟨by decide, by decide, by decide, by decide, by decide⟩

/-- StatusWordFields's last clause, InvariantKept. -/
theorem witness_InvariantKept :
    Inv (scene 0x1C1) ∧ fieldOf (statusWord (scene 0x1C1).status) 1 1 = 0 ∧ (∃ t, step (scene 0x1C1) = .next t) :=
  ⟨scene_inv, by decide, ⟨_, rfl⟩⟩

/-- RegisterAccessRefusals: a wrong width, a wrong alignment, and an operand write while BUSY. -/
theorem witness_RegisterAccessRefusals :
    (regReadNext (hostScene (.readReg 0x00 2)) 0x00 2 [] ∧ (2 ≠ 4)) ∧
    (regWriteNext (hostScene (.writeReg 0x3F 4 0)) 0x3F 4 0 [] ∧ 0x3F % 4 ≠ 0 ∧ 0x3F < 0x40) ∧
    (0x1C ∈ operandOffsets ∧ (scene 0x1C1).status.busy = true ∧
      regWriteNext { scene 0x1C1 with inputs := [.host (.writeReg 0x1C 4 0)] } 0x1C 4 0 []) :=
  ⟨⟨rfl, by decide⟩, ⟨rfl, by decide, by decide⟩, by decide, rfl, rfl⟩

/-- FootprintAccessRefused: the corner, and the last byte of the block, which memory need not admit. -/
theorem witness_FootprintAccessRefused :
    (scene 0x1C4).status.busy = true ∧ decode (scene 0x1C4).latch.cmd = .ok (.d135 (desc4 true true true)) ∧
    checkCommand (desc4 true true true) (scene 0x1C4).latch = none ∧
    InFootprint (.d135 (desc4 true true true)) (scene 0x1C4).latch 0 ∧
    InFootprint (.d135 (desc4 true true true)) (scene 0x1C4).latch 68 ∧
    admitted (scene 0x1C4).platform (68 : Nat) 1 = true ∧ admitted (capped 68 (scene 0x1C4)).platform (68 : Nat) 1 = false := by
  refine ⟨rfl, by decide, by decide, .inl ⟨.corner, -1, -1, by decide, by decide, by decide⟩, .inr fun h => ?_,
    by decide, by decide⟩
  exact h 3 3 (by decide) (by decide) (by decide)

/-- HostMemoryAccess: a write and a read, the block idle; and the byte after the block's last one, a command running. -/
theorem witness_HostMemoryAccess :
    ((hostScene (.writeMem 0x1000 2 0x1234)).mem.wf ∧ (hostScene (.writeMem 0x1000 2 0x1234)).status.busy = false ∧
      admitted (hostScene (.writeMem 0x1000 2 0x1234)).platform (0x1000 : Nat) 2 = true ∧
      (hostScene (.writeMem 0x1000 2 0x1234)).inputs = [.host (.writeMem 0x1000 2 0x1234)] ∧
      (hostScene (.readMem 0x1000 2)).inputs = [.host (.readMem 0x1000 2)]) ∧
    (∀ s : State, s = { scene 0x1C4 with inputs := [.host (.writeMem 69 2 0x1234)] } →
      s.mem.wf ∧ admitted s.platform (69 : Nat) 2 = true ∧ s.status.busy = true ∧
      ∀ i, decode s.latch.cmd = .ok i → checkCommand (descOf i) s.latch = none →
        ∀ a : Nat, 69 ≤ a → a < 69 + 2 → ¬ InFootprint i s.latch a) := by
  refine ⟨⟨by decide, rfl, by decide, rfl, rfl⟩, ?_⟩
  rintro s rfl
  refine ⟨by decide, by decide, rfl, fun i hd hc a h1 h2 hf => ?_⟩
  exact absurd (touchesRunning_iff.mpr ⟨rfl, i, hd, hc, a, h1, h2, hf⟩) (by decide)

/-- FaultIsSticky: a faulted idle block, next a START. -/
theorem witness_FaultIsSticky :
    let s : State := { hostScene (.writeReg 0x20 4 1) with status := ⟨false, true, .reservedBits⟩ }
    s.status.fault = true ∧ s.inputs.head? ≠ some .reset ∧ (∃ t, step s = .next t) ∧ s.status.busy = false ∧
      regWriteNext s 0x20 4 1 [] :=
  ⟨rfl, by decide, ⟨_, rfl⟩, rfl, rfl⟩

/-- IdleBlockHolds: the machine right after reset; and a running command whose memory shrinks to 68 bytes. -/
theorem witness_IdleBlockHolds :
    (State.reset.status.busy = false ∧ State.reset.inputs = []) ∧
    ({ scene 0x1C4 with inputs := [.allocation [⟨0, 68⟩]] } : State).inputs = [.allocation [⟨0, 68⟩]] ∧
    admitted (capped 68 (scene 0x1C4)).platform 67 1 = true ∧ admitted (capped 68 (scene 0x1C4)).platform 67 2 = false := by
  decide

/-- ResetEvent: a running command, a stuck one, and an illegal descriptor. -/
theorem witness_ResetEvent :
    let s : State := { scene 0x1C9 with inputs := [.reset] }
    s.mem.wf ∧ decode s.latch.cmd = .ok (.tm (desc4 true true true)) ∧ checkCommand (desc4 true true true) s.latch = none ∧
      ReadsOk (needsOf .tm) (desc4 true true true) s ∧ ({ s with stuck := true } : State).stuck = true ∧
      decode (scene 0x1000).latch.cmd = .error .reservedBits :=
  ⟨by decide, by decide, by decide, witness_runs_tm.1.reads, rfl, by decide⟩

/-- ResetEvent: a sample that is not admitted; a command that fails its check; and one with a read that is not admitted. -/
theorem witness_ResetEvent_unchanged :
    admitted (capped 68 (scene 0x1C9)).platform (saddr (desc4 true true true) (scene 0x1C9).latch 3 3) 1 = false ∧
    checkCommand (desc4 false true false) ⟨0x081, 3, 17, 0, 1, 1, 16, 16⟩ ≠ none ∧
    ¬ ReadsOk (needsOf .tm) (desc4 true true true) (capped 0 (scene 0x1C9)) := by
  refine ⟨by decide, by decide, fun h => ?_⟩
  exact absurd (h .corner (-1) (-1) (by decide)).1 (by decide)

/-- AssembledLinesDecode: a line that assembles, DC by its suffixes, a pseudo form, a pseudo form with `.L`, a 10-bit line
without `.S16`. -/
theorem witness_AssembledLinesDecode :
    assembleLine ⟨.d45, .n32, true, true, true, .bits12, true, 0, 64, 0, 4, 64, 64⟩ = some 0x00000DF3#32 ∧
    (assembleLine ⟨.dc, .n4, true, false, false, .bits8, false, 0, 8, 4, 0, 8, 8⟩ = some 0x00000040#32 ∧
      assembleLine ⟨.dc, .n4, false, true, false, .bits8, false, 0, 8, 0, 4, 8, 8⟩ = some 0x00000080#32) ∧
    (pseudoFlags .dcLeft = some (true, false) ∧
      assembleLine ⟨.dcLeft, .n4, false, false, true, .bits8, false, 0, 8, 4, 0, 8, 8⟩ = some 0x00000140#32) ∧
    (pseudoFlags .dc128 = some (false, false) ∧
      assembleLine ⟨.dc128, .n4, true, false, false, .bits8, false, 0, 8, 4, 0, 8, 8⟩ = none) ∧
    assembleLine ⟨.tm, .n4, false, false, false, .bits10, false, 0, 8, 4, 0, 8, 8⟩ = none := by decide

/-- AssembledLineRuns: `IPRED.TM.4.L.A` on `plane`, two polls. -/
theorem witness_AssembledLineRuns :
    let l : AsmLine := ⟨.tm, .n4, true, true, false, .bits8, false, 17, 16, 1, 1, 16, 16⟩
    let s : State := { State.reset with mem := plane, inputs := lineEvents State.reset.platform 0x0C9 l 2 ++ [] }
    assembleLine l = some 0x0C9 ∧ decode 0x0C9 = .ok (.tm (desc4 true true false)) ∧
    operands 0x0C9 = ⟨0x0C9, BitVec.ofNat 32 l.stride, BitVec.ofNat 32 l.dst, BitVec.ofNat 32 (l.dst / 2 ^ 32),
      BitVec.ofNat 32 l.x0, BitVec.ofNat 32 l.y0, BitVec.ofNat 32 l.fw, BitVec.ofNat 32 l.fh⟩ ∧
    Inv s ∧ s.status = ⟨false, false, .none⟩ ∧
    Runs .tm (desc4 true true false) { s with latch := operands 0x0C9 } :=
  ⟨by decide, by decide, by decide, ⟨by decide, by decide, by decide, by decide, by decide⟩, rfl,
    runs_of (by decide) (by decide) (by decide)⟩

end Sys2Proof.Tests
end

section
/-! SUPPORT. The range of what a mode rule predicts (R13, R14, R102): the arithmetic primitives, one bound for each mode rule from the edge entries it needs, and the edges a command fills. -/

namespace Sys2Proof.Machine

open Sys2Proof.Safety

/-! The arithmetic primitives (R13, R14, R15). -/

theorem avg2_eq_shiftRight (a b : Nat) : avg2 a b = (a + b + 1) >>> 1 := by
  rw [avg2, Nat.shiftRight_eq_div_pow]

theorem avg3_eq_shiftRight (a b c : Nat) : avg3 a b c = (a + 2 * b + c + 2) >>> 2 := by
  rw [avg3, Nat.shiftRight_eq_div_pow]

theorem avg2_self (a : Nat) : avg2 a a = a := by
  unfold avg2; omega

theorem avg3_self (a : Nat) : avg3 a a a = a := by
  unfold avg3; omega

theorem avg2_le {M a b : Nat} (ha : a ≤ M) (hb : b ≤ M) : avg2 a b ≤ M := by
  unfold avg2; omega

theorem avg3_le {M a b c : Nat} (ha : a ≤ M) (hb : b ≤ M) (hc : c ≤ M) : avg3 a b c ≤ M := by
  unfold avg3; omega

theorem natCast_maxSample (bd : Nat) : (maxSample bd : Int) = 2 ^ bd - 1 := by
  rw [maxSample, Nat.cast_sub Nat.one_le_two_pow]
  norm_cast

theorem natCast_clip (bd : Nat) (v : Int) : (clip bd v : Int) = min (max v 0) (maxSample bd) := by
  unfold clip; omega

theorem clip_le (bd : Nat) (v : Int) : clip bd v ≤ maxSample bd := by
  have := natCast_clip bd v
  omega

theorem baseValue_eq_shiftLeft (bd : Nat) : baseValue bd = 128 <<< (bd - 8) := by
  rw [baseValue, Nat.shiftLeft_eq]

theorem baseValue_le_maxSample {bd : Nat} (h : 8 ≤ bd) : baseValue bd ≤ maxSample bd := by
  have hpow : 2 ^ bd = 2 ^ 8 * 2 ^ (bd - 8) := by rw [← Nat.pow_add, Nat.add_sub_cancel' h]
  have hpos : 0 < 2 ^ (bd - 8) := Nat.two_pow_pos _
  unfold baseValue maxSample
  omega

theorem sumTo_le {M n : Nat} {f : Int → Nat} (h : ∀ i : Int, 0 ≤ i → i < n → f i ≤ M) : sumTo f n ≤ n * M := by
  induction n with
  | zero => simp [sumTo]
  | succ n ih =>
    have hsum := ih fun i h0 hi => h i h0 (by omega)
    have hlast := h n (by omega) (by omega)
    rw [sumTo, Nat.succ_mul]
    omega

/-- The rounded mean of `n` samples of at most `M`, the form of R141 to R143: half of the divisor is less than it. -/
theorem roundedMean_le {M n half sum : Nat} (hsum : sum ≤ n * M) (hhalf : half < n) : (sum + half) / n ≤ M := by
  rw [← Nat.lt_succ_iff, Nat.div_lt_iff_lt_mul (by omega), Nat.succ_mul, Nat.mul_comm]
  omega

/-! One bound for each mode rule. -/

section rules
variable {M N bd : Nat} {A L : Int → Nat} {r c : Nat}
  (hAR : ∀ i : Int, -1 ≤ i → i < ((2 * N : Nat) : Int) → A i ≤ M)
  (hA : ∀ i : Int, -1 ≤ i → i < (N : Int) → A i ≤ M)
  (hL : ∀ i : Int, 0 ≤ i → i < (N : Int) → L i ≤ M)

include hAR in
theorem predictD45_le : predictorOf .d45 N bd A L r c ≤ M := by
  simp only [predictorOf, predictD45]
  split
  · refine avg3_le (hAR _ ?_ ?_) (hAR _ ?_ ?_) (hAR _ ?_ ?_) <;> omega
  · exact hAR _ (by omega) (by omega)

include hAR in
theorem predictD63_le (hN : 2 ≤ N) (hr : r < N) (hc : c < N) : predictorOf .d63 N bd A L r c ≤ M := by
  simp only [predictorOf, predictD63]
  split
  · refine avg3_le (hAR _ ?_ ?_) (hAR _ ?_ ?_) (hAR _ ?_ ?_) <;> omega
  · refine avg2_le (hAR _ ?_ ?_) (hAR _ ?_ ?_) <;> omega

include hL in
theorem predictDcLeft_le (hN : 0 < N) : predictorOf .dcLeft N bd A L r c ≤ M :=
  roundedMean_le (sumTo_le hL) (by omega)

include hA in
theorem predictDcTop_le (hN : 0 < N) : predictorOf .dcTop N bd A L r c ≤ M :=
  roundedMean_le (sumTo_le fun i h0 => hA i (by omega)) (by omega)

include hA hL in
theorem predictDcBoth_le (hN : 0 < N) : predictorOf .dcBoth N bd A L r c ≤ M := by
  have hsumA := sumTo_le fun i h0 => hA i (by omega)
  have hsumL := sumTo_le hL
  exact roundedMean_le (by rw [Nat.mul_assoc]; omega) (by omega)

include hL in
theorem d207Sample_le (hr : r < N) : d207Sample N L r c ≤ M := by
  fun_induction d207Sample N L r c with
  | case1 r hlast => exact hL _ (by omega) (by omega)
  | case2 r hlast => refine avg2_le (hL _ ?_ ?_) (hL _ ?_ ?_) <;> omega
  | case3 r hlast => exact hL _ (by omega) (by omega)
  | case4 r hlast hnext => refine avg3_le (hL _ ?_ ?_) (hL _ ?_ ?_) (hL _ ?_ ?_) <;> omega
  | case5 r hlast hnext => refine avg3_le (hL _ ?_ ?_) (hL _ ?_ ?_) (hL _ ?_ ?_) <;> omega
  | case6 r j hlast => exact hL _ (by omega) (by omega)
  | case7 r j hlast ih => exact ih (by omega)

include hA hL

theorem d135Sample_le (hr : r < N) (hc : c < N) : d135Sample A L r c ≤ M := by
  fun_induction d135Sample A L r c with
  | case1 => refine avg3_le (hL _ ?_ ?_) (hA _ ?_ ?_) (hA _ ?_ ?_) <;> omega
  | case2 j => refine avg3_le (hA _ ?_ ?_) (hA _ ?_ ?_) (hA _ ?_ ?_) <;> omega
  | case3 => refine avg3_le (hA _ ?_ ?_) (hL _ ?_ ?_) (hL _ ?_ ?_) <;> omega
  | case4 i => refine avg3_le (hL _ ?_ ?_) (hL _ ?_ ?_) (hL _ ?_ ?_) <;> omega
  | case5 i j ih => exact ih (by omega) (by omega)

theorem d117Sample_le (hr : r < N) (hc : c < N) : d117Sample A L r c ≤ M := by
  fun_induction d117Sample A L r c with
  | case1 j => refine avg2_le (hA _ ?_ ?_) (hA _ ?_ ?_) <;> omega
  | case2 => refine avg3_le (hL _ ?_ ?_) (hA _ ?_ ?_) (hA _ ?_ ?_) <;> omega
  | case3 j => refine avg3_le (hA _ ?_ ?_) (hA _ ?_ ?_) (hA _ ?_ ?_) <;> omega
  | case4 => refine avg3_le (hA _ ?_ ?_) (hL _ ?_ ?_) (hL _ ?_ ?_) <;> omega
  | case5 i => refine avg3_le (hL _ ?_ ?_) (hL _ ?_ ?_) (hL _ ?_ ?_) <;> omega
  | case6 i j ih => exact ih (by omega) (by omega)

theorem d153Sample_le (hr : r < N) (hc : c < N) : d153Sample A L r c ≤ M := by
  fun_induction d153Sample A L r c with
  | case1 => refine avg2_le (hL _ ?_ ?_) (hA _ ?_ ?_) <;> omega
  | case2 i => refine avg2_le (hL _ ?_ ?_) (hL _ ?_ ?_) <;> omega
  | case3 => refine avg3_le (hL _ ?_ ?_) (hA _ ?_ ?_) (hA _ ?_ ?_) <;> omega
  | case4 => refine avg3_le (hA _ ?_ ?_) (hL _ ?_ ?_) (hL _ ?_ ?_) <;> omega
  | case5 i => refine avg3_le (hL _ ?_ ?_) (hL _ ?_ ?_) (hL _ ?_ ?_) <;> omega
  | case6 j => refine avg3_le (hA _ ?_ ?_) (hA _ ?_ ?_) (hA _ ?_ ?_) <;> omega
  | case7 i j ih => exact ih (by omega) (by omega)

end rules

/-- The edge entries that `needs` names (R160) hold samples of at most `M`. -/
structure EdgesInRange (needs : EdgeNeeds) (N M : Nat) (A L : Int → Nat) : Prop where
  above : needs.above ≠ .nothing → ∀ i : Int, -1 ≤ i → i < aboveCount needs.above N → A i ≤ M
  left : needs.left = true → ∀ i : Int, 0 ≤ i → i < N → L i ≤ M

/-- R102 from the entries the kind needs alone (R160). -/
theorem predictorOf_le {k : Kind} {N bd r c : Nat} {A L : Int → Nat} (hN : 2 ≤ N) (hbd : 8 ≤ bd)
    (h : EdgesInRange (needsOf k) N (maxSample bd) A L) (hr : r < N) (hc : c < N) :
    predictorOf k N bd A L r c ≤ maxSample bd := by
  obtain ⟨hA, hL⟩ := h
  cases k with
  | v => exact hA nofun c (by omega) (Int.ofNat_lt.mpr hc)
  | h => exact hL rfl r (by omega) (Int.ofNat_lt.mpr hr)
  | d45 => exact predictD45_le (hA nofun)
  | d135 => exact d135Sample_le (hA nofun) (hL rfl) hr hc
  | d117 => exact d117Sample_le (hA nofun) (hL rfl) hr hc
  | d153 => exact d153Sample_le (hA nofun) (hL rfl) hr hc
  | d207 => exact d207Sample_le (hL rfl) hr
  | d63 => exact predictD63_le (hA nofun) hN hr hc
  | tm => exact clip_le _ _
  | dcBoth => exact predictDcBoth_le (hA nofun) (hL rfl) (by omega)
  | dcLeft => exact predictDcLeft_le (hL rfl) (by omega)
  | dcTop => exact predictDcTop_le (hA nofun) (by omega)
  | dc128 => exact baseValue_le_maxSample hbd

theorem aboveCount_le (n : AboveNeed) (N : Nat) : aboveCount n N ≤ 2 * N := by
  cases n <;> simp only [aboveCount] <;> omega

theorem depthOf_ge (d : Desc) : 8 ≤ depthOf d := by
  unfold depthOf; split <;> omega

/-- The edge buffers of a command whose reads are good hold samples of the command's depth (R44, R161). -/
theorem edgesInRange_filledState {k : Kind} {d : Desc} {s : State} (h : ReadsOk (needsOf k) d s) :
    EdgesInRange (needsOf k) (blockSide d) (maxSample (depthOf d)) (aboveEdge (filledState k d s))
      (leftEdge (filledState k d s)) where
  above hn i h0 hi := (aboveEdge_fill h hn h0 hi).trans_le (frameAbove_le h hn h0 hi)
  left hn i h0 hi := by
    lift i to Nat using h0
    have hi := Int.ofNat_lt.mp hi
    exact (leftEdge_fill h hn hi).trans_le (frameLeft_le h hn hi)

/-! The statements. -/

/-- Settles O8: the edges in range include the entries each kind needs. -/
theorem predictInRange : Obligations.PredictInRange := by
  unfold Obligations.PredictInRange
  intro k N bd A L hN hbd hA hL r c hr hc
  have hN2 : 2 ≤ N := (by decide : ∀ n ∈ [4, 8, 16, 32], 2 ≤ n) N hN
  have hbd8 : 8 ≤ bd := (by decide : ∀ b ∈ [8, 10, 12], 8 ≤ b) bd hbd
  refine predictorOf_le hN2 hbd8 ⟨fun _ i h0 hi => hA i h0 ?_, fun _ => hL⟩ hr hc
  have := aboveCount_le (needsOf k).above N
  omega

/-- Settles O28: what memory holds is the prediction from the filled edges, which are in range. -/
theorem writtenSamplesFitDepth : Obligations.WrittenSamplesFitDepth := by
  unfold Obligations.WrittenSamplesFitDepth
  intro i s t hm hruns hexec r c hr hc
  obtain ⟨t', hrun, hwrote⟩ := runCommand_of_runs (predictorOf (kindOf i)) hm hruns
  rw [exec_eq_runCommand, hrun] at hexec
  cases hexec
  have hside : 2 ≤ blockSide (descOf i) := Nat.le_trans (by decide) (blockSide_ge _)
  rw [hwrote.samples r c hr hc]
  exact (Nat.mod_le _ _).trans
    (predictorOf_le hside (depthOf_ge _) (edgesInRange_filledState hruns.reads) hr hc)

/-- Settles O7, from the primitives' equations and bounds. -/
theorem arithmeticPrimitives : Obligations.ArithmeticPrimitives := by
  unfold Obligations.ArithmeticPrimitives
  refine ⟨fun a b c => ⟨avg2_eq_shiftRight a b, avg3_eq_shiftRight a b c⟩, fun a => ⟨avg2_self a, avg3_self a⟩,
    fun bd a b c ha hb hc => ⟨avg2_le ha hb, avg3_le ha hb hc⟩, fun bd v => ?_,
    fun bd _ => baseValue_eq_shiftLeft bd, by decide, by decide, by decide⟩
  rw [natCast_clip, natCast_maxSample]

end Sys2Proof.Machine
end

section
/-! SUPPORT. The invariants of the state (R30, R34, R40, R227): the ways a command ends, memory inside the address space, and one preservation lemma for each thing that moves the machine. -/

namespace Sys2Proof.Machine

open Sys2Proof.Safety

/-! The fault codes that end a command (R200). -/

/-- CheckCommand raises codes 5 to 9 (R201). -/
theorem checkCommand_code {d : Desc} {g : OperandRegs} {k : FaultCode} (h : checkCommand d g = some k) :
    5 ≤ faultNumber k := by
  unfold checkCommand at h
  split_ifs at h <;> cases h <;> decide

/-- An illegal descriptor raises codes 2 to 5 (R66). -/
theorem decodeFault_code (e : DecodeError) : 2 ≤ faultNumber (decodeFault e) := by
  cases e <;> decide

/-- A code from 2 on is neither "no fault" nor START while BUSY (R200). -/
theorem ne_of_code {k : FaultCode} (h : 2 ≤ faultNumber k) : k ≠ .none ∧ k ≠ .startWhileBusy := by
  constructor <;> rintro rfl <;> exact absurd h (by decide)

/-- How a command can end, with the edge buffers it leaves forgotten: a fault of code 5 or more, a read that is not
admitted, all writes done, or a write that is not admitted. -/
theorem runCommand_ends {needs : EdgeNeeds} {p : Predictor} {d : Desc} {s t : State}
    (h : runCommand needs p d s = .next t) :
    (∃ k, 5 ≤ faultNumber k ∧ t = raiseFault k s) ∨
    ∃ u, EdgesOnly s u ∧
      (t = stallReading u ∨
       ((∀ w ∈ writesOf needs p d s, admitted u.platform w.1 (sampleBytes d) = true) ∧
          t = completeCommand (sampleBytes d) (writesOf needs p d s) u) ∨
       t = stallWriting (sampleBytes d) (writesOf needs p d s) u) := by
  have hE := fun plan => edgesOnly_storeAll d s plan s
  rcases runCommand_cases needs p d s with
    ⟨k, hk, hr⟩ | ⟨-, ⟨pre, slot, src, post, -, -, ⟨-, hr⟩ | ⟨-, hr⟩⟩ | ⟨-, ⟨hw, hr⟩ | ⟨-, hr⟩⟩⟩
  all_goals
    rw [h] at hr
    injection hr with hr
  · exact .inl ⟨k, checkCommand_code hk, hr⟩
  · exact .inl ⟨.sampleOutOfRange, by decide, by rw [hr, raiseFault_edgesOnly (by decide) (hE pre)]⟩
  · exact .inr ⟨_, hE pre, .inl hr⟩
  · exact .inr ⟨_, hE _, .inr (.inl ⟨by rwa [(hE _).platform], hr⟩)⟩
  · exact .inr ⟨_, hE _, .inr (.inr hr)⟩

/-! Every listed byte lies in the address space (R40, R43). -/

/-- The listed bytes of `m` lie in `[0, 2^ADDR_W)`: `Inv`'s clause on memory (R40). -/
def InAddressSpace (p : Platform) (m : Memory) : Prop :=
  ∀ c ∈ m, c.1 < 2 ^ p.addrW

section addressSpace
variable {p : Platform} {m : Memory} {n : Nat} {ws : List (Int × Nat)}

/-- The bytes of an admitted request lie in the address space (R43). -/
theorem lt_of_admitted {a : Int} {b : Nat} (ha : admitted p a n = true) (hb : b < a.toNat + n) :
    b < 2 ^ p.addrW := by
  have hlow := saddr_nonneg_of_admitted ha
  have hhigh := bound_of_admitted ha
  zify
  omega

theorem writeBytes_inAddressSpace {a : Nat} (v : Nat) (hm : InAddressSpace p m) (ha : admitted p a n = true) :
    InAddressSpace p (writeBytes m a n v) := by
  intro c hc
  rcases mem_writeBytes hc with ⟨-, hlt⟩ | hc
  · exact lt_of_admitted ha (by simpa using hlt)
  · exact hm c hc

theorem writeSamples_inAddressSpace (hm : InAddressSpace p m) (hw : ∀ w ∈ ws, admitted p w.1 n = true) :
    InAddressSpace p (writeSamples n ws m) := by
  intro c hc
  rcases mem_writeSamples hc with ⟨w, hmem, -, hlt⟩ | hc
  · exact lt_of_admitted (hw w hmem) hlt
  · exact hm c hc

theorem writeSomeSamples_inAddressSpace (hm : InAddressSpace p m) (use k : Nat) :
    InAddressSpace p (writeSomeSamples p use k n ws m) := by
  intro c hc
  rcases mem_writeSomeSamples hc with ⟨w, -, hadm, -, hlt⟩ | hc
  · exact lt_of_admitted hadm hlt
  · exact hm c hc

end addressSpace

theorem abandonedMemory_inAddressSpace {s : State} (hm : InAddressSpace s.platform s.mem) :
    InAddressSpace s.platform (abandonedMemory s) := by
  rcases abandonedMemory_cases s with h | ⟨i, -, -, -, -, -, h⟩ <;> rw [h]
  · exact hm
  · exact writeSomeSamples_inAddressSpace hm _ _

/-! The invariants after each operation. -/

section inv
variable {s : State} (h : Inv s)
include h

theorem inv_afterInput : Inv (afterInput s) := { h with }

theorem inv_of_edgesOnly {t : State} (hE : EdgesOnly s t) : Inv t := by
  rw [hE]
  exact { h with }

/-- A fault keeps the invariants: of code 1 it leaves the running command (R203), and a command that a later code ends
was not stuck. -/
theorem inv_raiseFault {k : FaultCode} (hk : k ≠ .none) (hs : k ≠ .startWhileBusy → s.stuck = false) :
    Inv (raiseFault k s) where
  memWf := by simpa using h.memWf
  memBound := by simpa using h.memBound
  faultCode := by
    rw [raiseFault_fault, raiseFault_faultCode]
    split
    · next hf => rw [← h.faultCode, hf]
    · simp [hk]
  stuckBusy := by
    rw [raiseFault_stuck, raiseFault_busy]
    split
    · exact h.stuckBusy
    · next hne => simp [hs hne]
  latchRegs := by
    rw [raiseFault_busy]
    split
    · next hstart => subst hstart; exact h.latchRegs
    · nofun

theorem inv_stallReading (hb : s.status.busy = true) : Inv (stallReading s) :=
  { h with stuckBusy := fun _ => hb }

theorem inv_completeCommand {n : Nat} {ws : List (Int × Nat)} (hs : s.stuck = false)
    (hw : ∀ w ∈ ws, admitted s.platform w.1 n = true) : Inv (completeCommand n ws s) where
  memWf := writeSamples_wf h.memWf n ws
  memBound := writeSamples_inAddressSpace h.memBound hw
  faultCode := h.faultCode
  stuckBusy := by simp [hs]
  latchRegs := by simp

theorem inv_stallWriting (n : Nat) (ws : List (Int × Nat)) (hb : s.status.busy = true) :
    Inv (stallWriting n ws s) where
  memWf := writeSomeSamples_wf h.memWf _ _ _ n ws
  memBound := writeSomeSamples_inAddressSpace h.memBound _ _
  faultCode := h.faultCode
  stuckBusy := fun _ => hb
  latchRegs := h.latchRegs

/-- A running command that is not stuck keeps the invariants, whichever way it ends. -/
theorem inv_runCommand {needs : EdgeNeeds} {p : Predictor} {d : Desc} {t : State} (hb : s.status.busy = true)
    (hs : s.stuck = false) (hrun : runCommand needs p d s = .next t) : Inv t := by
  rcases runCommand_ends hrun with ⟨k, hk, rfl⟩ | ⟨u, hE, hend⟩
  · exact inv_raiseFault h (ne_of_code (by omega)).1 fun _ => hs
  · have hu := inv_of_edgesOnly h hE
    have hub : u.status.busy = true := by rw [hE.status, hb]
    rcases hend with rfl | ⟨hw, rfl⟩ | rfl
    · exact inv_stallReading hu hub
    · exact inv_completeCommand hu (by rw [hE.stuck, hs]) hw
    · exact inv_stallWriting hu _ _ hub

theorem inv_startCommand : Inv (startCommand s) := by
  unfold startCommand
  split
  · exact inv_raiseFault h (by decide) fun hne => absurd rfl hne
  · split
    · exact h
    · exact { h with stuckBusy := fun _ => rfl, latchRegs := fun _ => rfl }

/-- A host access keeps the invariants: it writes operands only while BUSY = 0 (R31), and bytes that are admitted. -/
theorem inv_hostOp {op : HostOp} {t : State} (hop : hostOp op s = .next t) : Inv t := by
  rcases hostOp_cases hop with ⟨r, rfl⟩ | ⟨g, hidle, rfl⟩ | rfl | rfl | ⟨a, n, v, hadm, -, rfl⟩
  · exact { h with }
  · exact { h with latchRegs := fun hb => absurd hb (by simp [hidle]) }
  · exact h
  · exact inv_startCommand h
  · exact { h with
      memWf := writeBytes_wf h.memWf a n v
      memBound := writeBytes_inAddressSpace v h.memBound hadm }

theorem inv_resetBlock : Inv (resetBlock s) where
  memWf := abandonedMemory_wf h.memWf
  memBound := abandonedMemory_inAddressSpace h.memBound
  faultCode := by simp
  stuckBusy := by simp
  latchRegs := by simp

/-- A change of the allocation keeps the invariants, as ADDR_W stays. -/
theorem inv_allocation (rs : List Region) : Inv { s with platform := { s.platform with alloc := rs } } :=
  { h with }

end inv

/-- Settles O58, one preservation lemma for each move of `step_cases`. -/
theorem invariantKept : Obligations.InvariantKept := by
  unfold Obligations.InvariantKept
  intro s t hs hstep
  have h := inv_afterInput hs
  rcases step_cases hstep with
    ⟨⟨hb, hstuck, -⟩, ⟨i, -, hexec⟩ | ⟨e, -, rfl⟩⟩ | ⟨-, rfl⟩ | ⟨op, rest, -, hop⟩ | ⟨rest, -, rfl⟩ | ⟨rs, rest, -, rfl⟩
  · rw [exec_eq_runCommand] at hexec
    exact inv_runCommand h hb hstuck hexec
  · exact inv_raiseFault h (ne_of_code (decodeFault_code e)).1 fun _ => hstuck
  · exact h
  · exact inv_hostOp h hop
  · exact inv_resetBlock h
  · exact inv_allocation h rs

/-- Settles O57: right after reset memory lists no byte, and the block is idle without a fault. -/
theorem invariantAtReset : Obligations.InvariantAtReset := by
  unfold Obligations.InvariantAtReset
  exact ⟨reset_mem_wf, nofun, by decide, by decide, by decide⟩

end Sys2Proof.Machine
end

section
/-! SUPPORT. The descriptor's fields in the command it decodes to (R35, R61, R63, R64, R67), and what every command leaves unchanged (R105, R203). -/

namespace Sys2Proof.Machine

open Sys2Proof.Safety

/-! What a word that decodes says of its command. -/

/-- R61, R67: the kind MODE and, for MODE 0, (HAVE_LEFT, HAVE_ABOVE) select; `of_instrOfMode` ties it to the decoder. -/
def kindOfMode (mode : Nat) (haveLeft haveAbove : Bool) : Option Kind :=
  match mode with
  | 0 =>
    match haveLeft, haveAbove with
    | true, true => some .dcBoth
    | true, false => some .dcLeft
    | false, true => some .dcTop
    | false, false => some .dc128
  | 1 => some .v
  | 2 => some .h
  | 3 => some .d45
  | 4 => some .d135
  | 5 => some .d117
  | 6 => some .d153
  | 7 => some .d207
  | 8 => some .d63
  | 9 => some .tm
  | _ => none

theorem of_instrOfMode {mode : Nat} {d : Desc} {i : Instr} (h : instrOfMode mode d = some i) :
    descOf i = d ∧ kindOfMode mode d.haveLeft d.haveAbove = some (kindOf i) := by
  obtain ⟨t, l, a, r, b, s⟩ := d
  unfold instrOfMode at h
  split at h
  case h_1 => cases l <;> cases a <;> cases h <;> exact ⟨rfl, rfl⟩
  case h_11 => cases h
  all_goals cases h; exact ⟨rfl, rfl⟩

/-- The fields of a word that decodes, as its command carries them (R60, R66, R67). -/
theorem decode_ok {w : Word} {i : Instr} (h : decode w = .ok i) :
    ∃ bd, bitDepthOfCode (fieldOf w 9 2) = some bd ∧
      descOf i = ⟨txSizeOfCode (fieldOf w 4 2), bitOf w 6, bitOf w 7, bitOf w 8, bd, bitOf w 11⟩ ∧
      kindOfMode (fieldOf w 0 4) (bitOf w 6) (bitOf w 7) = some (kindOf i) := by
  unfold decode at h
  split_ifs at h
  split at h
  · cases h
  · next bd hbd =>
    dsimp only at h
    split_ifs at h
    split at h
    · next j hj => cases h; exact ⟨bd, hbd, of_instrOfMode hj⟩
    · cases h

theorem fieldOf_lt (w : Word) (lo len : Nat) : fieldOf w lo len < 2 ^ len :=
  Nat.mod_lt _ (Nat.two_pow_pos len)

theorem blockSide_of_code {d : Desc} {c : Nat} (hc : c < 4) (h : d.txSize = txSizeOfCode c) :
    blockSide d = 4 * 2 ^ c := by
  unfold blockSide
  rw [h]
  interval_cases c <;> rfl

theorem depthOf_of_code {d : Desc} {c : Nat} (h : bitDepthOfCode c = some d.bitDepth) : depthOf d = 8 + 2 * c := by
  unfold bitDepthOfCode at h
  split at h
  case h_4 => cases h
  all_goals rw [depthOf, ← Option.some.inj h]

theorem sampleBytes_of_bit {d : Desc} {w : Word} {k : Nat} (h : d.sample16 = bitOf w k) :
    sampleBytes d = 1 + fieldOf w k 1 := by
  have hlt := fieldOf_lt w k 1
  unfold sampleBytes
  rw [h, bitOf]
  interval_cases fieldOf w k 1 <;> rfl

/-- Settles O4, from the word's fields in the command and the one command sequence. -/
theorem decodeFollowsDescriptor : Obligations.DecodeFollowsDescriptor := by
  unfold Obligations.DecodeFollowsDescriptor
  intro w i hw
  obtain ⟨bd, hbd, hdesc, hkind⟩ := decode_ok hw
  have hside : blockSide (descOf i) = 4 * 2 ^ fieldOf w 4 2 :=
    blockSide_of_code (fieldOf_lt w 4 2) (by rw [hdesc])
  have hdepth : depthOf (descOf i) = 8 + 2 * fieldOf w 9 2 := depthOf_of_code (by rw [hdesc, hbd])
  have hbytes : sampleBytes (descOf i) = 1 + fieldOf w 11 1 := sampleBytes_of_bit (by rw [hdesc])
  refine ⟨hside, hdepth, hbytes, by rw [hdesc], by rw [hdesc], by rw [hdesc],
    ?_, ?_, ?_, ?_, ?_, ?_, ?_, ?_, ?_, ?_, ?_, ?_, ?_, exec_eq_runCommand i⟩
  case refine_10 | refine_11 | refine_12 | refine_13 =>
    intro hmode hl ha
    rw [hmode, hl, ha] at hkind
    exact (Option.some.inj hkind).symm
  all_goals
    intro hmode
    rw [hmode] at hkind
    exact (Option.some.inj hkind).symm

/-! STATUS after a command (R203, R204). -/

theorem raiseFault_status {k : FaultCode} (hk : k ≠ .startWhileBusy) (s : State) :
    (raiseFault k s).status = faultedStatus s.status k := by
  simp only [raiseFault, if_neg hk]
  rfl

/-- STATUS after a command: a fault's, or as before but for BUSY. -/
theorem runCommand_status {needs : EdgeNeeds} {p : Predictor} {d : Desc} {s t : State}
    (h : runCommand needs p d s = .next t) :
    (∃ k, t.status = faultedStatus s.status k) ∨ ∃ b, t.status = { s.status with busy := b } := by
  rcases runCommand_ends h with ⟨k, hk, rfl⟩ | ⟨u, hE, rfl | ⟨-, rfl⟩ | rfl⟩
  · exact .inl ⟨k, raiseFault_status (ne_of_code (by omega)).2 s⟩
  · exact .inr ⟨s.status.busy, by rw [stallReading_status, hE.status]⟩
  · exact .inr ⟨false, by rw [completeCommand_status, hE.status]⟩
  · exact .inr ⟨s.status.busy, by rw [stallWriting_status, hE.status]⟩

/-- Settles O44, from the frame of the one command sequence and STATUS after it. -/
theorem commandFrame : Obligations.CommandFrame := by
  unfold Obligations.CommandFrame
  intro i s t hexec
  rw [exec_eq_runCommand] at hexec
  obtain ⟨hsame, hmem⟩ := runCommand_frame hexec
  obtain ⟨k, hst⟩ | ⟨b, hst⟩ := runCommand_status hexec
  · refine ⟨hsame, ?_, fun hf => ?_, ?_, hmem⟩
    · exact .inr (by rw [hst, faultedStatus])
    · simp [hst, faultedStatus, hf]
    · simp [hst, faultedStatus]
  · refine ⟨hsame, ?_, fun _ => ?_, fun _ => ?_, hmem⟩
    · exact .inl (by rw [hst])
    · rw [hst]
    · rw [hst]

end Sys2Proof.Machine
end

section
/-! SUPPORT. The register block (R23 to R31, R36): the register at each offset, what a host write of a register does, the three cases of START, and the fields of STATUS. -/

namespace Sys2Proof.Machine

open Sys2Proof.Safety

/-! The registers by their offset (R23). -/

/-- The registers that a host write does not store into (R29, R30). -/
def notOperand : List RegName :=
  [.ctrl, .status, .reserved]

theorem regAtOffset_reserved {off : Nat} (h : 0x28 ≤ off) : regAtOffset off = .reserved := by
  obtain ⟨k, rfl⟩ := Nat.exists_eq_add_of_le' h
  rfl

theorem regAtOffset_operand : ∀ off ∈ operandOffsets, regAtOffset off ∉ notOperand := by
  decide

theorem regAtOffset_injOn : ∀ off ∈ operandOffsets, ∀ off' ∈ operandOffsets,
    off' ≠ off → regAtOffset off' ≠ regAtOffset off := by
  decide

theorem operandOffset_aligned : ∀ off ∈ operandOffsets, off < 0x40 ∧ off % 4 = 0 := by
  decide

/-! Operand writes (R24 to R28). -/

section writeOperand
variable {g : OperandRegs} {r : RegName}

theorem writeOperand_some (hr : r ∉ notOperand) (v : Word) : ∃ g', writeOperand g r v = some g' := by
  cases r
  case ctrl | status | reserved => exact absurd hr (by decide)
  all_goals exact ⟨_, rfl⟩

theorem readRegister_writeOperand_same {g' : OperandRegs} {v : Word} (h : writeOperand g r v = some g') (s : State) :
    readRegister { s with regs := g' } r = v := by
  cases r <;> cases h <;> rfl

theorem readRegister_writeOperand_ne {s : State} {r' : RegName} {g' : OperandRegs} {v : Word}
    (h : writeOperand s.regs r v = some g') (hne : r' ≠ r) :
    readRegister { s with regs := g' } r' = readRegister s r' := by
  revert hne
  cases r <;> cases h <;> cases r' <;> simp [readRegister]

end writeOperand

/-! Host writes of a register (R29, R30, R31). -/

section writeRegister
variable {s : State} {r : RegName} {g : OperandRegs} {v : Word}

theorem writeRegister_idle (h : writeOperand s.regs r v = some g) (hb : s.status.busy = false) :
    writeRegister s r v = .next { s with regs := g } := by
  simp [writeRegister, h, hb]

theorem writeRegister_busy (h : writeOperand s.regs r v = some g) (hb : s.status.busy = true) :
    writeRegister s r v = .refused .operandWriteWhileBusy := by
  simp [writeRegister, h, hb]

variable (s v)

theorem writeRegister_ctrl :
    writeRegister s .ctrl v = .next (if bitOf v 0 = true then startCommand s else s) := by
  cases hv : bitOf v 0 <;> simp [writeRegister, writeOperand, hv]

theorem writeRegister_status : writeRegister s .status v = .next s := rfl

theorem writeRegister_reserved : writeRegister s .reserved v = .next s := rfl

end writeRegister

/-! START (R100). -/

section startCommand
variable {s : State}

/-- Code 1 leaves everything but STATUS, and BUSY (R203). -/
theorem raiseFault_start (s : State) :
    raiseFault .startWhileBusy s = { s with status := ⟨s.status.busy, true,
      if s.status.fault then s.status.faultCode else .startWhileBusy⟩ } := rfl

theorem startCommand_of_busy (hb : s.status.busy = true) : startCommand s = raiseFault .startWhileBusy s := by
  rw [startCommand, if_pos hb]

theorem startCommand_of_halted (hb : s.status.busy = false) (hf : s.status.fault = true) : startCommand s = s := by
  simp [startCommand, hb, hf]

theorem startCommand_of_idle (hb : s.status.busy = false) (hf : s.status.fault = false) :
    startCommand s = { s with latch := s.regs, status := { s.status with busy := true } } := by
  simp [startCommand, hb, hf]

end startCommand

/-! The fields of STATUS (R30). -/

theorem faultNumber_le (k : FaultCode) : faultNumber k ≤ 10 := by
  cases k <;> decide

theorem toNat_statusWord (st : Status) :
    (statusWord st).toNat = st.busy.toNat + st.fault.toNat * 2 + faultNumber st.faultCode * 256 := by
  have hb := st.busy.toNat_le
  have hf := st.fault.toNat_le
  have hk := faultNumber_le st.faultCode
  rw [statusWord, BitVec.toNat_ofNat]
  omega

/-- Settles O45: a read of CTRL, and a write in the three cases of START. -/
theorem controlRegister : Obligations.ControlRegister := by
  unfold Obligations.ControlRegister
  refine fun s => ⟨fun rest hin => step_regRead hin (by decide) (by decide), fun v rest hin => ?_⟩
  have hstep : step s = .next (if bitOf v 0 = true then startCommand (afterInput s) else afterInput s) := by
    rw [step_regWrite hin (by decide) (by decide)]
    exact writeRegister_ctrl _ v
  refine ⟨fun hv => ?_, fun hv hb => ?_, fun hv hb hf => ?_, fun hv hb hf => ?_⟩ <;> rw [hstep, hv]
  · rfl
  · rw [if_pos rfl, startCommand_of_busy (by simpa using hb), raiseFault_start, afterInput_status, hb]
  · rw [if_pos rfl, startCommand_of_halted (by simpa using hb) (by simpa using hf)]
  · rw [if_pos rfl, startCommand_of_idle (by simpa using hb) (by simpa using hf)]
    simp [hf]

/-- Settles O46: a host read is `readRegister` at the offset's register. -/
theorem registerMap : Obligations.RegisterMap := by
  unfold Obligations.RegisterMap
  intro s off rest h4 hoff hin
  refine ⟨readRegister s (regAtOffset off), step_regRead hin hoff h4,
    ?_, ?_, ?_, ?_, ?_, ?_, ?_, ?_, ?_, ?_, fun hres => ?_⟩
  case refine_11 => rw [regAtOffset_reserved hres]; rfl
  all_goals rintro rfl; rfl

/-- Settles O47: the operand at the offset takes the value, and no other register reads differently. -/
theorem operandWriteReadsBack : Obligations.OperandWriteReadsBack := by
  unfold Obligations.OperandWriteReadsBack
  intro s off v rest hoff hb hin
  obtain ⟨hlt, h4⟩ := operandOffset_aligned off hoff
  obtain ⟨g, hg⟩ := writeOperand_some (g := (afterInput s).regs) (regAtOffset_operand off hoff) v
  refine ⟨{ afterInput s with regs := g }, ?_, readRegister_writeOperand_same hg _, fun off' hoff' hne => ?_, rfl⟩
  · rw [step_regWrite hin hlt h4, writeRegister_idle hg hb]
  · rw [readRegister_writeOperand_ne hg (regAtOffset_injOn off hoff off' hoff' hne)]
    rfl

/-- Settles O48: the offset is that of STATUS or a reserved one. -/
theorem readOnlyOffsetsIgnoreWrites : Obligations.ReadOnlyOffsetsIgnoreWrites := by
  unfold Obligations.ReadOnlyOffsetsIgnoreWrites
  intro s off v rest h4 hlow hhigh hin
  rw [step_regWrite hin hhigh h4]
  rcases (by omega : off = 0x24 ∨ 0x28 ≤ off) with rfl | hres
  · exact writeRegister_status _ v
  · rw [regAtOffset_reserved hres]
    exact writeRegister_reserved _ v

/-- Settles O49: the word's value is the sum of its three fields at their places. -/
theorem statusWordFields : Obligations.StatusWordFields := by
  unfold Obligations.StatusWordFields
  intro s
  have hb := s.status.busy.toNat_le
  have hf := s.status.fault.toNat_le
  have hk := faultNumber_le s.status.faultCode
  have hfault : fieldOf (statusWord s.status) 1 1 = s.status.fault.toNat := by
    rw [fieldOf, toNat_statusWord]; omega
  have hcode : fieldOf (statusWord s.status) 8 8 = faultNumber s.status.faultCode := by
    rw [fieldOf, toNat_statusWord]; omega
  refine ⟨?_, hfault, ?_, hcode, ?_, fun hinv h0 => ?_⟩
  · rw [fieldOf, toNat_statusWord]; omega
  · rw [fieldOf, toNat_statusWord]; omega
  · rw [fieldOf, toNat_statusWord]; omega
  · rw [hfault, Bool.toNat_eq_zero] at h0
    rw [hcode, hinv.faultCode.mp h0]
    rfl

/-- Settles O50: the access names no register, or it names an operand while BUSY = 1. -/
theorem registerAccessRefusals : Obligations.RegisterAccessRefusals := by
  unfold Obligations.RegisterAccessRefusals
  intro s off bytes v rest hoff
  refine ⟨fun hshape => ?_, fun hop hb hin => ?_⟩
  · have hreg : registerOf (afterInput s).platform (s.platform.ipredBase + off) bytes = .error .registerAccessShape :=
      registerOf_shape s.platform hoff hshape
    constructor <;> intro hin <;> rw [step_host hin, hostOp, hreg]
  · obtain ⟨hlt, h4⟩ := operandOffset_aligned off hop
    obtain ⟨g, hg⟩ := writeOperand_some (g := (afterInput s).regs) (regAtOffset_operand off hop) v
    rw [step_regWrite hin hlt h4, writeRegister_busy hg hb]

/-- Settles O37: the block's turn runs what the latched CMD decodes to. -/
theorem stepRunsDecodedCommand : Obligations.StepRunsDecodedCommand := by
  unfold Obligations.StepRunsDecodedCommand
  intro s i hturn hdec
  rw [step_blockToMove hturn, hdec]

/-- Settles O55: after reset the latched STRIDE 0 is less than any block's side. -/
theorem resetValues : Obligations.ResetValues := by
  unfold Obligations.ResetValues
  exact ⟨rfl, rfl, rfl, _, rfl, rfl⟩

end Sys2Proof.Machine
end

section
/-! SUPPORT. The addresses of a command's samples (R43, R46, R48): their parity, when two samples share no byte, and which reads lie apart from the block. -/

namespace Sys2Proof.Machine

open Sys2Proof.Safety

/-- Two samples share no byte when the first stands at the smaller place of the plane in row-major order (R43). -/
theorem saddr_disjoint {d : Desc} {g : OperandRegs} {dr dc dr' dc' : Int}
    (h : dr * g.stride.toNat + dc + 1 ≤ dr' * g.stride.toNat + dc') :
    saddr d g dr dc + sampleBytes d ≤ saddr d g dr' dc' := by
  have hscaled := Int.mul_le_mul_of_nonneg_right h (Int.natCast_nonneg (sampleBytes d))
  rw [Int.add_mul _ 1, Int.one_mul] at hscaled
  unfold saddr
  omega

/-- A sample of an earlier row stands before any of a later one, unless its column lies a stride or more to the right. -/
theorem saddr_disjoint_of_row_lt {d : Desc} {g : OperandRegs} {dr dc dr' dc' : Int} (hrow : dr < dr')
    (hcol : dc + 1 ≤ g.stride.toNat + dc') : saddr d g dr dc + sampleBytes d ≤ saddr d g dr' dc' := by
  have hrows := Int.mul_le_mul_of_nonneg_right (Int.add_one_le_of_lt hrow) (Int.natCast_nonneg g.stride.toNat)
  rw [Int.add_mul, Int.one_mul] at hrows
  exact saddr_disjoint (by omega)

section reads
variable {d : Desc} {g : OperandRegs} {r c : Nat}

/-- A sample of the column left of the block is apart from the block when a row is wider than the block. -/
theorem leftRead_disjoint (hst : blockSide d < g.stride.toNat) (dr : Int) (hc : c < blockSide d) :
    saddr d g dr (-1) + sampleBytes d ≤ saddr d g r c ∨ saddr d g r c + sampleBytes d ≤ saddr d g dr (-1) := by
  rcases lt_trichotomy dr r with hlt | rfl | hgt
  · exact .inl (saddr_disjoint_of_row_lt hlt (by omega))
  · exact .inl (saddr_disjoint (by omega))
  · exact .inr (saddr_disjoint_of_row_lt hgt (by omega))

/-- A sample of the row above the block comes before the block when its column lies inside the stride. -/
theorem aboveRead_disjoint {dc : Int} (hdc : dc < g.stride.toNat) :
    saddr d g (-1) dc + sampleBytes d ≤ saddr d g r c :=
  saddr_disjoint_of_row_lt (by omega) (by omega)

end reads

/-- Settles O34: DST is even and every sample is two bytes. -/
theorem sampleAccessesAligned : Obligations.SampleAccessesAligned := by
  unfold Obligations.SampleAccessesAligned
  intro d g hcheck h16
  obtain ⟨-, heven, -⟩ := of_checkCommand hcheck
  have hdst := heven h16
  have hbytes : sampleBytes d = 2 := by rw [sampleBytes, h16]
  refine ⟨hdst, fun dr dc => ?_⟩
  rw [saddr, hbytes]
  omega

/-- Refutes O35: with STRIDE = N = 4 the left sample of row 1 is the last sample of row 0, at address 20. -/
theorem not_readsDisjointFromWritesAtAnyStride : ¬ Obligations.ReadsDisjointFromWritesAtAnyStride := by
  unfold Obligations.ReadsDisjointFromWritesAtAnyStride
  intro h
  exact h .h ⟨.n4, true, false, false, .bits8, false⟩ ⟨0x042, 4, 17, 0, 1, 1, 16, 16⟩ (.left 1) 1 (-1) 0 3
    (by decide) (by decide) (by decide) (by decide) (by decide)

/-- Settles O36, one case for each class of reads: the left column, the corner and the above row. -/
theorem readsDisjointFromWritesAtWideStride : Obligations.ReadsDisjointFromWritesAtWideStride := by
  unfold Obligations.ReadsDisjointFromWritesAtWideStride
  intro k d g slot dr dc r c _ hst hlim hread _ hc
  rcases mem_edgePlan_sample hread with ⟨-, rfl, -⟩ | ⟨-, -, rfl, rfl⟩ | ⟨-, rfl, i, -, rfl⟩
  · exact leftRead_disjoint hst dr hc
  · exact .inl (aboveRead_disjoint (by omega))
  · have hlimit := aboveLimit_eq d
    exact .inl (aboveRead_disjoint (by omega))

end Sys2Proof.Machine
end

section
/-! SUPPORT. What memory holds of a prediction (R101, R102, R160): a mode rule reads no edge entry but those its kind needs, so from the filled buffers it predicts what it does from the frame's edges. -/

namespace Sys2Proof.Machine

open Sys2Proof.Safety

/-! The prediction reads no edge entry but those its kind needs (R101, R160). -/

/-- The edges `A', L'` agree with `A, L` on the entries that `needs` names (R160). -/
structure EdgesAgree (needs : EdgeNeeds) (N : Nat) (A' L' A L : Int → Nat) : Prop where
  above : needs.above ≠ .nothing → ∀ i : Int, -1 ≤ i → i < aboveCount needs.above N → A' i = A i
  left : needs.left = true → ∀ i : Int, 0 ≤ i → i < N → L' i = L i

theorem sumTo_congr {n : Nat} {f f' : Int → Nat} (h : ∀ i : Int, 0 ≤ i → i < n → f' i = f i) :
    sumTo f' n = sumTo f n := by
  induction n with
  | zero => rfl
  | succ n ih => rw [sumTo, sumTo, ih fun i h0 hi => h i h0 (by omega), h n (by omega) (by omega)]

section rules
variable {N bd : Nat} {A L A' L' : Int → Nat} {r c : Nat}
  (hAR : ∀ i : Int, -1 ≤ i → i < ((2 * N : Nat) : Int) → A' i = A i)
  (hA : ∀ i : Int, -1 ≤ i → i < (N : Int) → A' i = A i)
  (hL : ∀ i : Int, 0 ≤ i → i < (N : Int) → L' i = L i)

include hAR in
theorem predictD45_congr (hN : 2 ≤ N) : predictorOf .d45 N bd A' L' r c = predictorOf .d45 N bd A L r c := by
  simp only [predictorOf, predictD45]
  split
  · rw [hAR _ ?_ ?_, hAR _ ?_ ?_, hAR _ ?_ ?_] <;> omega
  · exact hAR _ (by omega) (by omega)

include hAR in
theorem predictD63_congr (hN : 2 ≤ N) (hr : r < N) (hc : c < N) :
    predictorOf .d63 N bd A' L' r c = predictorOf .d63 N bd A L r c := by
  simp only [predictorOf, predictD63]
  split
  · rw [hAR _ ?_ ?_, hAR _ ?_ ?_, hAR _ ?_ ?_] <;> omega
  · rw [hAR _ ?_ ?_, hAR _ ?_ ?_] <;> omega

include hL in
theorem predictDcLeft_congr : predictorOf .dcLeft N bd A' L' r c = predictorOf .dcLeft N bd A L r c := by
  simp only [predictorOf, predictDcLeft, sumTo_congr hL]

include hA in
theorem predictDcTop_congr : predictorOf .dcTop N bd A' L' r c = predictorOf .dcTop N bd A L r c := by
  simp only [predictorOf, predictDcTop, sumTo_congr fun i h0 => hA i (by omega)]

include hA hL in
theorem predictDcBoth_congr : predictorOf .dcBoth N bd A' L' r c = predictorOf .dcBoth N bd A L r c := by
  simp only [predictorOf, predictDcBoth, sumTo_congr hL, sumTo_congr fun i h0 => hA i (by omega)]

include hL in
theorem d207Sample_congr (hr : r < N) : d207Sample N L' r c = d207Sample N L r c := by
  fun_induction d207Sample N L r c with
  | case1 r hlast => rw [d207Sample, if_pos hlast, hL _ ?_ ?_] <;> omega
  | case2 r hlast => rw [d207Sample, if_neg hlast, hL _ ?_ ?_, hL _ ?_ ?_] <;> omega
  | case3 r hlast => rw [d207Sample, if_pos hlast, hL _ ?_ ?_] <;> omega
  | case4 r hlast hnext => rw [d207Sample, if_neg hlast, if_pos hnext, hL _ ?_ ?_, hL _ ?_ ?_] <;> omega
  | case5 r hlast hnext => rw [d207Sample, if_neg hlast, if_neg hnext, hL _ ?_ ?_, hL _ ?_ ?_, hL _ ?_ ?_] <;> omega
  | case6 r j hlast => rw [d207Sample, if_pos hlast, hL _ ?_ ?_] <;> omega
  | case7 r j hlast ih => rw [d207Sample, if_neg hlast, ih (by omega)]

include hA hL

theorem d135Sample_congr (hr : r < N) (hc : c < N) : d135Sample A' L' r c = d135Sample A L r c := by
  fun_induction d135Sample A L r c with
  | case1 => rw [d135Sample, hL _ ?_ ?_, hA _ ?_ ?_, hA _ ?_ ?_] <;> omega
  | case2 j => rw [d135Sample, hA _ ?_ ?_, hA _ ?_ ?_, hA _ ?_ ?_] <;> omega
  | case3 => rw [d135Sample, hA _ ?_ ?_, hL _ ?_ ?_, hL _ ?_ ?_] <;> omega
  | case4 i => rw [d135Sample, hL _ ?_ ?_, hL _ ?_ ?_, hL _ ?_ ?_] <;> omega
  | case5 i j ih => rw [d135Sample, ih (by omega) (by omega)]

theorem d117Sample_congr (hr : r < N) (hc : c < N) : d117Sample A' L' r c = d117Sample A L r c := by
  fun_induction d117Sample A L r c with
  | case1 j => rw [d117Sample, hA _ ?_ ?_, hA _ ?_ ?_] <;> omega
  | case2 => rw [d117Sample, hL _ ?_ ?_, hA _ ?_ ?_, hA _ ?_ ?_] <;> omega
  | case3 j => rw [d117Sample, hA _ ?_ ?_, hA _ ?_ ?_, hA _ ?_ ?_] <;> omega
  | case4 => rw [d117Sample, hA _ ?_ ?_, hL _ ?_ ?_, hL _ ?_ ?_] <;> omega
  | case5 i => rw [d117Sample, hL _ ?_ ?_, hL _ ?_ ?_, hL _ ?_ ?_] <;> omega
  | case6 i j ih => rw [d117Sample, ih (by omega) (by omega)]

theorem d153Sample_congr (hr : r < N) (hc : c < N) : d153Sample A' L' r c = d153Sample A L r c := by
  fun_induction d153Sample A L r c with
  | case1 => rw [d153Sample, hL _ ?_ ?_, hA _ ?_ ?_] <;> omega
  | case2 i => rw [d153Sample, hL _ ?_ ?_, hL _ ?_ ?_] <;> omega
  | case3 => rw [d153Sample, hL _ ?_ ?_, hA _ ?_ ?_, hA _ ?_ ?_] <;> omega
  | case4 => rw [d153Sample, hA _ ?_ ?_, hL _ ?_ ?_, hL _ ?_ ?_] <;> omega
  | case5 i => rw [d153Sample, hL _ ?_ ?_, hL _ ?_ ?_, hL _ ?_ ?_] <;> omega
  | case6 j => rw [d153Sample, hA _ ?_ ?_, hA _ ?_ ?_, hA _ ?_ ?_] <;> omega
  | case7 i j ih => rw [d153Sample, ih (by omega) (by omega)]

theorem predictTm_congr (hr : r < N) (hc : c < N) :
    predictorOf .tm N bd A' L' r c = predictorOf .tm N bd A L r c := by
  simp only [predictorOf, predictTm]
  rw [hL _ ?_ ?_, hA _ ?_ ?_, hA _ ?_ ?_] <;> omega

end rules

/-- R101: a kind's prediction from two edges that agree on its classes is the same. -/
theorem predictorOf_congr {k : Kind} {N bd r c : Nat} {A L A' L' : Int → Nat} (hN : 2 ≤ N)
    (h : EdgesAgree (needsOf k) N A' L' A L) (hr : r < N) (hc : c < N) :
    predictorOf k N bd A' L' r c = predictorOf k N bd A L r c := by
  obtain ⟨hA, hL⟩ := h
  cases k with
  | v => exact hA nofun c (by omega) (Int.ofNat_lt.mpr hc)
  | h => exact hL rfl r (by omega) (Int.ofNat_lt.mpr hr)
  | d45 => exact predictD45_congr (hA nofun) hN
  | d135 => exact d135Sample_congr (hA nofun) (hL rfl) hr hc
  | d117 => exact d117Sample_congr (hA nofun) (hL rfl) hr hc
  | d153 => exact d153Sample_congr (hA nofun) (hL rfl) hr hc
  | d207 => exact d207Sample_congr (hL rfl) hr
  | d63 => exact predictD63_congr (hA nofun) hN hr hc
  | tm => exact predictTm_congr (hA nofun) (hL rfl) hr hc
  | dcBoth => exact predictDcBoth_congr (hA nofun) (hL rfl)
  | dcLeft => exact predictDcLeft_congr (hL rfl)
  | dcTop => exact predictDcTop_congr (hA nofun)
  | dc128 => rfl

/-! What memory holds of the prediction. -/

/-- After a fill whose reads are good, the buffers agree with the frame on the entries the kind needs (R161 to R166). -/
theorem edgesAgree_filledState {k : Kind} {d : Desc} {s : State} (h : ReadsOk (needsOf k) d s) :
    EdgesAgree (needsOf k) (blockSide d) (aboveEdge (filledState k d s)) (leftEdge (filledState k d s))
      (frameAbove s.mem d s.latch) (frameLeft s.mem d s.latch) where
  above hn i h0 hi := aboveEdge_fill h hn h0 hi
  left hn i h0 hi := by
    lift i to Nat using h0
    exact leftEdge_fill h hn (Int.ofNat_lt.mp hi)

/-- A sample of the command's depth fits its storage (R65, R66). -/
theorem maxSample_lt_storage {d : Desc} (h : storageMatches d.bitDepth d.sample16 = true) :
    maxSample (depthOf d) < 256 ^ sampleBytes d := by
  revert h
  unfold depthOf sampleBytes
  cases d.bitDepth <;> cases d.sample16 <;> decide

/-- What memory holds of a sample predicted from the filled edges is the prediction from the frame's edges (R102). -/
theorem storedPrediction_eq {k : Kind} {d : Desc} {s : State} (hcheck : checkCommand d s.latch = none)
    (hreads : ReadsOk (needsOf k) d s) {r c : Nat} (hr : r < blockSide d) (hc : c < blockSide d) :
    predictorOf k (blockSide d) (depthOf d) (aboveEdge (filledState k d s)) (leftEdge (filledState k d s)) r c
        % 256 ^ sampleBytes d =
      predictorOf k (blockSide d) (depthOf d) (frameAbove s.mem d s.latch) (frameLeft s.mem d s.latch) r c := by
  have hside : 2 ≤ blockSide d := Nat.le_trans (by decide) (blockSide_ge d)
  have hrange := predictorOf_le hside (depthOf_ge d) (edgesInRange_filledState hreads) hr hc
  rw [Nat.mod_eq_of_lt (hrange.trans_lt (maxSample_lt_storage (of_checkCommand hcheck).1))]
  exact predictorOf_congr hside (edgesAgree_filledState hreads) hr hc

end Sys2Proof.Machine
end

section
/-! SUPPORT. How a command ends at its first bad access (R44, R47, R202), that it then stays stuck (R227), and the host's accesses to memory (R50, R226). -/

namespace Sys2Proof.Machine

open Sys2Proof.Safety

/-! The first bad read. -/

theorem readSample_notAdmitted {d : Desc} {s : State} {dr dc : Int}
    (h : admitted s.platform (saddr d s.latch dr dc) (sampleBytes d) = false) :
    readSample d s dr dc = .notAdmitted := by
  simp [readSample, h]

theorem readSample_outOfRange {d : Desc} {s : State} {dr dc : Int}
    (hadm : admitted s.platform (saddr d s.latch dr dc) (sampleBytes d) = true)
    (hbig : maxSample (depthOf d) < sampleIn s.mem d s.latch dr dc) : readSample d s dr dc = .outOfRange := by
  unfold sampleIn at hbig
  simp [readSample, hadm, hbig]

/-- Every source of a list gives a value when each of its reads is good. -/
theorem sourcesOk_of_readOk {d : Desc} {s : State} {plan : List (EdgeSlot × EdgeSource)}
    (h : ∀ slot dr dc, (slot, EdgeSource.sample dr dc) ∈ plan → ReadOk d s dr dc) :
    ∀ e ∈ plan, SourceOk d s e.2 := by
  rintro ⟨slot, src⟩ he
  cases src with
  | const v => exact sourceOk_const d s v
  | sample dr dc => exact sourceOk_sample.mpr (h slot dr dc he)

section firstBadRead
variable {needs : EdgeNeeds} {p : Predictor} {d : Desc} {s : State} {pre post : List (EdgeSlot × EdgeSource)}
  {slot : EdgeSlot} {dr dc : Int} (hcheck : checkCommand d s.latch = none)
  (hplan : edgePlan needs d s.latch = pre ++ (slot, .sample dr dc) :: post)
  (hpre : ∀ slot' dr' dc', (slot', EdgeSource.sample dr' dc') ∈ pre → ReadOk d s dr' dc')
include hcheck hplan hpre

theorem runCommand_outOfRange (h : readSample d s dr dc = .outOfRange) :
    runCommand needs p d s = .next (raiseFault .sampleOutOfRange (storeAll d s pre s)) := by
  have hsrc : sourceValue d (storeAll d s pre s) (.sample dr dc) = .outOfRange :=
    (sourceValue_edgesOnly (edgesOnly_storeAll d s pre s) _).trans h
  simp only [runCommand, commandFront, hcheck, hplan, fillEdges_stop (sourcesOk_of_readOk hpre), fillEdges, hsrc]

theorem runCommand_notAdmitted (h : readSample d s dr dc = .notAdmitted) :
    runCommand needs p d s = .next (stallReading (storeAll d s pre s)) := by
  have hsrc : sourceValue d (storeAll d s pre s) (.sample dr dc) = .notAdmitted :=
    (sourceValue_edgesOnly (edgesOnly_storeAll d s pre s) _).trans h
  simp only [runCommand, commandFront, hcheck, hplan, fillEdges_stop (sourcesOk_of_readOk hpre), fillEdges, hsrc]

end firstBadRead

/-- A fault that ends the command records its code and changes nothing else but scratch state (R203). -/
theorem faulted_raiseFault {k : FaultCode} (hk : k ≠ .startWhileBusy) (s : State) : Faulted k s (raiseFault k s) where
  status := raiseFault_status hk s
  mem := raiseFault_mem k s
  stuck := raiseFault_stuck k s
  same := ⟨raiseFault_regs k s, raiseFault_platform k s, raiseFault_inputs k s, raiseFault_replies k s⟩

/-- Settles O39: the fill stops at the read that is out of range. -/
theorem firstOutOfRangeReadFaults : Obligations.FirstOutOfRangeReadFaults := by
  unfold Obligations.FirstOutOfRangeReadFaults
  intro i s pre post slot dr dc hcheck hplan hpre hadm hbig
  have hrun := runCommand_outOfRange (p := predictorOf (kindOf i)) hcheck hplan hpre (readSample_outOfRange hadm hbig)
  rw [raiseFault_edgesOnly (by decide) (edgesOnly_storeAll _ s pre s)] at hrun
  exact ⟨_, (exec_eq_runCommand i s).trans hrun, faulted_raiseFault (by decide) s, rfl⟩

/-- Settles O40: the fill stops at the read that is not admitted, and the state it leaves differs in the edge buffers
only. -/
theorem unadmittedReadSticks : Obligations.UnadmittedReadSticks := by
  unfold Obligations.UnadmittedReadSticks
  intro i s pre post slot dr dc hcheck hplan hpre hadm
  have hrun := runCommand_notAdmitted (p := predictorOf (kindOf i)) hcheck hplan hpre (readSample_notAdmitted hadm)
  have hE := edgesOnly_storeAll (descOf i) s pre s
  exact ⟨_, (exec_eq_runCommand i s).trans hrun, rfl, hE.status, hE.mem, hE.latch,
    ⟨hE.regs, hE.platform, hE.inputs, hE.replies⟩⟩

/-! A write that is not admitted. -/

/-- A command that passed its checks and its reads, and has a write that is not admitted, sticks (R47, R227). -/
theorem runCommand_unadmittedWrite {k : Kind} {d : Desc} {s : State} (p : Predictor)
    (hcheck : checkCommand d s.latch = none) (hreads : ReadsOk (needsOf k) d s) (hwrites : ¬ WritesOk d s) :
    runCommand (needsOf k) p d s =
      .next (stallWriting (sampleBytes d) (writesOf (needsOf k) p d s) (filledState k d s)) := by
  have hok := readsOk_iff.mp hreads
  rcases runCommand_cases (needsOf k) p d s with
    ⟨f, hf, -⟩ | ⟨-, ⟨pre, slot, src, post, hplan, -, hbad⟩ | ⟨-, ⟨hall, -⟩ | ⟨-, hrun⟩⟩⟩
  · rw [hcheck] at hf; cases hf
  · exfalso
    have hsrc := hok (slot, src) (by simp [hplan])
    rw [SourceOk] at hsrc
    rcases hbad with ⟨hv, -⟩ | ⟨hv, -⟩ <;> rw [hv] at hsrc <;> cases hsrc
  · exact absurd ((writesOk_iff _).mpr hall) hwrites
  · exact hrun

/-- Settles O41: the stuck command performed some of its admitted writes (log 6), each to a place of its own. -/
theorem unadmittedWriteSticks : Obligations.UnadmittedWriteSticks := by
  unfold Obligations.UnadmittedWriteSticks
  rintro i s d rfl hm hcheck hreads hwrites
  have hrun := runCommand_unadmittedWrite (predictorOf (kindOf i)) hcheck hreads hwrites
  obtain ⟨hsame, hothers⟩ := runCommand_frame hrun
  have hE : EdgesOnly s (filledState (kindOf i) (descOf i) s) := edgesOnly_storeAll _ _ _ _
  have hst := stride_of_check hcheck
  refine ⟨_, (exec_eq_runCommand i s).trans hrun, rfl, hE.status, hE.latch, hsame, hothers,
    fun r c hr hc hadm => ?_, fun r c hr hc hadm => ?_⟩
  · rw [stallWriting_mem, hE.mem, hE.platform, ← storedPrediction_eq hcheck hreads hr hc]
    exact sampleIn_writeSomeSamples hm hst _ _ _ hr hc hadm
  · rw [stallWriting_mem, hE.mem, hE.platform]
    exact sampleIn_writeSomeSamples_unadmitted hst _ _ _ _ hr hc hadm

/-! A stuck command (R227). -/

/-- A host access leaves a running command as it is, stuck or not: a START while BUSY changes FAULT and FAULT_CODE only
(R203). -/
theorem hostOp_keeps_command {op : HostOp} {s t : State} (hb : s.status.busy = true) (h : hostOp op s = .next t) :
    t.status.busy = true ∧ t.stuck = s.stuck ∧ t.latch = s.latch := by
  rcases hostOp_cases h with ⟨r, rfl⟩ | ⟨g, hidle, rfl⟩ | rfl | rfl | ⟨a, n, v, -, -, rfl⟩
  · exact ⟨hb, rfl, rfl⟩
  · rw [hb] at hidle; cases hidle
  · exact ⟨hb, rfl, rfl⟩
  · rw [startCommand_of_busy hb]
    exact ⟨hb, rfl, rfl⟩
  · exact ⟨hb, rfl, rfl⟩

/-- Settles O42: of the moves of `step_cases`, the block's is not a stuck command's, and a reset is left out. -/
theorem stuckUntilReset : Obligations.StuckUntilReset := by
  unfold Obligations.StuckUntilReset
  intro s hb hstuck
  refine ⟨fun t hnoReset hstep => ?_, fun v rest hin hv => ?_⟩
  · rcases step_cases hstep with
      ⟨⟨-, hfree, -⟩, -⟩ | ⟨-, rfl⟩ | ⟨op, rest, -, hop⟩ | ⟨rest, hin, -⟩ | ⟨rs, rest, -, rfl⟩
    · rw [hstuck] at hfree; cases hfree
    · exact ⟨hb, hstuck, rfl⟩
    · obtain ⟨hbusy, hst, hlatch⟩ := hostOp_keeps_command (s := afterInput s) hb hop
      exact ⟨hbusy, hst.trans hstuck, hlatch⟩
    · exact absurd (by rw [hin]; rfl) hnoReset
    · exact ⟨hb, hstuck, rfl⟩
  · obtain ⟨-, hwrite⟩ := controlRegister s
    obtain ⟨-, hstart, -⟩ := hwrite v rest hin
    exact ⟨_, hstart hv hb, rfl, rfl⟩

/-! The host's accesses to memory (R50, R226). -/

/-- An access none of whose bytes is in a running command's footprint does not touch it. -/
theorem touchesRunning_eq_false {s : State} {addr bytes : Nat}
    (h : s.status.busy = true → ∀ i, decode s.latch.cmd = .ok i → checkCommand (descOf i) s.latch = none →
      ∀ a : Nat, addr ≤ a → a < addr + bytes → ¬ InFootprint i s.latch a) :
    touchesRunning s addr bytes = false := by
  rw [← Bool.not_eq_true, touchesRunning_iff]
  rintro ⟨hb, i, hdecode, hcheck, a, hlow, hhigh, hin⟩
  exact h hb i hdecode hcheck a hlow hhigh hin

/-- Settles O52: the access goes through, and a write follows the laws of `writeBytes`. -/
theorem hostMemoryAccess : Obligations.HostMemoryAccess := by
  unfold Obligations.HostMemoryAccess
  intro s addr bytes v rest hm hadm hfoot
  have hfree : touchesRunning (afterInput s) addr bytes = false := touchesRunning_eq_false hfoot
  refine ⟨fun hin => ⟨{ afterInput s with mem := writeBytes s.mem addr bytes v }, ?_, ?_, fun a ha => ?_, rfl⟩,
    fun hin => ?_⟩
  · rw [step_host hin]
    exact memoryAccess_next _ hfree hadm
  · exact readBytes_writeBytes_same hm addr bytes v
  · exact readByte_writeBytes_outside s.mem addr bytes v ha
  · rw [step_host hin]
    exact memoryAccess_next _ hfree hadm

end Sys2Proof.Machine
end

section
/-! SUPPORT. The descriptor word (R60 to R73): the encoder puts each field at its place and the decoder reads it back, and the rows of the opcode table in terms of the fields. -/

namespace Sys2Proof.Machine

open Sys2Proof.Safety

/-! Fields of a word (R9). -/

/-- A one-bit field is the bit. -/
theorem fieldOf_bit (w : Word) (k : Nat) : fieldOf w k 1 = (bitOf w k).toNat := by
  have hlt := fieldOf_lt w k 1
  unfold bitOf
  interval_cases fieldOf w k 1 <;> rfl

theorem fieldOf_bit_iff {w : Word} {k : Nat} {b : Bool} : fieldOf w k 1 = b.toNat ↔ bitOf w k = b := by
  rw [fieldOf_bit]
  cases bitOf w k <;> cases b <;> decide

/-- A mask acts field by field. -/
theorem fieldOf_and (w m : Word) (lo len : Nat) :
    fieldOf (w &&& m) lo len = fieldOf w lo len &&& fieldOf m lo len := by
  simp only [fieldOf, BitVec.toNat_and, Nat.and_div_two_pow, Nat.and_mod_two_pow]

theorem fieldOf_and_ones (w : Word) {m : Word} {lo len : Nat} (h : fieldOf m lo len = 2 ^ len - 1) :
    fieldOf (w &&& m) lo len = fieldOf w lo len := by
  rw [fieldOf_and, h, Nat.and_two_pow_sub_one_of_lt_two_pow (fieldOf_lt w lo len)]

theorem fieldOf_and_zeros (w : Word) {m : Word} {lo len : Nat} (h : fieldOf m lo len = 0) :
    fieldOf (w &&& m) lo len = 0 := by
  rw [fieldOf_and, h, Nat.and_zero]

/-! The codes of the fields (R61, R63, R64, R67). -/

theorem txSizeCode_lt (t : TxSize) : txSizeCode t < 4 := by
  cases t <;> decide

theorem bitDepthCode_lt (b : BitDepth) : bitDepthCode b < 3 := by
  cases b <;> decide

@[simp] theorem txSizeOfCode_txSizeCode (t : TxSize) : txSizeOfCode (txSizeCode t) = t := by
  cases t <;> rfl

@[simp] theorem bitDepthOfCode_bitDepthCode (b : BitDepth) : bitDepthOfCode (bitDepthCode b) = some b := by
  cases b <;> rfl

theorem txSizeCode_txSizeOfCode {c : Nat} (h : c < 4) : txSizeCode (txSizeOfCode c) = c := by
  interval_cases c <;> rfl

theorem bitDepthCode_of_some {c : Nat} {b : BitDepth} (h : bitDepthOfCode c = some b) : bitDepthCode b = c := by
  unfold bitDepthOfCode at h
  split at h <;> cases h <;> rfl

theorem modeCode_of_kindOfMode {mode : Nat} {l a : Bool} {k : Kind} (h : kindOfMode mode l a = some k) :
    modeCode k = mode := by
  unfold kindOfMode at h
  split at h
  case h_1 => cases l <;> cases a <;> cases h <;> rfl
  case h_11 => cases h
  all_goals cases h; rfl

theorem modeCode_le (k : Kind) : modeCode k ≤ 9 := by
  cases k <;> decide

/-- The kind and the descriptor of a command select it again (R67). -/
theorem instrOfMode_modeCode (i : Instr) : instrOfMode (modeCode (kindOf i)) (descOf i) = some i := by
  cases i <;> rfl

theorem wellFormed_eq (i : Instr) : wellFormed i = storageMatches (descOf i).bitDepth (descOf i).sample16 := by
  cases i <;> rfl

theorem le_nine_of_instrOfMode {mode : Nat} {d : Desc} {i : Instr} (h : instrOfMode mode d = some i) : mode ≤ 9 := by
  rw [← modeCode_of_kindOfMode (of_instrOfMode h).2]
  exact modeCode_le _

/-! The encoder and the decoder (R66, R69). -/

/-- Each field of an encoded word is what was put there, and the reserved bits are 0 (R69). -/
theorem fieldOf_encodeFields {mode : Nat} (hmode : mode ≤ 9) (d : Desc) :
    fieldOf (encodeFields mode d) 0 4 = mode ∧
    fieldOf (encodeFields mode d) 4 2 = txSizeCode d.txSize ∧
    fieldOf (encodeFields mode d) 6 1 = d.haveLeft.toNat ∧
    fieldOf (encodeFields mode d) 7 1 = d.haveAbove.toNat ∧
    fieldOf (encodeFields mode d) 8 1 = d.haveRight.toNat ∧
    fieldOf (encodeFields mode d) 9 2 = bitDepthCode d.bitDepth ∧
    fieldOf (encodeFields mode d) 11 1 = d.sample16.toNat ∧
    fieldOf (encodeFields mode d) 12 20 = 0 := by
  have ht := txSizeCode_lt d.txSize
  have hl := d.haveLeft.toNat_le
  have ha := d.haveAbove.toNat_le
  have hr := d.haveRight.toNat_le
  have hb := bitDepthCode_lt d.bitDepth
  have hs := d.sample16.toNat_le
  simp only [fieldOf, encodeFields, BitVec.toNat_ofNat]
  omega

/-- A word is its fields: it is an encoded word exactly when each of them is. -/
theorem eq_encodeFields_iff {w : Word} {mode : Nat} (hmode : mode ≤ 9) (d : Desc) :
    w = encodeFields mode d ↔
      fieldOf w 0 4 = mode ∧ fieldOf w 4 2 = txSizeCode d.txSize ∧ fieldOf w 6 1 = d.haveLeft.toNat ∧
      fieldOf w 7 1 = d.haveAbove.toNat ∧ fieldOf w 8 1 = d.haveRight.toNat ∧
      fieldOf w 9 2 = bitDepthCode d.bitDepth ∧ fieldOf w 11 1 = d.sample16.toNat ∧ fieldOf w 12 20 = 0 := by
  refine ⟨by rintro rfl; exact fieldOf_encodeFields hmode d, fun h => BitVec.eq_of_toNat_eq ?_⟩
  have hw := w.isLt
  simp only [fieldOf, encodeFields, BitVec.toNat_ofNat] at h ⊢
  omega

/-- What a word needs to decode to `i` (R66, R67). -/
theorem decode_eq_ok {w : Word} {bd : BitDepth} {i : Instr} (hres : fieldOf w 12 20 = 0)
    (hbd : bitDepthOfCode (fieldOf w 9 2) = some bd) (hstore : storageMatches bd (bitOf w 11) = true)
    (hi : instrOfMode (fieldOf w 0 4)
      ⟨txSizeOfCode (fieldOf w 4 2), bitOf w 6, bitOf w 7, bitOf w 8, bd, bitOf w 11⟩ = some i) :
    decode w = .ok i := by
  simp only [decode, hres, hbd, hstore, hi, Nat.not_lt.mpr (le_nine_of_instrOfMode hi), ne_eq, not_true,
    if_false, if_true]

/-- A legal descriptor decodes to the command its MODE selects with all its fields. -/
theorem decode_encodeFields {mode : Nat} {d : Desc} {i : Instr} (hstore : storageMatches d.bitDepth d.sample16 = true)
    (hi : instrOfMode mode d = some i) : decode (encodeFields mode d) = .ok i := by
  obtain ⟨hm, ht, hl, ha, hr, hb, hs, hres⟩ := fieldOf_encodeFields (le_nine_of_instrOfMode hi) d
  have hs16 := fieldOf_bit_iff.mp hs
  refine decode_eq_ok hres (bd := d.bitDepth) (by rw [hb, bitDepthOfCode_bitDepthCode]) (by rw [hs16, hstore]) ?_
  rw [hm, ht, txSizeOfCode_txSizeCode, fieldOf_bit_iff.mp hl, fieldOf_bit_iff.mp ha, fieldOf_bit_iff.mp hr, hs16]
  exact hi

/-- Settles O1: the encoder's word has the command's fields, and its MODE and flags select the command again. -/
theorem decodeEncodeRoundTrip : Obligations.DecodeEncodeRoundTrip := by
  unfold Obligations.DecodeEncodeRoundTrip
  intro i hwf
  rw [wellFormed_eq] at hwf
  exact decode_encodeFields hwf (instrOfMode_modeCode i)

/-- R66's four conditions on a word. -/
def Legal (w : Word) : Prop :=
  fieldOf w 12 20 = 0 ∧ fieldOf w 0 4 ≤ 9 ∧ fieldOf w 9 2 ≤ 2 ∧ (fieldOf w 11 1 = 1 ∨ fieldOf w 9 2 = 0)

/-- A word that decodes is legal, and so is its command (R66). -/
theorem legal_of_decode {w : Word} {i : Instr} (h : decode w = .ok i) : Legal w ∧ wellFormed i = true := by
  rw [wellFormed_eq, Legal, fieldOf_bit w 11]
  rcases decode_cases w with ⟨-, hd⟩ | ⟨-, -, hd⟩ | ⟨-, -, -, hd⟩ | ⟨-, -, -, -, -, hd⟩ |
    ⟨hres, hmode, hbd, hs, j, bd, hd, -, hstore, hdesc⟩
  case inr.inr.inr.inr =>
    obtain rfl : j = i := Except.ok.inj (hd.symm.trans h)
    exact ⟨⟨hres, hmode, hbd, hs.symm.imp_left Bool.toNat_eq_one.mpr⟩, by rw [hdesc, hstore]⟩
  all_goals rw [h] at hd; cases hd

/-- A legal word decodes (R66). -/
theorem decode_of_legal {w : Word} (h : Legal w) : ∃ i, decode w = .ok i := by
  obtain ⟨hres, hmode, hbd, hs⟩ := h
  rw [fieldOf_bit w 11, Bool.toNat_eq_one] at hs
  rcases decode_cases w with ⟨hbad, -⟩ | ⟨-, hbad, -⟩ | ⟨-, -, hbad, -⟩ | ⟨-, -, -, hdeep, hbyte, -⟩ |
    ⟨-, -, -, -, i, -, hd, -⟩
  · exact absurd hres hbad
  · omega
  · omega
  · simp [hdeep, hbyte] at hs
  · exact ⟨i, hd⟩

/-- Settles O2: the encoder puts back each field the decoder read. -/
theorem encodeDecodeRoundTrip : Obligations.EncodeDecodeRoundTrip := by
  unfold Obligations.EncodeDecodeRoundTrip
  intro w i hw
  obtain ⟨⟨hres, -⟩, hwf⟩ := legal_of_decode hw
  obtain ⟨bd, hbd, hdesc, hkind⟩ := decode_ok hw
  have hsize := txSizeCode_txSizeOfCode (fieldOf_lt w 4 2)
  refine ⟨((eq_encodeFields_iff (modeCode_le _) _).mpr ?_).symm, hwf⟩
  rw [hdesc, modeCode_of_kindOfMode hkind, bitDepthCode_of_some hbd, hsize]
  exact ⟨rfl, rfl, fieldOf_bit w 6, fieldOf_bit w 7, fieldOf_bit w 8, rfl, fieldOf_bit w 11, hres⟩

/-! Illegal descriptors, in the order of R66's codes. -/

section illegal
variable {w : Word}

theorem decode_reservedBits (hres : fieldOf w 12 20 ≠ 0) : decode w = .error .reservedBits := by
  simp [decode, hres]

theorem decode_reservedMode (hres : fieldOf w 12 20 = 0) (hmode : 9 < fieldOf w 0 4) :
    decode w = .error .reservedMode := by
  simp [decode, hres, hmode]

theorem decode_reservedBd (hres : fieldOf w 12 20 = 0) (hmode : fieldOf w 0 4 ≤ 9) (hbd : 2 < fieldOf w 9 2) :
    decode w = .error .reservedBd := by
  have hlt := fieldOf_lt w 9 2
  have h3 : fieldOf w 9 2 = 3 := by omega
  simp [decode, hres, Nat.not_lt.mpr hmode, h3, bitDepthOfCode]

theorem decode_bdStorageMismatch (hres : fieldOf w 12 20 = 0) (hmode : fieldOf w 0 4 ≤ 9) (hbd : fieldOf w 9 2 ≤ 2)
    (hbyte : fieldOf w 11 1 = 0) (hdeep : fieldOf w 9 2 ≠ 0) : decode w = .error .bdStorageMismatch := by
  have hs : bitOf w 11 = false := fieldOf_bit_iff.mp hbyte
  rcases (by omega : fieldOf w 9 2 = 1 ∨ fieldOf w 9 2 = 2) with h | h <;>
    simp [decode, hres, Nat.not_lt.mpr hmode, h, hs, bitDepthOfCode, storageMatches]

end illegal

/-- The block's turn with an illegal descriptor latched raises the decoder's fault and does nothing else (R66, R201). -/
theorem step_illegal {s : State} {e : DecodeError} (hturn : BlockToMove s) (he : decode s.latch.cmd = .error e) :
    ∃ t, step s = .next t ∧ Faulted (decodeFault e) (afterInput s) t := by
  refine ⟨raiseFault (decodeFault e) (afterInput s), ?_, faulted_raiseFault (ne_of_code (decodeFault_code e)).2 _⟩
  rw [step_blockToMove hturn, he]

/-- Settles O3: legality is `Legal`, and each other clause is the decoder's equation for it. -/
theorem descriptorLegality : Obligations.DescriptorLegality := by
  unfold Obligations.DescriptorLegality
  intro w
  refine ⟨⟨fun ⟨i, hi⟩ => (legal_of_decode hi).1, decode_of_legal⟩,
    fun hres => ⟨_, decode_reservedBits hres, rfl⟩,
    fun hres hmode => ⟨_, decode_reservedMode hres hmode, rfl⟩,
    fun hres hmode hbd => ⟨_, decode_reservedBd hres hmode hbd, rfl⟩,
    fun hres hmode hbd hbyte hdeep => ⟨_, decode_bdStorageMismatch hres hmode hbd hbyte hdeep, rfl⟩, ?_⟩
  rintro e s he hturn rfl
  exact step_illegal hturn he

/-! The rows of the opcode table (R73). -/

/-- A descriptor whose fields beside the two flags are 0: what a row's match asks of the bits its mask keeps. -/
def flagsDesc (haveLeft haveAbove : Bool) : Desc :=
  ⟨.n4, haveLeft, haveAbove, false, .bits8, false⟩

theorem kindOfMode_eq_plain {m : Nat} {l a : Bool} {k : Kind} (hk : modeCode k ≠ 0) :
    kindOfMode m l a = some k ↔ m = modeCode k := by
  refine ⟨fun h => (modeCode_of_kindOfMode h).symm, ?_⟩
  rintro rfl
  cases k
  case dcBoth | dcLeft | dcTop | dc128 => exact absurd rfl hk
  all_goals rfl

theorem kindOfMode_eq_dc {m : Nat} {l a l' a' : Bool} :
    kindOfMode m l a = kindOfMode 0 l' a' ↔ m = 0 ∧ l = l' ∧ a = a' := by
  refine ⟨fun h => ?_, by rintro ⟨rfl, rfl, rfl⟩; rfl⟩
  have hm : m = 0 := by
    cases l' <;> cases a' <;> exact (modeCode_of_kindOfMode h).symm
  subst hm
  revert h
  cases l <;> cases a <;> cases l' <;> cases a' <;> decide

section row
variable {w : Word} {k : Kind}

/-- The mask of a plain row keeps MODE and the reserved bits. -/
theorem plainRow_iff (hmask : tableMask k = 0xFFFFF00F#32)
    (hmatch : tableMatch k = encodeFields (modeCode k) (flagsDesc false false)) (hk : modeCode k ≠ 0) :
    w &&& tableMask k = tableMatch k ↔
      fieldOf w 12 20 = 0 ∧ kindOfMode (fieldOf w 0 4) (bitOf w 6) (bitOf w 7) = some k := by
  rw [hmask, hmatch, kindOfMode_eq_plain hk, eq_encodeFields_iff (modeCode_le k)]
  simp (disch := decide) only [fieldOf_and_ones, fieldOf_and_zeros]
  simp [flagsDesc, txSizeCode, bitDepthCode, and_comm]

/-- The mask of a DC row keeps HAVE_LEFT and HAVE_ABOVE too. -/
theorem dcRow_iff {l a : Bool} (hmask : tableMask k = 0xFFFFF0CF#32)
    (hmatch : tableMatch k = encodeFields 0 (flagsDesc l a)) (hk : kindOfMode 0 l a = some k) :
    w &&& tableMask k = tableMatch k ↔
      fieldOf w 12 20 = 0 ∧ kindOfMode (fieldOf w 0 4) (bitOf w 6) (bitOf w 7) = some k := by
  rw [hmask, hmatch, ← hk, kindOfMode_eq_dc, eq_encodeFields_iff (Nat.zero_le 9)]
  simp (disch := decide) only [fieldOf_and_ones, fieldOf_and_zeros]
  simp [flagsDesc, txSizeCode, bitDepthCode, fieldOf_bit_iff, and_comm, and_left_comm, and_assoc]

variable (w k)

/-- A row's mask and match ask for the reserved bits 0 and a MODE and flags that select the row's kind (R73). -/
theorem tableRow_iff :
    w &&& tableMask k = tableMatch k ↔
      fieldOf w 12 20 = 0 ∧ kindOfMode (fieldOf w 0 4) (bitOf w 6) (bitOf w 7) = some k := by
  cases k with
  | dcBoth => exact dcRow_iff (l := true) (a := true) rfl (by decide) rfl
  | dcLeft => exact dcRow_iff (l := true) (a := false) rfl (by decide) rfl
  | dcTop => exact dcRow_iff (l := false) (a := true) rfl (by decide) rfl
  | dc128 => exact dcRow_iff (l := false) (a := false) rfl (by decide) rfl
  | _ => exact plainRow_iff rfl (by decide) (by decide)

end row

/-- Settles O5: a word in a row is legal once R66's other two conditions hold, and a word that decodes selects its
kind. -/
theorem tableRowsSelectKinds : Obligations.TableRowsSelectKinds := by
  unfold Obligations.TableRowsSelectKinds
  intro w k
  refine ⟨fun hrow hbd hstore => ?_, fun i hi => ?_⟩
  · obtain ⟨hres, hkind⟩ := (tableRow_iff w k).mp hrow
    have hmode : fieldOf w 0 4 ≤ 9 := modeCode_of_kindOfMode hkind ▸ modeCode_le k
    have hlt := fieldOf_lt w 9 2
    obtain ⟨i, hi⟩ := decode_of_legal ⟨hres, hmode, by omega, hstore⟩
    obtain ⟨-, -, -, hsel⟩ := decode_ok hi
    exact ⟨i, hi, Option.some.inj (hsel.symm.trans hkind)⟩
  · obtain ⟨⟨hres, -⟩, -⟩ := legal_of_decode hi
    obtain ⟨-, -, -, hsel⟩ := decode_ok hi
    rw [tableRow_iff, hsel, Option.some.injEq]
    exact and_iff_right hres

/-- Settles O6: the decoder evaluated at each word. -/
theorem wordsDecode : Obligations.WordsDecode := by
  unfold Obligations.WordsDecode
  decide

end Sys2Proof.Machine
end

section
/-! SUPPORT. HAVE_RIGHT (R62, R164): the fill plan it enters, and that a command is the same with it 0 or 1 where it has no effect. -/

namespace Sys2Proof.Machine

open Sys2Proof.Safety

/-- Filling the edges depends on the descriptor through the values of the sources only. -/
theorem fillEdges_congr {d d' : Desc} (h : ∀ s src, sourceValue d' s src = sourceValue d s src)
    (plan : List (EdgeSlot × EdgeSource)) (s : State) : fillEdges d' plan s = fillEdges d plan s := by
  induction plan generalizing s with
  | nil => rfl
  | cons e rest ih =>
    obtain ⟨slot, src⟩ := e
    simp only [fillEdges, h, ih]

theorem pred_blockSide_le_aboveLimit (d : Desc) : blockSide d - 1 ≤ aboveLimit d := by
  unfold aboveLimit
  split <;> omega

theorem aboveLimit_of_ne {d : Desc} (h : blockSide d ≠ 4) : aboveLimit d = blockSide d - 1 := by
  simp [aboveLimit, h]

section haveRight
variable (d : Desc) (b : Bool)

/-- A kind without above-right entries fills at most N of the above row (R161). -/
theorem aboveCount_le_side {n : AboveNeed} (hn : n ≠ .aboveRight) (side : Nat) : aboveCount n side ≤ side := by
  cases n with
  | nothing => exact Nat.zero_le side
  | above => exact le_rfl
  | aboveRight => exact absurd rfl hn

/-- The source of `A[i]` is the same with HAVE_RIGHT 0 and 1 unless N = 4 and the entry is right of the block (R164). -/
theorem aboveSource_haveRight (g : OperandRegs) {i : Nat} (h : blockSide d ≠ 4 ∨ i < blockSide d) :
    aboveSource { d with haveRight := b } g i = aboveSource d g i := by
  have hlim : min (i : Int) (aboveLimit { d with haveRight := b }) = min (i : Int) (aboveLimit d) := by
    rcases h with hside | hi
    · rw [aboveLimit_of_ne hside, aboveLimit_of_ne (d := { d with haveRight := b }) hside]
      rfl
    · have h1 := pred_blockSide_le_aboveLimit d
      have h2 : blockSide d - 1 ≤ aboveLimit { d with haveRight := b } :=
        pred_blockSide_le_aboveLimit { d with haveRight := b }
      omega
  unfold aboveSource
  rw [hlim]
  rfl

/-- The fill plan is the same with HAVE_RIGHT 0 and 1 unless N = 4 and the kind needs the above-right entries. -/
theorem edgePlan_haveRight {needs : EdgeNeeds} (g : OperandRegs)
    (h : blockSide d ≠ 4 ∨ needs.above ≠ .aboveRight) :
    edgePlan needs { d with haveRight := b } g = edgePlan needs d g := by
  have hrow : (List.range (aboveCount needs.above (blockSide d))).map
        (fun i => (EdgeSlot.above i, aboveSource { d with haveRight := b } g i)) =
      (List.range (aboveCount needs.above (blockSide d))).map fun i => (.above i, aboveSource d g i) := by
    refine List.map_congr_left fun i hi => ?_
    have hin : blockSide d ≠ 4 ∨ i < blockSide d :=
      h.imp_right fun hn => lt_of_lt_of_le (List.mem_range.mp hi) (aboveCount_le_side hn _)
    rw [aboveSource_haveRight d b g hin]
  unfold edgePlan
  exact congrArg (fun row => _ ++ if needs.above = .nothing then [] else (.corner, cornerSource d) :: row) hrow

theorem runCommand_haveRight {needs : EdgeNeeds} (p : Predictor) (s : State)
    (h : blockSide d ≠ 4 ∨ needs.above ≠ .aboveRight) :
    runCommand needs p { d with haveRight := b } s = runCommand needs p d s := by
  have hfill := fillEdges_congr (d := d) (d' := { d with haveRight := b }) fun s src => by cases src <;> rfl
  unfold runCommand commandFront
  rw [edgePlan_haveRight d b s.latch h, hfill]
  rfl

end haveRight

/-- Only D45 and D63 need the above-right entries (R160). -/
theorem needsOf_ne_aboveRight {k : Kind} (h : k ≠ .d45 ∧ k ≠ .d63) : (needsOf k).above ≠ .aboveRight := by
  obtain ⟨h45, h63⟩ := h
  cases k with
  | d45 => exact absurd rfl h45
  | d63 => exact absurd rfl h63
  | _ => exact nofun

theorem descOf_instrOfKind_haveRight (k : Kind) (d : Desc) (b : Bool) :
    descOf (instrOfKind k { d with haveRight := b }) = { descOf (instrOfKind k d) with haveRight := b } := by
  cases k <;> rfl

theorem blockSide_instrOfKind (k : Kind) (d : Desc) : blockSide (descOf (instrOfKind k d)) = blockSide d := by
  cases k <;> rfl

/-- Settles O29: HAVE_RIGHT enters a command in the sources of the above-right entries only. -/
theorem haveRightIgnored : Obligations.HaveRightIgnored := by
  unfold Obligations.HaveRightIgnored
  intro k d b s h
  have hneed : blockSide (descOf (instrOfKind k d)) ≠ 4 ∨ (needsOf k).above ≠ .aboveRight := by
    rw [blockSide_instrOfKind]
    exact h.imp_right needsOf_ne_aboveRight
  rw [exec_eq_runCommand, exec_eq_runCommand, kindOf_instrOfKind, kindOf_instrOfKind, descOf_instrOfKind_haveRight]
  exact runCommand_haveRight _ b _ s hneed

end Sys2Proof.Machine
end

section
/-! SUPPORT. The assembled line (R70, R72): when it assembles, the descriptor it gives, and the kind its mode word names. -/

namespace Sys2Proof.Machine

/-- The availability flags of a line: the suffixes, or what its pseudo form fixes (R72). -/
def lineFlags (l : AsmLine) : Bool × Bool :=
  (pseudoFlags l.mode).getD (l.sufL, l.sufA)

/-- The descriptor fields a line names beside MODE (R70). -/
def lineDesc (l : AsmLine) : Desc :=
  ⟨l.size, (lineFlags l).1, (lineFlags l).2, l.sufR, l.depth, l.s16⟩

/-- A line assembles when its storage holds its depth and a pseudo form adds no `.L` or `.A` (R70, R72). -/
theorem assembleLine_eq_some {l : AsmLine} {w : Word} :
    assembleLine l = some w ↔
      storageMatches l.depth l.s16 = true ∧ (pseudoFlags l.mode = none ∨ (l.sufL = false ∧ l.sufA = false)) ∧
        encodeFields (asmModeCode l.mode) (lineDesc l) = w := by
  unfold assembleLine lineDesc lineFlags
  cases hstore : storageMatches l.depth l.s16
  · simp
  · cases hp : pseudoFlags l.mode with
    | none => simp
    | some f => cases hl : l.sufL <;> cases ha : l.sufA <;> simp

theorem storageMatches_iff {b : BitDepth} {s : Bool} : storageMatches b s = true ↔ b = .bits8 ∨ s = true := by
  cases b <;> cases s <;> decide

theorem pseudoFlags_eq_none_iff {m : AsmMode} :
    pseudoFlags m = none ↔ m ∉ [AsmMode.dcBoth, .dcLeft, .dcTop, .dc128] := by
  cases m <;> decide

theorem asmModeCode_le (m : AsmMode) : asmModeCode m ≤ 9 := by
  cases m <;> decide

/-- The word of a line decodes to a command of the line's fields, of the kind its MODE and flags select (R67). -/
theorem decode_assembleLine {l : AsmLine} {w : Word} (h : assembleLine l = some w) :
    ∃ i, decode w = .ok i ∧ descOf i = lineDesc l ∧
      kindOfMode (asmModeCode l.mode) (lineFlags l).1 (lineFlags l).2 = some (kindOf i) := by
  obtain ⟨hstore, -, rfl⟩ := assembleLine_eq_some.mp h
  obtain ⟨i, hi, hdesc⟩ := instrOfMode_some (d := lineDesc l) (asmModeCode_le l.mode)
  exact ⟨i, decode_encodeFields hstore hi, hdesc, (of_instrOfMode hi).2⟩

/-- The mode words that name one kind whatever their suffixes, with that kind (R61, R72). -/
def namedKinds : List (AsmMode × Kind) :=
  [(.v, .v), (.h, .h), (.d45, .d45), (.d135, .d135), (.d117, .d117), (.d153, .d153), (.d207, .d207), (.d63, .d63),
    (.tm, .tm), (.dcBoth, .dcBoth), (.dcLeft, .dcLeft), (.dcTop, .dcTop), (.dc128, .dc128)]

theorem kindOfMode_namedKinds : ∀ p ∈ namedKinds, ∀ f : Bool × Bool,
    kindOfMode (asmModeCode p.1) ((pseudoFlags p.1).getD f).1 ((pseudoFlags p.1).getD f).2 = some p.2 := by
  decide

/-- The kinds DC's suffixes select (R67). -/
theorem kindOfMode_dc : ∀ p ∈ [(AsmMode.dc, true, true, Kind.dcBoth), (.dc, true, false, .dcLeft),
      (.dc, false, true, .dcTop), (.dc, false, false, .dc128)],
    kindOfMode (asmModeCode p.1) ((pseudoFlags p.1).getD (p.2.1, p.2.2.1)).1
      ((pseudoFlags p.1).getD (p.2.1, p.2.2.1)).2 = some p.2.2.2 := by
  decide

/-- The flags the pseudo forms fix (R72). -/
theorem pseudoFlags_pseudo : ∀ p ∈ [(AsmMode.dcBoth, true, true), (.dcLeft, true, false), (.dcTop, false, true),
    (.dc128, false, false)], pseudoFlags p.1 = some p.2 := by
  decide

theorem asmModeCode_of_pseudo {m : AsmMode} : pseudoFlags m ≠ none → asmModeCode m = 0 := by
  cases m <;> decide

section refusals
variable {l : AsmLine}

/-- A line whose storage does not hold its depth is refused (R70). -/
theorem assembleLine_of_deep (h : storageMatches l.depth l.s16 = false) : assembleLine l = none := by
  simp [assembleLine, h]

variable {f : Bool × Bool} (hp : pseudoFlags l.mode = some f)
include hp

/-- A pseudo form with `.L` or `.A` added is refused (R72). -/
theorem assembleLine_of_suffix (h : l.sufL = true ∨ l.sufA = true) : assembleLine l = none := by
  refine Option.eq_none_iff_forall_ne_some.mpr fun w hw => ?_
  obtain ⟨-, hplain | ⟨hL, hA⟩, -⟩ := assembleLine_eq_some.mp hw
  · rw [hp] at hplain; cases hplain
  · simp [hL, hA] at h

/-- A pseudo form without `.L` and `.A` is the DC line with the suffixes it fixes (R72). -/
theorem assembleLine_pseudo (hL : l.sufL = false) (hA : l.sufA = false) :
    assembleLine l = assembleLine { l with mode := .dc, sufL := f.1, sufA := f.2 } := by
  have hcode : asmModeCode l.mode = asmModeCode .dc := asmModeCode_of_pseudo (by rw [hp]; nofun)
  have hdesc : lineDesc l = lineDesc { l with mode := .dc, sufL := f.1, sufA := f.2 } := by
    rw [lineDesc, lineFlags, hp]
    rfl
  refine Option.ext fun w => ?_
  rw [assembleLine_eq_some, assembleLine_eq_some, hcode, hdesc]
  simp [hL, hA, pseudoFlags]

end refusals

/-- Settles O59: a line's fields are those of its word, and it assembles under `assembleLine_eq_some`'s conditions. -/
theorem assembledLinesDecode : Obligations.AssembledLinesDecode := by
  unfold Obligations.AssembledLinesDecode
  intro l
  refine ⟨fun w hw => ?_, fun hstore hsuf => ?_, fun hdeep hbyte => ?_, fun m hl ha hm hmode => ⟨?_, ?_⟩⟩
  · obtain ⟨i, hi, hdesc, hkind⟩ := decode_assembleLine hw
    refine ⟨i, hi, by rw [hdesc]; rfl, by rw [hdesc]; rfl, by rw [hdesc]; rfl, by rw [hdesc]; rfl,
      fun k hk => ?_, fun k hk => ?_, fun hplain => ?_⟩
    · exact Option.some.inj (hkind.symm.trans (kindOfMode_namedKinds _ hk (l.sufL, l.sufA)))
    · exact Option.some.inj (hkind.symm.trans (kindOfMode_dc _ hk))
    · rw [hdesc, lineDesc, lineFlags, pseudoFlags_eq_none_iff.mpr hplain]
      exact ⟨rfl, rfl⟩
  · exact ⟨_, assembleLine_eq_some.mpr
      ⟨storageMatches_iff.mpr hstore, hsuf.imp_left pseudoFlags_eq_none_iff.mpr, rfl⟩⟩
  · refine assembleLine_of_deep (Bool.eq_false_iff.mpr fun hstore => ?_)
    rcases storageMatches_iff.mp hstore with h8 | h16
    · exact hdeep h8
    · rw [hbyte] at h16; cases h16
  · exact assembleLine_of_suffix (hmode ▸ pseudoFlags_pseudo (m, hl, ha) hm)
  · exact assembleLine_pseudo (f := (hl, ha)) (hmode ▸ pseudoFlags_pseudo (m, hl, ha) hm)

end Sys2Proof.Machine
end

section
/-! SUPPORT. The host sequence of an assembled line (R71): runs in parts, the operand writes, START, the polls, and the command between them. -/

namespace Sys2Proof.Machine

open Sys2Proof.Safety

/-- A run in two parts. -/
theorem run_add {M : Host.Core} {m : Nat} (n : Nat) {s t : M.State} (h : M.run m s = .next t) :
    M.run (m + n) s = M.run n t := by
  induction m generalizing s with
  | zero => cases h; rw [Nat.zero_add]
  | succ m ih =>
    rw [Host.Core.run] at h
    split at h
    · next u hu => rw [Nat.succ_add, run_succ M _ hu, ih h]
    · cases h
    · cases h

/-- A run of one step more, for this machine's step. -/
theorem run_step {s t : State} (n : Nat) (h : step s = .next t) : core.run (n + 1) s = core.run n t :=
  run_succ core n h

/-! The operand writes (R71). -/

/-- The operand registers after a host write of `v` at offset `off`. -/
def storeOperand (g : OperandRegs) (w : Nat × Word) : OperandRegs :=
  (writeOperand g (regAtOffset w.1) w.2).getD g

/-- A host write of an operand of an idle block stores it (R24 to R28). -/
theorem step_operandWrite {s : State} {w : Nat × Word} {rest : List Event} (hoff : w.1 ∈ operandOffsets)
    (hb : s.status.busy = false) (hin : s.inputs = regWrite s.platform w.1 w.2 :: rest) :
    step s = .next { s with regs := storeOperand s.regs w, inputs := rest } := by
  obtain ⟨hlt, h4⟩ := operandOffset_aligned w.1 hoff
  obtain ⟨g, hg⟩ := writeOperand_some (g := s.regs) (regAtOffset_operand w.1 hoff) w.2
  rw [step_regWrite hin hlt h4, writeRegister_idle (s := afterInput s) hg hb, storeOperand, hg, Option.getD_some,
    afterInput, hin, List.tail_cons]

/-- A list of operand writes stores them one after another. -/
theorem run_operandWrites {s : State} {ws : List (Nat × Word)} {rest : List Event}
    (hoff : ∀ w ∈ ws, w.1 ∈ operandOffsets) (hb : s.status.busy = false)
    (hin : s.inputs = ws.map (fun w => regWrite s.platform w.1 w.2) ++ rest) :
    core.run ws.length s = .next { s with regs := ws.foldl storeOperand s.regs, inputs := rest } := by
  induction ws generalizing s with
  | nil => cases hin; rfl
  | cons w ws ih =>
    rw [List.forall_mem_cons] at hoff
    rw [List.length_cons, run_step _ (step_operandWrite hoff.1 hb hin)]
    exact ih hoff.2 hb rfl

/-- The operand writes of a line whose descriptor is `w`, in R71's order. -/
def lineOperands (w : Word) (l : AsmLine) : List (Nat × Word) :=
  [(0x00, w), (0x04, BitVec.ofNat 32 l.stride), (0x08, BitVec.ofNat 32 l.dst),
   (0x0C, BitVec.ofNat 32 (l.dst / 2 ^ 32)), (0x10, BitVec.ofNat 32 l.x0), (0x14, BitVec.ofNat 32 l.y0),
   (0x18, BitVec.ofNat 32 l.fw), (0x1C, BitVec.ofNat 32 l.fh)]

/-- The registers a line's operand writes leave, whatever they held before. -/
def lineRegs (w : Word) (l : AsmLine) : OperandRegs :=
  ⟨w, BitVec.ofNat 32 l.stride, BitVec.ofNat 32 l.dst, BitVec.ofNat 32 (l.dst / 2 ^ 32), BitVec.ofNat 32 l.x0,
    BitVec.ofNat 32 l.y0, BitVec.ofNat 32 l.fw, BitVec.ofNat 32 l.fh⟩

theorem foldl_storeOperand_lineOperands (w : Word) (l : AsmLine) (g : OperandRegs) :
    (lineOperands w l).foldl storeOperand g = lineRegs w l := rfl

theorem lineOperands_offsets (w : Word) (l : AsmLine) : ∀ p ∈ lineOperands w l, p.1 ∈ operandOffsets := by
  simp [lineOperands, operandOffsets]

/-- A host read of STATUS (R30). -/
def statusRead (p : Platform) : Event :=
  .host (.readReg (p.ipredBase + 0x24) 4)

theorem lineEvents_eq (p : Platform) (w : Word) (l : AsmLine) (polls : Nat) :
    lineEvents p w l polls =
      (lineOperands w l).map (fun w => regWrite p w.1 w.2) ++
        (regWrite p 0x20 1 :: (List.replicate polls (statusRead p) ++ [.blockTurn, statusRead p])) := by
  simp [lineEvents, lineOperands, statusRead]

/-! START and the polls. -/

/-- CTRL = 1 to an idle, unfaulted block latches the operands and sets BUSY (R100). -/
theorem step_start {s : State} {rest : List Event} (hst : s.status = ⟨false, false, .none⟩)
    (hin : s.inputs = regWrite s.platform 0x20 1 :: rest) :
    step s = .next { s with latch := s.regs, status := ⟨true, false, .none⟩, inputs := rest } := by
  rw [step_regWrite hin (by decide) (by decide)]
  refine (writeRegister_ctrl _ 1).trans ?_
  rw [if_pos (by decide), startCommand_of_idle (by simp [hst]) (by simp [hst])]
  simp [afterInput, hst, hin]

/-- A read of STATUS. -/
theorem step_statusRead {s : State} {rest : List Event} (hin : s.inputs = statusRead s.platform :: rest) :
    step s = .next { s with replies := .register (statusWord s.status) :: s.replies, inputs := rest } := by
  rw [step_regRead hin (by decide) (by decide), afterInput, hin]
  rfl

theorem statusWord_running : statusWord ⟨true, false, .none⟩ = 1 := by
  decide

/-- Every poll of a block whose STATUS does not change reads the same. -/
theorem run_polls {s : State} {n : Nat} {v : Word} {rest : List Event} (hv : statusWord s.status = v)
    (hin : s.inputs = List.replicate n (statusRead s.platform) ++ rest) :
    core.run n s =
      .next { s with
        replies := List.replicate n (.register v) ++ s.replies
        inputs := rest } := by
  induction n generalizing s with
  | zero => cases hin; rfl
  | succ n ih =>
    refine (run_step n (step_statusRead hin)).trans (Eq.trans (ih hv rfl) ?_)
    rw [hv, List.replicate_succ', List.append_assoc]
    rfl

/-! The command. -/

/-- A command that runs normally completes with its prediction from the frame's edges in the block (R100, R102). -/
theorem exec_of_runs {i : Instr} {s : State} (hm : s.mem.wf) (h : Runs (kindOf i) (descOf i) s) :
    ∃ t, exec i s = .next t ∧
      Wrote (descOf i) s t (predictorOf (kindOf i) (blockSide (descOf i)) (depthOf (descOf i))
        (frameAbove s.mem (descOf i) s.latch) (frameLeft s.mem (descOf i) s.latch)) := by
  obtain ⟨t, hrun, hwrote⟩ := runCommand_of_runs (predictorOf (kindOf i)) hm h
  refine ⟨t, (exec_eq_runCommand i s).trans hrun, { hwrote with samples := fun r c hr hc => ?_ }⟩
  rw [hwrote.samples r c hr hc, storedPrediction_eq h.check h.reads hr hc]

/-- Whether a command runs normally depends on the latch, memory and the platform only. -/
theorem runs_congr {k : Kind} {d : Desc} {s t : State} (hl : t.latch = s.latch) (hm : t.mem = s.mem)
    (hp : t.platform = s.platform) (h : Runs k d s) : Runs k d t := by
  obtain ⟨hcheck, hreads, hwrites⟩ := h
  exact ⟨by rwa [hl], by simpa only [ReadsOk, ReadOk, hl, hm, hp] using hreads,
    by simpa only [WritesOk, hl, hp] using hwrites⟩

/-! The whole line. -/

/-- The command of a line is running and has been polled `polls` times; the block's turn and the last poll are next. -/
def lineRunning (w : Word) (l : AsmLine) (polls : Nat) (s : State) (rest : List Event) : State :=
  { s with
    regs := lineRegs w l
    latch := lineRegs w l
    status := ⟨true, false, .none⟩
    replies := List.replicate polls (.register 1) ++ s.replies
    inputs := .blockTurn :: statusRead s.platform :: rest }

/-- The operand writes, START and the polls of a line (R71). -/
theorem run_lineRunning {w : Word} {l : AsmLine} {polls : Nat} {s : State} {rest : List Event}
    (hst : s.status = ⟨false, false, .none⟩) (hin : s.inputs = lineEvents s.platform w l polls ++ rest) :
    core.run (8 + (polls + 1)) s = .next (lineRunning w l polls s rest) := by
  simp only [lineEvents_eq, List.append_assoc, List.cons_append, List.nil_append] at hin
  have hwrites := run_operandWrites (lineOperands_offsets w l) (by rw [hst]) hin
  rw [foldl_storeOperand_lineOperands] at hwrites
  exact (run_add (M := core) _ hwrites).trans
    (Eq.trans (run_step polls (step_start hst rfl)) (run_polls statusWord_running rfl))

/-- The block's turn of a line's command, which completes (R100). -/
theorem step_lineRunning {w : Word} {l : AsmLine} {polls : Nat} {i : Instr} {s : State} {rest : List Event}
    (hdec : decode w = .ok i) (hinv : Inv s) (hb : s.status.busy = false)
    (hruns : Runs (kindOf i) (descOf i) { s with latch := lineRegs w l }) :
    ∃ t, step (lineRunning w l polls s rest) = .next t ∧
      Wrote (descOf i) (afterInput (lineRunning w l polls s rest)) t
        (predictorOf (kindOf i) (blockSide (descOf i)) (depthOf (descOf i))
          (frameAbove s.mem (descOf i) (lineRegs w l)) (frameLeft s.mem (descOf i) (lineRegs w l))) := by
  have hfree : s.stuck = false := Bool.eq_false_iff.mpr fun hs => by
    rw [hinv.stuckBusy hs] at hb
    cases hb
  have hturn : BlockToMove (lineRunning w l polls s rest) := ⟨rfl, hfree, .inr ⟨_, rfl⟩⟩
  obtain ⟨t, hexec, hwrote⟩ := exec_of_runs (i := i) (s := afterInput (lineRunning w l polls s rest)) hinv.memWf
    (runs_congr (s := { s with latch := lineRegs w l }) rfl rfl rfl hruns)
  refine ⟨t, ?_, hwrote⟩
  rw [step_blockToMove hturn, show decode (lineRunning w l polls s rest).latch.cmd = .ok i from hdec]
  exact hexec

/-- Settles O60: the operand writes, START and the polls, the command's turn, and the poll that finds BUSY = 0. -/
theorem assembledLineRuns : Obligations.AssembledLineRuns := by
  unfold Obligations.AssembledLineRuns
  rintro l w i d g s polls rest - hdec rfl rfl hinv hst hin hruns
  obtain ⟨t, hstep, hwrote⟩ := step_lineRunning (polls := polls) (rest := rest) hdec hinv (by rw [hst]) hruns
  obtain ⟨hregs, hplat, hinputs, hreplies⟩ := hwrote.same
  have hstatus : t.status = ⟨false, false, .none⟩ := hwrote.status
  have hpoll := step_statusRead (s := t) (rest := rest) (by rw [hinputs, hplat]; rfl)
  have hrun : core.run (8 + (polls + 1) + (1 + 1)) s = .next _ :=
    (run_add (M := core) _ (run_lineRunning hst hin)).trans ((run_step 1 hstep).trans (run_step 0 hpoll))
  rw [show 8 + (polls + 1) + (1 + 1) = polls + 11 by omega] at hrun
  refine ⟨_, hrun, hregs, hstatus.trans hst.symm, rfl, hplat, ?_, hwrote.samples, hwrote.others⟩
  rw [hreplies, hstatus]
  rfl

end Sys2Proof.Machine
end

section
/-! SUPPORT. A command as a function of its edges (R101, R104): a kind reads no edge entry but those of its classes, and the samples do not depend on how wide they are stored. -/

namespace Sys2Proof.Machine

open Sys2Proof.Safety

/-- Settles O9: the two pairs of edges agree on the kind's classes, and no mode rule reads another entry. -/
theorem predictReadsItsEdges : Obligations.PredictReadsItsEdges := by
  unfold Obligations.PredictReadsItsEdges
  intro k N bd A A' L L' hN hleft habove r c hr hc
  have hN2 : 2 ≤ N := (by decide : ∀ n ∈ [4, 8, 16, 32], 2 ≤ n) N hN
  exact predictorOf_congr hN2 ⟨habove, hleft⟩ hr hc

theorem descOf_instrOfKind_sample16 (k : Kind) (d : Desc) (b : Bool) :
    descOf (instrOfKind k { d with sample16 := b }) = { descOf (instrOfKind k d) with sample16 := b } := by
  cases k <;> rfl

/-- The sample a command of kind `k` leaves in its block is the prediction from the frame's edges (R45, R101). -/
theorem sampleIn_of_exec {k : Kind} {d : Desc} {s t : State} (hd : descOf (instrOfKind k d) = d) (hm : s.mem.wf)
    (hruns : Runs k d s) (hexec : exec (instrOfKind k d) s = .next t) {r c : Nat} (hr : r < blockSide d)
    (hc : c < blockSide d) :
    sampleIn t.mem d s.latch r c =
      predictorOf k (blockSide d) (depthOf d) (frameAbove s.mem d s.latch) (frameLeft s.mem d s.latch) r c := by
  have hcompletes := exec_of_runs (i := instrOfKind k d) hm
  rw [kindOf_instrOfKind, hd] at hcompletes
  obtain ⟨t', hexec', hwrote⟩ := hcompletes hruns
  cases hexec.symm.trans hexec'
  exact hwrote.samples r c hr hc

/-- Settles O30: N and BDV do not depend on SAMPLE16, so both commands leave the same prediction from the same edges. -/
theorem storageSizeIndependent : Obligations.StorageSizeIndependent := by
  unfold Obligations.StorageSizeIndependent
  rintro k d _ s₁ s₂ t₁ t₂ - - rfl hd hm₁ hm₂ hruns₁ hruns₂ habove hleft hexec₁ hexec₂ r c hr hc
  have hd₂ : descOf (instrOfKind k { d with sample16 := true }) = { d with sample16 := true } := by
    rw [descOf_instrOfKind_sample16, hd]
  have hside : 2 ≤ blockSide d := Nat.le_trans (by decide) (blockSide_ge d)
  have hcount := aboveCount_le (needsOf k).above (blockSide d)
  have hedges : EdgesAgree (needsOf k) (blockSide d) (frameAbove s₂.mem { d with sample16 := true } s₂.latch)
      (frameLeft s₂.mem { d with sample16 := true } s₂.latch) (frameAbove s₁.mem d s₁.latch)
      (frameLeft s₁.mem d s₁.latch) :=
    ⟨fun _ i h0 hi => habove i h0 (by omega), fun _ => hleft⟩
  calc sampleIn t₂.mem { d with sample16 := true } s₂.latch r c
    _ = predictorOf k (blockSide d) (depthOf d) (frameAbove s₂.mem { d with sample16 := true } s₂.latch)
          (frameLeft s₂.mem { d with sample16 := true } s₂.latch) r c :=
        sampleIn_of_exec hd₂ hm₂ hruns₂ hexec₂ hr hc
    _ = predictorOf k (blockSide d) (depthOf d) (frameAbove s₁.mem d s₁.latch) (frameLeft s₁.mem d s₁.latch) r c :=
        predictorOf_congr hside hedges hr hc
    _ = sampleIn t₁.mem d s₁.latch r c := (sampleIn_of_exec hd hm₁ hruns₁ hexec₁ hr hc).symm

end Sys2Proof.Machine
end

section
/-! SUPPORT. The recursive directional modes (R115 to R118) and their closed forms (R120 to R123): the lines of each rule, the walk along its diagonal to the first rows and columns, and what stands there over the joined edge. -/

namespace Sys2Proof.Machine

open Sys2Proof.Safety

/-- R13: the 3-tap average is the same read backwards, so an edge may be walked either way. -/
theorem avg3_reverse (a b c : Nat) : avg3 a b c = avg3 c b a := by
  unfold avg3
  omega

section joinedEdge
variable {A L A' L' : Int → Nat} {k : Int}

theorem joinedEdge_of_above (h : -1 ≤ k) : joinedEdge A L k = A k :=
  if_pos h

theorem joinedEdge_of_left (h : k ≤ -2) : joinedEdge A L k = L (-k - 2) :=
  if_neg (by omega)

/-- An entry of the joined edge depends on the one edge it stands on. -/
theorem joinedEdge_congr (hA : -1 ≤ k → A' k = A k) (hL : k ≤ -2 → L' (-k - 2) = L (-k - 2)) :
    joinedEdge A' L' k = joinedEdge A L k := by
  unfold joinedEdge
  split
  · next h => exact hA h
  · next h => exact hL (by omega)

/-- Three neighbours of the above edge on the joined edge. -/
theorem avg3_aboveEdge (A L : Int → Nat) (h : 1 ≤ k) :
    avg3 (A (k - 2)) (A (k - 1)) (A k) =
      avg3 (joinedEdge A L (k - 2)) (joinedEdge A L (k - 1)) (joinedEdge A L k) := by
  rw [joinedEdge_of_above (by omega), joinedEdge_of_above (by omega), joinedEdge_of_above (by omega)]

/-- Three neighbours of the left column on the joined edge, which runs down it backwards. -/
theorem avg3_leftEdge (A L : Int → Nat) (h : 2 ≤ k) :
    avg3 (L (k - 2)) (L (k - 1)) (L k) =
      avg3 (joinedEdge A L (-k)) (joinedEdge A L (-k - 1)) (joinedEdge A L (-k - 2)) := by
  rw [joinedEdge_of_left (by omega), joinedEdge_of_left (by omega), joinedEdge_of_left (by omega)]
  congr 2 <;> omega

end joinedEdge

/-! D135. -/

section d135
variable (A L : Int → Nat) {r c : Nat}

theorem d135Sample_firstRow (hc : 1 ≤ c) : d135Sample A L 0 c = avg3 (A (c - 2)) (A (c - 1)) (A c) := by
  obtain ⟨j, rfl⟩ := Nat.exists_eq_add_of_le' hc
  rw [d135Sample]
  congr 2 <;> omega

theorem d135Sample_firstColumn (hr : 2 ≤ r) : d135Sample A L r 0 = avg3 (L (r - 2)) (L (r - 1)) (L r) := by
  obtain ⟨i, rfl⟩ := Nat.exists_eq_add_of_le' hr
  rw [d135Sample]
  congr 2 <;> omega

theorem d135Sample_inner (hr : 1 ≤ r) (hc : 1 ≤ c) : d135Sample A L r c = d135Sample A L (r - 1) (c - 1) := by
  obtain ⟨i, rfl⟩ := Nat.exists_eq_add_of_le' hr
  obtain ⟨j, rfl⟩ := Nat.exists_eq_add_of_le' hc
  rw [d135Sample, Nat.add_sub_cancel, Nat.add_sub_cancel]

/-- The diagonal through a sample is constant. -/
theorem d135Sample_diagonal (k : Nat) (hr : k ≤ r) (hc : k ≤ c) :
    d135Sample A L r c = d135Sample A L (r - k) (c - k) := by
  induction k with
  | zero => rfl
  | succ k ih => rw [ih (by omega) (by omega), d135Sample_inner _ _ (by omega) (by omega), Nat.sub_sub, Nat.sub_sub]

/-- The first row reads the joined edge around its column. -/
theorem d135Sample_firstRow_eq (c : Nat) :
    d135Sample A L 0 c = avg3 (joinedEdge A L (c - 2)) (joinedEdge A L (c - 1)) (joinedEdge A L c) := by
  cases c with
  | zero => rfl
  | succ j => rw [d135Sample_firstRow _ _ (by omega), avg3_aboveEdge A L (by omega)]

/-- The first column reads the joined edge below the corner, downwards. -/
theorem d135Sample_firstColumn_eq (hr : 1 ≤ r) :
    d135Sample A L r 0 = avg3 (joinedEdge A L (-r)) (joinedEdge A L (-r - 1)) (joinedEdge A L (-r - 2)) := by
  rcases Nat.eq_or_lt_of_le hr with rfl | hr
  · rfl
  · rw [d135Sample_firstColumn _ _ hr, avg3_leftEdge A L (by omega)]

/-- R120, from the sample of the first row or the first column on the same diagonal. -/
theorem d135Sample_eq (r c : Nat) : d135Sample A L r c =
    avg3 (joinedEdge A L (c - r - 2)) (joinedEdge A L (c - r - 1)) (joinedEdge A L (c - r)) := by
  rcases Nat.lt_or_ge c r with h | h
  · rw [d135Sample_diagonal A L c h.le le_rfl, Nat.sub_self, d135Sample_firstColumn_eq _ _ (by omega), avg3_reverse]
    congr 2 <;> omega
  · rw [d135Sample_diagonal A L r le_rfl h, Nat.sub_self, d135Sample_firstRow_eq, Nat.cast_sub h]

end d135

/-! D117. -/

section d117
variable (A L : Int → Nat) {r c : Nat}

theorem d117Sample_secondRow (hc : 1 ≤ c) : d117Sample A L 1 c = avg3 (A (c - 2)) (A (c - 1)) (A c) := by
  obtain ⟨j, rfl⟩ := Nat.exists_eq_add_of_le' hc
  rw [d117Sample]
  congr 2 <;> omega

theorem d117Sample_firstColumn (hr : 3 ≤ r) : d117Sample A L r 0 = avg3 (L (r - 3)) (L (r - 2)) (L (r - 1)) := by
  obtain ⟨i, rfl⟩ := Nat.exists_eq_add_of_le' hr
  rw [d117Sample]
  congr 2 <;> omega

theorem d117Sample_inner (hr : 2 ≤ r) (hc : 1 ≤ c) : d117Sample A L r c = d117Sample A L (r - 2) (c - 1) := by
  obtain ⟨i, rfl⟩ := Nat.exists_eq_add_of_le' hr
  obtain ⟨j, rfl⟩ := Nat.exists_eq_add_of_le' hc
  rw [d117Sample, Nat.add_sub_cancel, Nat.add_sub_cancel]

/-- Two rows up and one column left stands the same sample. -/
theorem d117Sample_diagonal (k : Nat) (hr : 2 * k ≤ r) (hc : k ≤ c) :
    d117Sample A L r c = d117Sample A L (r - 2 * k) (c - k) := by
  induction k with
  | zero => rfl
  | succ k ih =>
    rw [ih (by omega) (by omega), d117Sample_inner _ _ (by omega) (by omega), Nat.sub_sub, Nat.sub_sub]
    rfl

/-- The second row reads the joined edge around its column. -/
theorem d117Sample_secondRow_eq (c : Nat) :
    d117Sample A L 1 c = avg3 (joinedEdge A L (c - 2)) (joinedEdge A L (c - 1)) (joinedEdge A L c) := by
  cases c with
  | zero => rfl
  | succ j => rw [d117Sample_secondRow _ _ (by omega), avg3_aboveEdge A L (by omega)]

/-- The first column reads the joined edge below the corner, downwards. -/
theorem d117Sample_firstColumn_eq (hr : 2 ≤ r) :
    d117Sample A L r 0 = avg3 (joinedEdge A L (1 - r)) (joinedEdge A L (-r)) (joinedEdge A L (-1 - r)) := by
  rcases Nat.eq_or_lt_of_le hr with rfl | hr
  · rfl
  · rw [d117Sample_firstColumn _ _ hr]
    convert avg3_leftEdge A L (k := r - 1) (by omega) using 3 <;> omega

/-- R121, an even row on or right of its diagonal. -/
theorem d117Sample_of_even (hc : r / 2 ≤ c) (hr : r % 2 = 0) :
    d117Sample A L r c = avg2 (A ((c : Int) - (r / 2 : Nat) - 1)) (A ((c : Int) - (r / 2 : Nat))) := by
  rw [d117Sample_diagonal A L (r / 2) (by omega) hc, show r - 2 * (r / 2) = 0 by omega, d117Sample, Nat.cast_sub hc]

/-- R121, an odd row on or right of its diagonal. -/
theorem d117Sample_of_odd (hc : r / 2 ≤ c) (hr : r % 2 = 1) :
    d117Sample A L r c = avg3 (joinedEdge A L ((c : Int) - (r / 2 : Nat) - 2))
      (joinedEdge A L ((c : Int) - (r / 2 : Nat) - 1)) (joinedEdge A L ((c : Int) - (r / 2 : Nat))) := by
  rw [d117Sample_diagonal A L (r / 2) (by omega) hc, show r - 2 * (r / 2) = 1 by omega, d117Sample_secondRow_eq,
    Nat.cast_sub hc]

/-- R121, left of the diagonal. -/
theorem d117Sample_of_lt (hc : c < r / 2) {i : Int} (hi : i = (r : Int) - 2 * c) :
    d117Sample A L r c = avg3 (joinedEdge A L (1 - i)) (joinedEdge A L (-i)) (joinedEdge A L (-1 - i)) := by
  rw [d117Sample_diagonal A L c (by omega) le_rfl, Nat.sub_self, d117Sample_firstColumn_eq _ _ (by omega),
    show ((r - 2 * c : Nat) : Int) = i by omega]

/-- R116: `L[N-1]` is never read: the joined edge is read down to `e[-N]` only. -/
theorem d117Sample_congr_left {N : Nat} {L L' : Int → Nat} (hL : ∀ i : Int, 0 ≤ i → i < (N : Int) - 1 → L' i = L i)
    (hr : r < N) : d117Sample A L' r c = d117Sample A L r c := by
  have he : ∀ k : Int, -N ≤ k → joinedEdge A L' k = joinedEdge A L k := fun k hk =>
    joinedEdge_congr (fun _ => rfl) fun h => hL _ (by omega) (by omega)
  rcases Nat.lt_or_ge c (r / 2) with hc | hc
  · rw [d117Sample_of_lt A L' hc rfl, d117Sample_of_lt A L hc rfl, he _ (by omega), he _ (by omega), he _ (by omega)]
  · rcases Nat.mod_two_eq_zero_or_one r with h | h
    · rw [d117Sample_of_even A L' hc h, d117Sample_of_even A L hc h]
    · rw [d117Sample_of_odd A L' hc h, d117Sample_of_odd A L hc h, he _ (by omega), he _ (by omega), he _ (by omega)]

end d117

/-! D153. -/

section d153
variable (A L : Int → Nat) {r c : Nat}

theorem d153Sample_firstColumn (hr : 1 ≤ r) : d153Sample A L r 0 = avg2 (L (r - 1)) (L r) := by
  obtain ⟨i, rfl⟩ := Nat.exists_eq_add_of_le' hr
  rw [d153Sample]
  congr 2
  omega

theorem d153Sample_secondColumn (hr : 2 ≤ r) : d153Sample A L r 1 = avg3 (L (r - 2)) (L (r - 1)) (L r) := by
  obtain ⟨i, rfl⟩ := Nat.exists_eq_add_of_le' hr
  rw [d153Sample]
  congr 2 <;> omega

theorem d153Sample_firstRow (hc : 2 ≤ c) : d153Sample A L 0 c = avg3 (A (c - 3)) (A (c - 2)) (A (c - 1)) := by
  obtain ⟨j, rfl⟩ := Nat.exists_eq_add_of_le' hc
  rw [d153Sample]
  congr 2 <;> omega

theorem d153Sample_inner (hr : 1 ≤ r) (hc : 2 ≤ c) : d153Sample A L r c = d153Sample A L (r - 1) (c - 2) := by
  obtain ⟨i, rfl⟩ := Nat.exists_eq_add_of_le' hr
  obtain ⟨j, rfl⟩ := Nat.exists_eq_add_of_le' hc
  rfl

/-- One row up and two columns left stands the same sample. -/
theorem d153Sample_diagonal (k : Nat) (hr : k ≤ r) (hc : 2 * k ≤ c) :
    d153Sample A L r c = d153Sample A L (r - k) (c - 2 * k) := by
  induction k with
  | zero => rfl
  | succ k ih =>
    rw [ih (by omega) (by omega), d153Sample_inner _ _ (by omega) (by omega), Nat.sub_sub, Nat.sub_sub]
    rfl

/-- The second column reads the joined edge below the corner, downwards. -/
theorem d153Sample_secondColumn_eq (hr : 1 ≤ r) :
    d153Sample A L r 1 = avg3 (joinedEdge A L (-r)) (joinedEdge A L (-r - 1)) (joinedEdge A L (-r - 2)) := by
  rcases Nat.eq_or_lt_of_le hr with rfl | hr
  · rfl
  · rw [d153Sample_secondColumn _ _ hr, avg3_leftEdge A L (by omega)]

/-- R122, on or right of the diagonal: the sample of the first row it starts from. -/
theorem d153Sample_of_le {j : Nat} (hj : c = 2 * r + j) : d153Sample A L r c = d153Sample A L 0 j := by
  rw [d153Sample_diagonal A L r le_rfl (by omega), Nat.sub_self, show c - 2 * r = j by omega]

/-- R122, an even column left of the diagonal. -/
theorem d153Sample_of_even (hc : c < 2 * r) {i : Int} (hi : i = (r : Int) - (c / 2 : Nat)) (h : c % 2 = 0) :
    d153Sample A L r c = avg2 (L (i - 1)) (L i) := by
  rw [d153Sample_diagonal A L (c / 2) (by omega) (by omega), show c - 2 * (c / 2) = 0 by omega,
    d153Sample_firstColumn _ _ (by omega), show ((r - c / 2 : Nat) : Int) = i by omega]

/-- R122, an odd column left of the diagonal. -/
theorem d153Sample_of_odd (hc : c < 2 * r) {i : Int} (hi : i = (r : Int) - (c / 2 : Nat)) (h : c % 2 = 1) :
    d153Sample A L r c = avg3 (joinedEdge A L (-i)) (joinedEdge A L (-i - 1)) (joinedEdge A L (-i - 2)) := by
  rw [d153Sample_diagonal A L (c / 2) (by omega) (by omega), show c - 2 * (c / 2) = 1 by omega,
    d153Sample_secondColumn_eq _ _ (by omega), show ((r - c / 2 : Nat) : Int) = i by omega]

/-- R117: `A[N-1]` is never read: the first row reads the above edge up to the entry before its column. -/
theorem d153Sample_congr_above {N : Nat} {A A' : Int → Nat} (hA : ∀ i : Int, -1 ≤ i → i < (N : Int) - 1 → A' i = A i)
    (hc : c < N) : d153Sample A' L r c = d153Sample A L r c := by
  rcases Nat.lt_or_ge c (2 * r) with h | h
  · rcases Nat.mod_two_eq_zero_or_one c with h2 | h2
    · rw [d153Sample_of_even A' L h rfl h2, d153Sample_of_even A L h rfl h2]
    · have he : ∀ k : Int, k ≤ -1 → joinedEdge A' L k = joinedEdge A L k := fun k hk =>
        joinedEdge_congr (fun h => hA _ h (by omega)) fun _ => rfl
      rw [d153Sample_of_odd A' L h rfl h2, d153Sample_of_odd A L h rfl h2, he _ (by omega), he _ (by omega),
        he _ (by omega)]
  · obtain ⟨j, rfl⟩ := Nat.exists_eq_add_of_le h
    rw [d153Sample_of_le A' L rfl, d153Sample_of_le A L rfl]
    match j with
    | 0 => rw [d153Sample, d153Sample, hA _ (by omega) (by omega)]
    | 1 => rw [d153Sample, d153Sample, hA _ (by omega) (by omega), hA _ (by omega) (by omega)]
    | j + 2 =>
      rw [d153Sample, d153Sample, hA _ (by omega) (by omega), hA _ (by omega) (by omega), hA _ (by omega) (by omega)]

end d153

/-! D207. -/

/-- R123's `Lx`: the left column extended by its last sample. -/
def extendedLeft (N : Nat) (L : Int → Nat) (k : Nat) : Nat :=
  L ((min k (N - 1) : Nat) : Int)

section d207
variable {N : Nat} (L : Int → Nat) {r c : Nat}

theorem extendedLeft_of_lt {k : Nat} (h : k < N) : extendedLeft N L k = L k := by
  rw [extendedLeft, Nat.min_eq_left (by omega)]

theorem extendedLeft_of_last_le {k : Nat} (hN : 1 ≤ N) (h : N - 1 ≤ k) : extendedLeft N L k = L (N - 1) := by
  rw [extendedLeft, Nat.min_eq_right h, Nat.cast_sub hN, Nat.cast_one]

theorem d207Sample_lastRow (hr : r + 1 = N) (c : Nat) : d207Sample N L r c = L (N - 1) := by
  match c with
  | 0 => rw [d207Sample, if_pos hr]
  | 1 => rw [d207Sample, if_pos hr]
  | j + 2 => rw [d207Sample, if_pos hr]

theorem d207Sample_firstColumn (hr : r + 2 ≤ N) : d207Sample N L r 0 = avg2 (L r) (L (r + 1)) := by
  rw [d207Sample, if_neg (by omega)]

theorem d207Sample_secondColumn (hr : r + 3 ≤ N) : d207Sample N L r 1 = avg3 (L r) (L (r + 1)) (L (r + 2)) := by
  rw [d207Sample, if_neg (by omega), if_neg (by omega)]

theorem d207Sample_secondColumn_end (hr : r + 2 = N) :
    d207Sample N L r 1 = avg3 (L (N - 2)) (L (N - 1)) (L (N - 1)) := by
  rw [d207Sample, if_neg (by omega), if_pos hr]

theorem d207Sample_inner (hr : r + 2 ≤ N) (hc : 2 ≤ c) : d207Sample N L r c = d207Sample N L (r + 1) (c - 2) := by
  obtain ⟨j, rfl⟩ := Nat.exists_eq_add_of_le' hc
  rw [d207Sample, if_neg (by omega), Nat.add_sub_cancel]

/-- One row down and two columns left stands the same sample, down to the last row. -/
theorem d207Sample_diagonal (k : Nat) (hr : r + k < N) (hc : 2 * k ≤ c) :
    d207Sample N L r c = d207Sample N L (r + k) (c - 2 * k) := by
  induction k with
  | zero => rfl
  | succ k ih =>
    rw [ih (by omega) (by omega), d207Sample_inner _ (by omega) (by omega), Nat.sub_sub]
    rfl

/-- R118: a sample whose diagonal reaches the last row is `L[N-1]`. -/
theorem d207Sample_of_last_le (hr : r < N) (h : N - 1 ≤ r + c / 2) : d207Sample N L r c = L (N - 1) := by
  rw [d207Sample_diagonal L (N - 1 - r) (by omega) (by omega), d207Sample_lastRow L (by omega)]

/-- R123, an even column. -/
theorem d207Sample_of_even (hr : r < N) (h : c % 2 = 0) :
    d207Sample N L r c = avg2 (extendedLeft N L (r + c / 2)) (extendedLeft N L (r + c / 2 + 1)) := by
  rcases Nat.lt_or_ge (r + c / 2 + 1) N with hk | hk
  · rw [d207Sample_diagonal L (c / 2) (by omega) (by omega), show c - 2 * (c / 2) = 0 by omega,
      d207Sample_firstColumn _ (by omega), extendedLeft_of_lt L (by omega), extendedLeft_of_lt L hk, Nat.cast_succ]
  · rw [d207Sample_of_last_le L hr (by omega), extendedLeft_of_last_le L (by omega) (by omega),
      extendedLeft_of_last_le L (by omega) (by omega), avg2_self]

/-- R123, an odd column. -/
theorem d207Sample_of_odd (hr : r < N) (h : c % 2 = 1) : d207Sample N L r c =
    avg3 (extendedLeft N L (r + c / 2)) (extendedLeft N L (r + c / 2 + 1)) (extendedLeft N L (r + c / 2 + 2)) := by
  have hdiag : r + c / 2 < N → d207Sample N L r c = d207Sample N L (r + c / 2) 1 := fun hk => by
    rw [d207Sample_diagonal L (c / 2) hk (by omega), show c - 2 * (c / 2) = 1 by omega]
  have hend {k : Nat} (h : N - 1 ≤ k) : extendedLeft N L k = L (N - 1) := extendedLeft_of_last_le L (by omega) h
  rcases Nat.lt_trichotomy (r + c / 2 + 2) N with hk | hk | hk
  · rw [hdiag (by omega), d207Sample_secondColumn L (by omega), extendedLeft_of_lt L (by omega),
      extendedLeft_of_lt L (by omega), extendedLeft_of_lt L hk]
    rfl
  · rw [hdiag (by omega), d207Sample_secondColumn_end L hk, extendedLeft_of_lt L (by omega), hend (by omega),
      hend (by omega), show ((r + c / 2 : Nat) : Int) = N - 2 by omega]
  · rw [d207Sample_of_last_le L hr (by omega), hend (by omega), hend (by omega), hend (by omega), avg3_self]

end d207

/-! The statements. -/

/-- Settles O10, from the first row and the first column. -/
theorem d135ClosedForm : Obligations.D135ClosedForm := by
  unfold Obligations.D135ClosedForm
  rintro N bd A L r c - -
  exact d135Sample_eq A L r c

/-- Settles O11, from the first two rows and the first column. -/
theorem d117ClosedForm : Obligations.D117ClosedForm := by
  unfold Obligations.D117ClosedForm
  rintro N bd A L r c - -
  exact ⟨d117Sample_of_even A L, d117Sample_of_odd A L, fun hc i hi => ⟨by omega, d117Sample_of_lt A L hc hi⟩⟩

/-- Settles O12, from the first row and the first two columns. -/
theorem d153ClosedForm : Obligations.D153ClosedForm := by
  unfold Obligations.D153ClosedForm
  rintro N bd A L r c - -
  refine ⟨fun j hj => ⟨fun h => ?_, fun h => ?_, fun h => ?_⟩, fun hc i hi => ⟨by omega, fun h => ⟨?_, ?_⟩, ?_⟩⟩
  · subst h
    exact d153Sample_of_le A L hj
  · subst h
    exact d153Sample_of_le A L hj
  · exact (d153Sample_of_le A L hj).trans (d153Sample_firstRow A L h)
  · rw [joinedEdge_of_left (by omega), joinedEdge_of_left (by omega), show -(-i - 1) - 2 = i - 1 by omega,
      show -(-i - 2) - 2 = i by omega]
    exact d153Sample_of_even A L hc hi h
  · exact d153Sample_of_even A L hc hi h
  · exact d153Sample_of_odd A L hc hi

/-- Settles O13: the diagonal ends in the first two columns or in the last row. -/
theorem d207ClosedForm : Obligations.D207ClosedForm := by
  unfold Obligations.D207ClosedForm
  rintro N bd A L r c - hr - Lx hLx
  obtain rfl : Lx = extendedLeft N L := funext hLx
  exact ⟨d207Sample_of_even L hr, d207Sample_of_odd L hr⟩

end Sys2Proof.Machine
end

section
/-! SUPPORT. The eight directional commands (R112 to R119): what the availability flags do to the frame's edges, and that each command completes with its rule's samples in the block. -/

namespace Sys2Proof.Machine

open Sys2Proof.Safety

/-- The MODE field of a command's word is its kind's number (R61, R69). -/
theorem fieldOf_encode_mode (i : Instr) : fieldOf (encode i) 0 4 = modeCode (kindOf i) :=
  (fieldOf_encodeFields (modeCode_le _) _).1

theorem blockSide_even (d : Desc) : blockSide d % 2 = 0 := by
  unfold blockSide
  split <;> rfl

/-! The frame's edges and the availability flags (R163 to R166). -/

section flags
variable (m : Memory) (d : Desc) (g : OperandRegs) {i : Int}

theorem frameAbove_of_noAbove (ha : d.haveAbove = false) (hi : 0 ≤ i) :
    frameAbove m d g i = baseValue (depthOf d) - 1 := by
  simp [frameAbove, ha, show i ≠ -1 by omega]

theorem frameLeft_of_noLeft (hl : d.haveLeft = false) (i : Int) :
    frameLeft m d g i = baseValue (depthOf d) + 1 := by
  simp [frameLeft, hl]

/-- HAVE_LEFT enters the above edge at its corner only (R166). -/
theorem frameAbove_haveLeft (l : Bool) (hi : 0 ≤ i) :
    frameAbove m { d with haveLeft := l } g i = frameAbove m d g i := by
  have hcorner : i ≠ -1 := by omega
  unfold frameAbove
  rw [if_neg hcorner, if_neg hcorner]
  rfl

theorem pred_blockSide_le_limOf (d : Desc) : (blockSide d : Int) - 1 ≤ limOf d := by
  have := pred_blockSide_le_aboveLimit d
  rw [← aboveLimit_eq]
  omega

/-- HAVE_RIGHT enters the above edge right of the block only (R164). -/
theorem frameAbove_haveRight (b : Bool) (hi : i < blockSide d) :
    frameAbove m { d with haveRight := b } g i = frameAbove m d g i := by
  have hlim := pred_blockSide_le_limOf d
  have hlim' : (blockSide d : Int) - 1 ≤ limOf { d with haveRight := b } :=
    pred_blockSide_le_limOf { d with haveRight := b }
  have hmin : min i (limOf { d with haveRight := b }) = min i (limOf d) := by omega
  unfold frameAbove
  rw [hmin]
  rfl

/-- Without real above-right samples the above edge is its last sample from `A[N-1]` on (R164). -/
theorem frameAbove_replicated (h : blockSide d ≠ 4 ∨ d.haveRight = false) (hi : (blockSide d : Int) - 1 ≤ i) :
    frameAbove m d g i = frameAbove m d g (blockSide d - 1) := by
  have hside := blockSide_ge d
  have hlim : limOf d = blockSide d - 1 := if_neg fun ⟨h4, hr⟩ => h.elim (· h4) (by simp [hr])
  have hcorner : i ≠ -1 := by omega
  have hlast : (blockSide d : Int) - 1 ≠ -1 := by omega
  unfold frameAbove
  rw [hlim, min_eq_right hi, min_self, if_neg hcorner, if_neg hlast]

end flags

/-! D45 and D63 on an above edge that repeats its sample `A[N-1]`, and the entries D63 reads. -/

section rules
variable {N r c : Nat} {A A' : Int → Nat}

/-- R114's replicated half. -/
theorem predictD45_replicated (hA : ∀ i : Int, (N : Int) - 1 ≤ i → A i = A (N - 1)) (h : N - 1 ≤ r + c) (bd : Nat)
    (L : Int → Nat) : predictorOf .d45 N bd A L r c = A (N - 1) := by
  simp only [predictorOf, predictD45]
  split
  · rw [hA (r + c) (by omega), hA (r + c + 1) (by omega), hA (r + c + 2) (by omega), avg3_self]
  · exact hA _ (by omega)

/-- R119's replicated samples. -/
theorem predictD63_replicated (hA : ∀ i : Int, (N : Int) - 1 ≤ i → A i = A (N - 1)) (h : N - 1 ≤ r / 2 + c) (bd : Nat)
    (L : Int → Nat) : predictorOf .d63 N bd A L r c = A (N - 1) := by
  have h0 := hA (r / 2 + c : Nat) (by omega)
  have h1 := hA (r / 2 + c + 1 : Nat) (by omega)
  have h2 := hA (r / 2 + c + 2 : Nat) (by omega)
  simp only [predictorOf, predictD63]
  split
  · rw [h0, h1, h2, avg3_self]
  · rw [h0, h1, avg2_self]

/-- R119: no entry above `A[3N/2]` is read. -/
theorem predictD63_congr_above (hN : N % 2 = 0) (hA : ∀ i : Nat, i ≤ 3 * N / 2 → A' i = A i) (hr : r < N) (hc : c < N)
    (bd : Nat) (L L' : Int → Nat) : predictorOf .d63 N bd A' L' r c = predictorOf .d63 N bd A L r c := by
  simp only [predictorOf, predictD63]
  split
  · rw [hA _ (by omega), hA _ (by omega), hA _ (by omega)]
  · rw [hA _ (by omega), hA _ (by omega)]

end rules

/-! The statements. -/

/-- Settles O14: each sample is the frame's above edge at its column. -/
theorem vCopiesAboveRow : Obligations.VCopiesAboveRow := by
  unfold Obligations.VCopiesAboveRow
  intro d s hm hruns
  obtain ⟨t, hexec, hwrote⟩ := exec_of_runs (i := .v d) hm hruns
  refine ⟨fieldOf_encode_mode (.v d), t, hexec, hwrote, fun ha r c hr hc => ?_, fun l b c hc => ?_⟩
  · exact (hwrote.samples r c hr hc).trans (frameAbove_of_noAbove s.mem d s.latch ha (Int.natCast_nonneg c))
  · exact (frameAbove_haveRight s.mem { d with haveLeft := l } s.latch b (Int.ofNat_lt.mpr hc)).trans
      (frameAbove_haveLeft s.mem d s.latch l (Int.natCast_nonneg c))

/-- Settles O15: each sample is the frame's left column at its row. -/
theorem hCopiesLeftColumn : Obligations.HCopiesLeftColumn := by
  unfold Obligations.HCopiesLeftColumn
  intro d s hm hruns
  obtain ⟨t, hexec, hwrote⟩ := exec_of_runs (i := .h d) hm hruns
  refine ⟨fieldOf_encode_mode (.h d), t, hexec, hwrote, fun hl r c hr hc => ?_, fun _ _ _ => rfl⟩
  exact (hwrote.samples r c hr hc).trans (frameLeft_of_noLeft s.mem d s.latch hl r)

/-- Settles O16: the samples are R114's on the frame's above edge, and what is replicated averages to itself. -/
theorem d45Diagonal : Obligations.D45Diagonal := by
  unfold Obligations.D45Diagonal
  intro d s hm hruns
  obtain ⟨t, hexec, hwrote⟩ := exec_of_runs (i := .d45 d) hm hruns
  refine ⟨fieldOf_encode_mode (.d45 d), fun r c hr hc => by omega, t, hexec, hwrote, fun hrep r c hr hc hlast => ?_,
    fun l i => frameAbove_haveLeft s.mem d s.latch l (Int.natCast_nonneg i)⟩
  exact (hwrote.samples r c hr hc).trans
    (predictD45_replicated (fun i => frameAbove_replicated s.mem d s.latch hrep) hlast _ _)

/-- Settles O17: the samples are R115's on the frame's edges. -/
theorem d135Diagonal : Obligations.D135Diagonal := by
  unfold Obligations.D135Diagonal
  intro d s hm hruns
  obtain ⟨t, hexec, hwrote⟩ := exec_of_runs (i := .d135 d) hm hruns
  refine ⟨fieldOf_encode_mode (.d135 d), t, _, hexec, hwrote, ?_⟩
  rintro A L rfl rfl
  exact ⟨rfl, fun j hj _ => d135Sample_firstRow _ _ hj, rfl, fun i hi _ => d135Sample_firstColumn _ _ hi,
    fun i j hi _ hj _ => d135Sample_inner _ _ hi hj, fun b i _ => frameAbove_haveRight s.mem d s.latch b⟩

/-- Settles O18: the samples are R116's on the frame's edges. -/
theorem d117Diagonal : Obligations.D117Diagonal := by
  unfold Obligations.D117Diagonal
  intro d s hm hruns
  obtain ⟨t, hexec, hwrote⟩ := exec_of_runs (i := .d117 d) hm hruns
  refine ⟨fieldOf_encode_mode (.d117 d), t, _, hexec, hwrote, ?_⟩
  rintro A L rfl rfl
  exact ⟨fun _ _ => rfl, rfl, fun j hj _ => d117Sample_secondRow _ _ hj, rfl,
    fun i hi _ => d117Sample_firstColumn _ _ hi, fun i j hi _ hj _ => d117Sample_inner _ _ hi hj,
    fun L' hL r c hr _ => d117Sample_congr_left _ hL hr, fun b i _ => frameAbove_haveRight s.mem d s.latch b⟩

/-- Settles O19: the samples are R117's on the frame's edges. -/
theorem d153Diagonal : Obligations.D153Diagonal := by
  unfold Obligations.D153Diagonal
  intro d s hm hruns
  obtain ⟨t, hexec, hwrote⟩ := exec_of_runs (i := .d153 d) hm hruns
  refine ⟨fieldOf_encode_mode (.d153 d), t, _, hexec, hwrote, ?_⟩
  rintro A L rfl rfl
  exact ⟨rfl, fun i hi _ => d153Sample_firstColumn _ _ hi, rfl, rfl, fun i hi _ => d153Sample_secondColumn _ _ hi,
    fun j hj _ => d153Sample_firstRow _ _ hj, fun i j hi _ hj _ => d153Sample_inner _ _ hi hj,
    fun A' hA r c _ hc => d153Sample_congr_above _ hA hc, fun b i _ => frameAbove_haveRight s.mem d s.latch b⟩

/-- Settles O20: the samples are R118's on the frame's left column, which no flag but HAVE_LEFT enters. -/
theorem d207Diagonal : Obligations.D207Diagonal := by
  unfold Obligations.D207Diagonal
  intro d s hm hruns
  obtain ⟨t, hexec, hwrote⟩ := exec_of_runs (i := .d207 d) hm hruns
  have hside := blockSide_ge d
  refine ⟨fieldOf_encode_mode (.d207 d), t, _, hexec, hwrote, ?_⟩
  rintro L rfl
  have hlast : blockSide d - 1 + 1 = blockSide d := by omega
  have hend := d207Sample_secondColumn_end (frameLeft s.mem d s.latch) (show blockSide d - 2 + 2 = blockSide d by omega)
  refine ⟨fun j _ => d207Sample_lastRow _ hlast j, fun i hi => d207Sample_firstColumn _ hi,
    fun i hi => d207Sample_secondColumn _ hi, hend, hend.trans ?_, fun i j hi hj _ => d207Sample_inner _ hi hj,
    fun r c hr _ hlast => d207Sample_of_last_le _ hr hlast, fun _ _ _ _ _ => rfl, fun _ _ _ => rfl⟩
  unfold avg3
  omega

/-- Settles O21: the samples are R119's on the frame's above edge, and what is replicated averages to itself. -/
theorem d63Diagonal : Obligations.D63Diagonal := by
  unfold Obligations.D63Diagonal
  intro d s hm hruns
  obtain ⟨t, hexec, hwrote⟩ := exec_of_runs (i := .d63 d) hm hruns
  refine ⟨fieldOf_encode_mode (.d63 d), t, hexec, hwrote, fun hrep r c hr hc hlast => ?_,
    fun A hA L r c hr hc => ?_, fun l i => frameAbove_haveLeft s.mem d s.latch l (Int.natCast_nonneg i)⟩
  · exact (hwrote.samples r c hr hc).trans
      (predictD63_replicated (fun i => frameAbove_replicated s.mem d s.latch hrep) hlast _ _)
  · exact (predictD63_congr_above (blockSide_even d) hA hr hc _ _ _).trans (hwrote.samples r c hr hc).symm

end Sys2Proof.Machine
end

section
/-! SUPPORT. The DC family (R140 to R144): the sums over the frame's edges and their bound, the rounding of their average, and that each of the four commands completes with its one value in the block. -/

namespace Sys2Proof.Machine

open Sys2Proof.Safety

/-! The sums of R141 to R143. -/

/-- A sum reads the entries `f 0` to `f (n-1)` only: no corner and nothing above-right. -/
theorem sumTo_congr_nat {n : Nat} {f f' : Int → Nat} (h : ∀ i : Nat, i < n → f' i = f i) : sumTo f' n = sumTo f n :=
  sumTo_congr fun i h0 hi => by
    lift i to Nat using h0
    exact h i (Int.ofNat_lt.mp hi)

/-- R142: DC_LEFT depends on the left column only, whatever the above edge. -/
theorem predictDcLeft_congr_column {N : Nat} {L L' : Int → Nat} (hL : ∀ i : Nat, i < N → L' i = L i)
    (A A' : Int → Nat) (bd r c : Nat) : predictorOf .dcLeft N bd A L' r c = predictorOf .dcLeft N bd A' L r c := by
  simp only [predictorOf, predictDcLeft, sumTo_congr_nat hL]

/-- R143: DC_TOP depends on the above row's first N samples only, whatever the left column and the corner. -/
theorem predictDcTop_congr_row {N : Nat} {A A' : Int → Nat} (hA : ∀ i : Nat, i < N → A' i = A i)
    (L L' : Int → Nat) (bd r c : Nat) : predictorOf .dcTop N bd A' L r c = predictorOf .dcTop N bd A L' r c := by
  simp only [predictorOf, predictDcTop, sumTo_congr_nat hA]

/-- R161: a kind that needs the above edge fills at least the N entries above the block. -/
theorem side_le_aboveCount {n : AboveNeed} (hn : n ≠ .nothing) (side : Nat) : side ≤ aboveCount n side := by
  cases n with
  | nothing => exact absurd rfl hn
  | above => exact le_rfl
  | aboveRight => exact Nat.le_mul_of_pos_left side Nat.two_pos

section sums
variable {needs : EdgeNeeds} {d : Desc} {s : State}

theorem sumTo_frameLeft_le (h : ReadsOk needs d s) (hn : needs.left = true) :
    sumTo (frameLeft s.mem d s.latch) (blockSide d) ≤ blockSide d * maxSample (depthOf d) :=
  sumTo_le fun i h0 hi => by
    lift i to Nat using h0
    exact frameLeft_le h hn (Int.ofNat_lt.mp hi)

theorem sumTo_frameAbove_le (h : ReadsOk needs d s) (hn : needs.above ≠ .nothing) :
    sumTo (frameAbove s.mem d s.latch) (blockSide d) ≤ blockSide d * maxSample (depthOf d) :=
  sumTo_le fun i h0 hi =>
    frameAbove_le h hn (by omega) (hi.trans_le (Int.ofNat_le.mpr (side_le_aboveCount hn _)))

end sums

/-- R141's bound: at most 64 samples, none above 4095. -/
theorem two_blockSide_mul_maxSample_le (d : Desc) : 2 * blockSide d * maxSample (depthOf d) ≤ 262080 :=
  Nat.mul_le_mul (Nat.mul_le_mul_left 2 (blockSide_le d)) (maxSample_le d)

/-- R141: a sum half-way between `k` and `k + 1` rounds up. -/
theorem roundedMean_halfway {N : Nat} (hN : 0 < N) (k : Nat) : (2 * N * k + N + N) / (2 * N) = k + 1 := by
  rw [Nat.add_assoc, ← Nat.two_mul N, ← Nat.mul_succ, Nat.mul_div_cancel_left _ (by omega)]

/-! The mid value and the reads of DC_128. -/

/-- R15's three mid values. -/
theorem baseValue_depthOf (d : Desc) :
    baseValue (depthOf d) = 128 ∨ baseValue (depthOf d) = 512 ∨ baseValue (depthOf d) = 2048 := by
  unfold depthOf
  split <;> decide

/-- R161: without available edges every entry is a constant. -/
theorem readAddresses_of_noEdges (needs : EdgeNeeds) {d : Desc} (g : OperandRegs) (hl : d.haveLeft = false)
    (ha : d.haveAbove = false) : readAddresses needs d g = [] := by
  refine List.eq_nil_iff_forall_not_mem.mpr fun q hq => ?_
  obtain ⟨slot, dr, dc, hplan, -⟩ := mem_readAddresses.mp hq
  rcases mem_edgePlan_sample hplan with ⟨h, -⟩ | ⟨h, -⟩ | ⟨h, -⟩
  · exact Bool.false_ne_true (hl.symm.trans h)
  · exact Bool.false_ne_true (ha.symm.trans h)
  · exact Bool.false_ne_true (ha.symm.trans h)

/-! The statements. -/

/-- Settles O24: the value is R141's on the frame's edges, and each edge sums to at most `N` times the greatest sample. -/
theorem dcBothAverages : Obligations.DcBothAverages := by
  unfold Obligations.DcBothAverages
  rintro e d s rfl hm hruns
  obtain ⟨t, hexec, hwrote⟩ := exec_of_runs (i := .dcBoth e) hm hruns
  have hside := blockSide_ge (dcDesc true true e)
  have habove := sumTo_frameAbove_le hruns.reads nofun
  have hleft := sumTo_frameLeft_le hruns.reads rfl
  have hsum := Nat.add_le_add habove hleft
  rw [← Nat.two_mul, ← Nat.mul_assoc] at hsum
  refine ⟨(Laws.EncodedBits.dcBoth e).1, t, _, _, hexec, rfl, rfl, hwrote,
    hsum.trans (two_blockSide_mul_maxSample_le _), roundedMean_le hsum (by omega), fun k hk => ?_⟩
  rw [hk]
  exact roundedMean_halfway (by omega) k

/-- Settles O25: the value is R142's on the frame's left column, and no other entry enters its sum. -/
theorem dcLeftAverages : Obligations.DcLeftAverages := by
  unfold Obligations.DcLeftAverages
  rintro e d s rfl hm hruns
  obtain ⟨t, hexec, hwrote⟩ := exec_of_runs (i := .dcLeft e) hm hruns
  refine ⟨(Laws.EncodedBits.dcLeft e).1, t, hexec, hwrote, fun A L hL r c hr hc => ?_⟩
  exact (predictDcLeft_congr_column hL A _ _ r c).trans (hwrote.samples r c hr hc).symm

/-- Settles O26: the value is R143's on the frame's above row, and no other entry enters its sum. -/
theorem dcTopAverages : Obligations.DcTopAverages := by
  unfold Obligations.DcTopAverages
  rintro e d s rfl hm hruns
  obtain ⟨t, hexec, hwrote⟩ := exec_of_runs (i := .dcTop e) hm hruns
  refine ⟨(Laws.EncodedBits.dcTop e).1, t, hexec, hwrote, fun A L hA r c hr hc => ?_⟩
  exact (predictDcTop_congr_row hA L _ _ r c).trans (hwrote.samples r c hr hc).symm

/-- Settles O27: the value is R15's mid value, and with neither edge available no source is a sample. -/
theorem dc128Constant : Obligations.Dc128Constant := by
  unfold Obligations.Dc128Constant
  rintro e d s rfl hm hruns
  obtain ⟨t, hexec, hwrote⟩ := exec_of_runs (i := .dc128 e) hm hruns
  rw [← baseValue_eq_shiftLeft]
  exact ⟨(Laws.EncodedBits.dc128 e).1, readAddresses_of_noEdges _ _ rfl rfl, t, hexec, hwrote, baseValue_depthOf _⟩

end Sys2Proof.Machine
end

section
/-! SUPPORT. The TM command (R150, R151): the clip on values in range, the bound on the unclipped gradient, and the corner of the frame's edges when an edge is missing. -/

namespace Sys2Proof.Machine

open Sys2Proof.Safety

/-! The rule on edges alone. -/

/-- R14: the clip leaves a sample in range as it is. -/
theorem clip_natCast {bd v : Nat} (hv : v ≤ maxSample bd) : clip bd v = v := by
  have := natCast_clip bd v
  omega

section rules
variable {N bd r c : Nat} {A L : Int → Nat}

/-- R150 where the above sample equals the corner: the sample of the left column. -/
theorem predictTm_of_above_eq_corner (hA : A c = A (-1)) (hL : L r ≤ maxSample bd) :
    predictorOf .tm N bd A L r c = L r := by
  simp only [predictorOf, predictTm, hA, add_sub_cancel_right, clip_natCast hL]

/-- R150 where the left sample equals the corner: the sample of the above row. -/
theorem predictTm_of_left_eq_corner (hL : L r = A (-1)) (hA : A c ≤ maxSample bd) :
    predictorOf .tm N bd A L r c = A c := by
  simp only [predictorOf, predictTm, hL, add_sub_cancel_left, clip_natCast hA]

end rules

/-! The corner `A[-1]` when an edge is missing (R166). -/

section corner
variable (m : Memory) (d : Desc) (g : OperandRegs)

theorem frameAbove_corner_of_noAbove (ha : d.haveAbove = false) :
    frameAbove m d g (-1) = baseValue (depthOf d) - 1 := by
  simp [frameAbove, ha]

theorem frameAbove_corner_of_noLeft (ha : d.haveAbove = true) (hl : d.haveLeft = false) :
    frameAbove m d g (-1) = baseValue (depthOf d) + 1 := by
  simp [frameAbove, ha, hl]

end corner

/-! The statements. -/

/-- Settles O22: the samples are R150's on the frame's edges, each of whose three entries lies in `[0, 2^BDV - 1]`. -/
theorem tmClipsTheGradient : Obligations.TmClipsTheGradient := by
  unfold Obligations.TmClipsTheGradient
  intro d s hm hruns
  obtain ⟨t, hexec, hwrote⟩ := exec_of_runs (i := .tm d) hm hruns
  refine ⟨fieldOf_encode_mode (.tm d), t, hexec, hwrote, fun r c hr hc => ?_⟩
  have hleft := frameLeft_le hruns.reads rfl hr
  have habove := frameAbove_le hruns.reads nofun (by omega) (Int.ofNat_lt.mpr hc)
  have hcorner := frameAbove_le hruns.reads nofun le_rfl (neg_one_lt_zero.trans_le (Int.natCast_nonneg _))
  constructor <;> omega

/-- Settles O23: a missing edge equals the corner, so that the sum is the other edge's sample, which the clip keeps. -/
theorem tmWithMissingEdges : Obligations.TmWithMissingEdges := by
  unfold Obligations.TmWithMissingEdges
  intro d s t hm hruns hexec r c hr hc
  have hsample := sampleIn_of_exec (k := .tm) rfl hm hruns hexec hr hc
  have hH (ha : d.haveAbove = false) : sampleIn t.mem d s.latch r c = frameLeft s.mem d s.latch r :=
    hsample.trans <| predictTm_of_above_eq_corner
      ((frameAbove_of_noAbove _ _ _ ha (Int.natCast_nonneg c)).trans (frameAbove_corner_of_noAbove _ _ _ ha).symm)
      (frameLeft_le hruns.reads rfl hr)
  refine ⟨hH, fun ha hl => ?_, fun ha hl => (hH ha).trans (frameLeft_of_noLeft _ _ _ hl r)⟩
  exact hsample.trans <| predictTm_of_left_eq_corner
    ((frameLeft_of_noLeft _ _ _ hl r).trans (frameAbove_corner_of_noLeft _ _ _ ha hl).symm)
    (frameAbove_le hruns.reads nofun (by omega) (Int.ofNat_lt.mpr hc))

end Sys2Proof.Machine
end

section
/-! SUPPORT. Edge assembly (R161 to R168): where the sources of an available edge lie, inside the frame they are not replicated, and the fill that leaves the frame's edges in the buffers. -/

namespace Sys2Proof.Machine

open Sys2Proof.Safety

/-! The sources of an available edge. -/

section sources
variable {d : Desc} {g : OperandRegs} {i : Nat}

/-- R168: a row inside the frame is its own source. -/
theorem leftSource_of_row_in_frame (hl : d.haveLeft = true) (hrow : g.y0.toNat + i < g.frameH.toNat) :
    leftSource d g i = .sample i (-1) := by
  rw [leftSource, if_pos hl, min_eq_left (by omega)]

/-- R168: when the frame holds column `Lim`, no above source is replicated past its right. -/
theorem aboveSource_of_limit_in_frame (ha : d.haveAbove = true)
    (hlim : (g.x0.toNat : Int) + limOf d < g.frameW.toNat) :
    aboveSource d g i = .sample (-1) (min (i : Int) (limOf d)) := by
  rw [aboveSource, if_pos ha, aboveLimit_eq, min_eq_left (by omega)]

/-- R165: the row a left sample is read from, when the block starts inside the frame. -/
theorem leftRow_bounds {dr : Int} (hy : g.y0.toNat < g.frameH.toNat) (hi : i < blockSide d)
    (hdr : dr = min (i : Int) ((g.frameH.toNat : Int) - 1 - g.y0.toNat)) :
    0 ≤ dr ∧ dr < blockSide d ∧ (g.y0.toNat : Int) + dr < g.frameH.toNat := by
  omega

/-- R162, R164: the column an above sample is read from, when the block starts inside the frame. -/
theorem aboveColumn_bounds {n : AboveNeed} {dc : Int} (hx : g.x0.toNat < g.frameW.toNat)
    (hi : i < aboveCount n (blockSide d))
    (hdc : dc = min (min (i : Int) (aboveLimit d)) ((g.frameW.toNat : Int) - 1 - g.x0.toNat)) :
    0 ≤ dc ∧ dc < 2 * blockSide d ∧ (g.x0.toNat : Int) + dc < g.frameW.toNat := by
  have hcount := aboveCount_le n (blockSide d)
  omega

end sources

/-! The statements. -/

/-- Settles O31: with the reads good every source gives a value, and the fill stores the frame's edges. -/
theorem edgesAreTheFrames : Obligations.EdgesAreTheFrames := by
  unfold Obligations.EdgesAreTheFrames
  intro k d s hreads
  have hE := edgesOnly_storeAll d s (edgePlan (needsOf k) d s.latch) s
  exact ⟨_, fillEdges_filled (readsOk_iff.mp hreads), hE.mem, hE.status,
    fun hn _ hi => leftEdge_fill hreads hn hi, fun hn _ h0 hi => aboveEdge_fill hreads hn h0 hi⟩

/-- Settles O32, one case for each class of reads: the checks put the block's first row and column inside the frame, and
an available edge one row above or one column left of them. -/
theorem readsInsideFrame : Obligations.ReadsInsideFrame := by
  unfold Obligations.ReadsInsideFrame
  intro k d g slot dr dc hcheck hread
  obtain ⟨-, -, -, hx, hy, habove, hleft⟩ := of_checkCommand hcheck
  rcases mem_edgePlan_sample hread with ⟨hl, rfl, i, hi, hdr⟩ | ⟨ha, hl, rfl, rfl⟩ | ⟨ha, rfl, i, hi, hdc⟩
  · obtain ⟨hdr0, hdrN, hdrH⟩ := leftRow_bounds hy hi hdr
    have hx0 := hleft hl
    exact ⟨.inl ⟨rfl, by omega, by omega⟩, by omega, hdrH, by omega, by omega⟩
  · have hx0 := hleft hl
    have hy0 := habove ha
    exact ⟨.inl ⟨rfl, by omega, by omega⟩, by omega, by omega, by omega, by omega⟩
  · obtain ⟨hdc0, hdcN, hdcW⟩ := aboveColumn_bounds hx hi hdc
    have hy0 := habove ha
    exact ⟨.inr ⟨rfl, by omega, by omega⟩, by omega, by omega, by omega, hdcW⟩

/-- Settles O33: the block's rows, and the above row up to `Lim`, lie inside the frame. -/
theorem fastPathAgrees : Obligations.FastPathAgrees := by
  unfold Obligations.FastPathAgrees
  exact fun d g => ⟨fun hw ha i => aboveSource_of_limit_in_frame ha (by omega),
    fun hh hl i hi => leftSource_of_row_in_frame hl (by omega)⟩

end Sys2Proof.Machine
end

section
/-! SUPPORT. A command's faults and STATUS (R200 to R204): which code is raised first, what a fault leaves, that FAULT stays until a reset, and what an idle block keeps. -/

namespace Sys2Proof.Machine

open Sys2Proof.Safety

/-! The least code whose condition holds (R201). -/

/-- `o` is the least code from `n` on whose condition `P` holds, and `none` when no code from `n` on has one. -/
def LeastFrom (P : Nat → Prop) (n : Nat) (o : Option FaultCode) : Prop :=
  match o with
  | some k => IsLeast {m | n ≤ m ∧ P m} (faultNumber k)
  | none => ∀ m, n ≤ m → ¬ P m

section leastFrom
variable {P : Nat → Prop} {o : Option FaultCode}

theorem leastFrom_here (k : FaultCode) (h : P (faultNumber k)) : LeastFrom P (faultNumber k) (some k) :=
  ⟨⟨le_rfl, h⟩, fun _ hm => hm.1⟩

theorem leastFrom_skip {n : Nat} (hn : ¬ P n) (h : LeastFrom P (n + 1) o) : LeastFrom P n o := by
  have hset : ∀ m, n ≤ m ∧ P m ↔ n + 1 ≤ m ∧ P m := fun m =>
    ⟨fun ⟨hle, hm⟩ => ⟨Nat.lt_of_le_of_ne hle (by rintro rfl; exact hn hm), hm⟩, fun ⟨hle, hm⟩ => ⟨by omega, hm⟩⟩
  cases o with
  | some k => simpa only [LeastFrom, hset] using h
  | none => exact fun m hle hm => h m ((hset m).mp ⟨hle, hm⟩).1 hm

/-- A check of code `k` followed by the checks of the codes after it. -/
theorem leastFrom_ite {c : Prop} [Decidable c] (k : FaultCode) (hc : c ↔ P (faultNumber k))
    (h : LeastFrom P (faultNumber k + 1) o) : LeastFrom P (faultNumber k) (if c then some k else o) := by
  split_ifs with hif
  · exact leastFrom_here k (hc.mp hif)
  · exact leastFrom_skip (mt hc.mpr hif) h

end leastFrom

/-- R201: the code that the decoder and CheckCommand raise on the latched registers `g`; `step_of_latchedFault`
ties it to the step. -/
def latchedFault (g : OperandRegs) : Option FaultCode :=
  match decode g.cmd with
  | .error e => some (decodeFault e)
  | .ok i => checkCommand (descOf i) g

theorem dstOf_mod_two (g : OperandRegs) : dstOf g % 2 = g.dstLo.toNat % 2 := by
  unfold dstOf
  omega

/-- `faultCause` states no condition for the codes beyond 9. -/
theorem not_faultCause_of_ten_le {g : OperandRegs} {n : Nat} (h : 10 ≤ n) : ¬ faultCause g n := by
  obtain ⟨k, rfl⟩ := Nat.exists_eq_add_of_le' h
  exact id

/-- On a decoded command CheckCommand looks at the rest of R200's conditions, in code order (R201). -/
theorem checkCommand_leastFrom {g : OperandRegs} {i : Instr} (hdec : decode g.cmd = .ok i) :
    LeastFrom (faultCause g) 6 (checkCommand (descOf i) g) := by
  obtain ⟨-, hwf⟩ := legal_of_decode hdec
  obtain ⟨bd, -, hdesc, -⟩ := decode_ok hdec
  have hside : blockSide (descOf i) = 4 * 2 ^ fieldOf g.cmd 4 2 := blockSide_of_code (fieldOf_lt _ 4 2) (by rw [hdesc])
  unfold checkCommand
  rw [← wellFormed_eq, hwf, hside, dstOf_mod_two, hdesc, if_neg (by decide)]
  refine leastFrom_ite .misalignedDst Iff.rfl ?_
  refine leastFrom_ite .strideTooSmall Iff.rfl ?_
  refine leastFrom_ite .positionOutOfFrame Iff.rfl ?_
  refine leastFrom_ite .edgeOutsideFrame Iff.rfl ?_
  exact fun _ => not_faultCause_of_ten_le

/-- The decoder and then CheckCommand raise the least code from 2 on whose condition holds (R201). -/
theorem latchedFault_leastFrom (g : OperandRegs) : LeastFrom (faultCause g) 2 (latchedFault g) := by
  unfold latchedFault
  rcases decode_cases g.cmd with
    ⟨h2, hdec⟩ | ⟨h2, h3, hdec⟩ | ⟨h2, h3, h4, hdec⟩ | ⟨h2, h3, h4, h5, hbyte, hdec⟩ |
      ⟨h2, h3, h4, h5, i, bd, hdec, -⟩ <;> rw [hdec]
  · exact leastFrom_here .reservedBits h2
  all_goals refine leastFrom_skip (not_not.mpr h2) ?_
  · exact leastFrom_here .reservedMode h3
  all_goals refine leastFrom_skip (by simp only [faultCause]; omega) ?_
  · exact leastFrom_here .reservedBd h4
  all_goals refine leastFrom_skip (by simp only [faultCause]; omega) ?_
  · exact leastFrom_here .bdStorageMismatch ⟨hbyte, h5⟩
  · refine leastFrom_skip ?_ (checkCommand_leastFrom hdec)
    rintro ⟨hbyte, hdeep⟩
    rcases h5 with h0 | h16
    · exact hdeep h0
    · rw [h16] at hbyte
      cases hbyte

/-- `faultCause` states no condition for the codes below 2. -/
theorem two_le_of_faultCause {g : OperandRegs} {n : Nat} (h : faultCause g n) : 2 ≤ n := by
  rcases n with _ | _ | n
  · exact h.elim
  · exact h.elim
  · omega

/-- The code raised is the least of all codes with a condition that holds. -/
theorem isLeast_of_latchedFault {g : OperandRegs} {k : FaultCode} (h : latchedFault g = some k) :
    IsLeast {n | faultCause g n} (faultNumber k) := by
  have hleast := latchedFault_leastFrom g
  rw [h] at hleast
  exact ⟨hleast.1.2, fun n hn => hleast.2 ⟨two_le_of_faultCause hn, hn⟩⟩

theorem not_faultCause_of_noLatchedFault {g : OperandRegs} (h : latchedFault g = none) (n : Nat) : ¬ faultCause g n := by
  have hleast := latchedFault_leastFrom g
  rw [h] at hleast
  exact fun hn => hleast n (two_le_of_faultCause hn) hn

/-- The code raised ends the command, whatever memory holds (R203). -/
theorem step_of_latchedFault {s : State} {k : FaultCode} (hturn : BlockToMove s) (h : latchedFault s.latch = some k) :
    ∃ t, step s = .next t ∧ Faulted k (afterInput s) t := by
  unfold latchedFault at h
  split at h
  · next e hdec =>
    cases h
    exact step_illegal hturn hdec
  · next i hdec =>
    have hcode : 5 ≤ faultNumber k := checkCommand_code h
    refine ⟨_, ?_, faulted_raiseFault (ne_of_code (k := k) (by omega)).2 (afterInput s)⟩
    rw [stepRunsDecodedCommand s i hturn hdec, exec_eq_runCommand, runCommand, commandFront, afterInput_latch, h]

/-- With no code to raise the command is decoded and has passed CheckCommand. -/
theorem of_noLatchedFault {g : OperandRegs} (h : latchedFault g = none) :
    ∃ i, decode g.cmd = .ok i ∧ checkCommand (descOf i) g = none := by
  unfold latchedFault at h
  split at h
  · cases h
  · next i hdec => exact ⟨i, hdec, h⟩

/-- Settles O38: the code the step raises is the least with a condition that holds, and there is at most one such. -/
theorem smallestFaultCodeWins : Obligations.SmallestFaultCodeWins := by
  unfold Obligations.SmallestFaultCodeWins
  intro s hturn
  cases hfault : latchedFault s.latch with
  | some k =>
    have hleast := isLeast_of_latchedFault hfault
    obtain ⟨t, hstep, hfaulted⟩ := step_of_latchedFault hturn hfault
    refine ⟨fun n hn hmin => ⟨t, k, ?_, hstep, hfaulted⟩, fun hnone => absurd hleast.1 (hnone _)⟩
    exact hleast.unique ⟨hn, fun m hm => not_lt.mp fun hlt => hmin m hlt hm⟩
  | none =>
    obtain ⟨i, hdec, hcheck⟩ := of_noLatchedFault hfault
    exact ⟨fun n hn _ => absurd hn (not_faultCause_of_noLatchedFault hfault n),
      fun _ => ⟨i, hdec, hcheck, stepRunsDecodedCommand s i hturn hdec⟩⟩

/-! A command's fault (R203). -/

/-- Settles O43: of the ends of a command only a fault turns FAULT on. -/
theorem faultingCommandWritesNothing : Obligations.FaultingCommandWritesNothing := by
  unfold Obligations.FaultingCommandWritesNothing
  intro i s t hexec hclear hfault
  rw [exec_eq_runCommand] at hexec
  rcases runCommand_ends hexec with ⟨k, hk, rfl⟩ | ⟨u, hE, hend⟩
  · have hfaulted := faulted_raiseFault (ne_of_code (k := k) (by omega)).2 s
    refine ⟨k, hk, hfaulted.status.trans ?_, hfaulted⟩
    simp [faultedStatus, hclear]
  · have hkept : t.status.fault = u.status.fault := by
      rcases hend with rfl | ⟨-, rfl⟩ | rfl <;> rfl
    rw [hkept, hE.status, hclear] at hfault
    cases hfault

/-! FAULT stays until a reset (R204). -/

section sticky
variable {s t : State} (hf : s.status.fault = true)
include hf

theorem raiseFault_keeps_fault (k : FaultCode) :
    (raiseFault k s).status.fault = true ∧ (raiseFault k s).status.faultCode = s.status.faultCode := by
  simp [hf]

/-- A command keeps the first code, whichever way it ends. -/
theorem exec_keeps_fault {i : Instr} (h : exec i s = .next t) :
    t.status.fault = true ∧ t.status.faultCode = s.status.faultCode := by
  obtain ⟨-, hfault, hcode, -⟩ := commandFrame i s t h
  exact ⟨hfault.elim (fun hkept => hkept.trans hf) id, hcode hf⟩

/-- A START keeps the first code: it faults while BUSY, and otherwise the block is halted. -/
theorem startCommand_keeps_fault :
    (startCommand s).status.fault = true ∧ (startCommand s).status.faultCode = s.status.faultCode := by
  cases hb : s.status.busy with
  | true =>
    rw [startCommand_of_busy hb]
    exact raiseFault_keeps_fault hf _
  | false =>
    rw [startCommand_of_halted hb hf]
    exact ⟨hf, rfl⟩

/-- No host access clears FAULT or its code. -/
theorem hostOp_keeps_fault {op : HostOp} (h : hostOp op s = .next t) :
    t.status.fault = true ∧ t.status.faultCode = s.status.faultCode := by
  rcases hostOp_cases h with ⟨r, rfl⟩ | ⟨g, -, rfl⟩ | rfl | rfl | ⟨a, n, v, -, -, rfl⟩
  · exact ⟨hf, rfl⟩
  · exact ⟨hf, rfl⟩
  · exact ⟨hf, rfl⟩
  · exact startCommand_keeps_fault hf
  · exact ⟨hf, rfl⟩

/-- Of the moves of `step_cases` only a reset clears FAULT or its code. -/
theorem step_keeps_fault (hreset : s.inputs.head? ≠ some .reset) (h : step s = .next t) :
    t.status.fault = true ∧ t.status.faultCode = s.status.faultCode := by
  rcases step_cases h with
    ⟨-, ⟨i, -, hexec⟩ | ⟨e, -, rfl⟩⟩ | ⟨-, rfl⟩ | ⟨op, rest, -, hop⟩ | ⟨rest, hin, -⟩ | ⟨rs, rest, -, rfl⟩
  · exact exec_keeps_fault (s := afterInput s) hf hexec
  · exact raiseFault_keeps_fault (s := afterInput s) hf _
  · exact ⟨hf, rfl⟩
  · exact hostOp_keeps_fault (s := afterInput s) hf hop
  · exact absurd (by rw [hin]; rfl) hreset
  · exact ⟨hf, rfl⟩

/-- A write of CTRL to a halted block changes nothing, its bit 0 set or not (R29, R204). -/
theorem step_ctrl_of_halted {v : Word} {rest : List Event} (hb : s.status.busy = false)
    (hin : regWriteNext s 0x20 4 v rest) : step s = .next (afterInput s) := by
  obtain ⟨-, hwrite⟩ := controlRegister s
  obtain ⟨hignored, -, hhalted, -⟩ := hwrite v rest hin
  cases hv : bitOf v 0 with
  | false => exact hignored hv
  | true => exact hhalted hv hb hf

end sticky

/-- Settles O53, from what each move of the machine does to a FAULT that is set. -/
theorem faultIsSticky : Obligations.FaultIsSticky := by
  unfold Obligations.FaultIsSticky
  exact fun s hf => ⟨fun t => step_keeps_fault hf, fun v rest => step_ctrl_of_halted hf,
    fun rest hin => ⟨_, step_reset hin, resetBlock_status _⟩⟩

/-! An idle block and a change of the allocation (R47, R209, R224). -/

/-- A byte is allocated exactly when a region of the allocation holds it. -/
theorem allocated_iff {p : Platform} {a : Nat} :
    allocated p a = true ↔ ∃ r ∈ p.alloc, r.base ≤ a ∧ a < r.base + r.size := by
  simp [allocated]

/-- R43, R47: a request is admitted exactly when it is in range and each of its bytes is allocated. -/
theorem admitted_iff {p : Platform} {a : Int} {n : Nat} :
    admitted p a n = true ↔
      0 ≤ a ∧ a + n ≤ 2 ^ p.addrW ∧
      ∀ k : Nat, k < n → ∃ r ∈ p.alloc, (r.base : Int) ≤ a + k ∧ a + k < r.base + r.size := by
  simp only [admitted, Bool.and_eq_true, decide_eq_true_eq, List.all_eq_true, List.mem_range, allocated_iff, and_assoc]
  refine and_congr_right fun hlow => and_congr_right fun _ => forall₂_congr fun k _ => ?_
  refine exists_congr fun r => and_congr_right fun _ => ?_
  omega

/-- A step whose next input is a change of the allocation makes it, and does nothing else. -/
theorem step_allocation {s : State} {rs : List Region} {rest : List Event} (h : s.inputs = .allocation rs :: rest) :
    step s = .next { afterInput s with platform := { s.platform with alloc := rs } } := by
  simp only [step, takeTurn_allocation h]

/-- Settles O54: the turn of an idle block changes nothing, and the new regions are the ones `admitted_iff` asks of. -/
theorem idleBlockHolds : Obligations.IdleBlockHolds := by
  unfold Obligations.IdleBlockHolds
  refine fun s => ⟨fun hb hin => ?_, fun rs rest hin => ⟨_, step_allocation hin, rfl, fun a n => admitted_iff⟩⟩
  rw [step_idleTurn (.inl hb) (.inl hin), afterInput_nil hin]

end Sys2Proof.Machine
end

section
/-! SUPPORT. A host access in a running command's footprint (R226), and what a reset leaves of memory (R220). -/

namespace Sys2Proof.Machine

open Sys2Proof.Safety

/-- Settles O51: the shared byte makes the access touch the running command, which is asked before admission. -/
theorem footprintAccessRefused : Obligations.FootprintAccessRefused := by
  unfold Obligations.FootprintAccessRefused
  intro s i addr bytes v a rest hb hdecode hcheck hlow hhigh hfoot
  have htouch : touchesRunning (afterInput s) addr bytes = true :=
    touchesRunning_iff.mpr ⟨hb, i, hdecode, hcheck, a, hlow, hhigh, hfoot⟩
  exact ⟨fun hin => (step_host hin).trans (memoryAccess_touches _ htouch),
    fun hin => (step_host hin).trans (memoryAccess_touches _ htouch)⟩

/-! Memory after a reset (R220). -/

theorem abandonedMemory_of_notRunning {s : State} (h : s.status.busy = false ∨ s.stuck = true) :
    abandonedMemory s = s.mem := by
  rcases abandonedMemory_cases s with hkept | ⟨i, hb, hstuck, -⟩
  · exact hkept
  · simp [hb, hstuck] at h

theorem abandonedMemory_of_illegal {s : State} {e : DecodeError} (h : decode s.latch.cmd = .error e) :
    abandonedMemory s = s.mem := by
  rcases abandonedMemory_cases s with hkept | ⟨i, -, -, hdecode, -⟩
  · exact hkept
  · rw [h] at hdecode; cases hdecode

section command
variable {s : State} {i : Instr} (hdecode : decode s.latch.cmd = .ok i)
include hdecode

/-- `abandonedMemory_cases` for the command that the latch decodes to: memory changes only when its checks and its reads
pass, and then by some of its writes. -/
theorem abandonedMemory_of_decode :
    abandonedMemory s = s.mem ∨
    checkCommand (descOf i) s.latch = none ∧ ReadsOk (needsOf (kindOf i)) (descOf i) s ∧
      abandonedMemory s = writeSomeSamples s.platform s.freeCount 0 (sampleBytes (descOf i))
        (writesOf (needsOf (kindOf i)) (predictorOf (kindOf i)) (descOf i) s) s.mem := by
  rcases abandonedMemory_cases s with hkept | ⟨j, -, -, hj, hcheck, hok, hsome⟩
  · exact .inl hkept
  · obtain rfl : i = j := Except.ok.inj (hdecode.symm.trans hj)
    exact .inr ⟨hcheck, readsOk_iff.mpr hok, hsome⟩

theorem abandonedMemory_of_failedCheck (h : checkCommand (descOf i) s.latch ≠ none) : abandonedMemory s = s.mem :=
  (abandonedMemory_of_decode hdecode).resolve_right fun ⟨hcheck, _, _⟩ => h hcheck

theorem abandonedMemory_of_badRead (h : ¬ ReadsOk (needsOf (kindOf i)) (descOf i) s) : abandonedMemory s = s.mem :=
  (abandonedMemory_of_decode hdecode).resolve_right fun ⟨_, hreads, _⟩ => h hreads

theorem readByte_abandonedMemory_outside {a : Nat} (ha : OutsideBlock (descOf i) s.latch a) :
    readByte (abandonedMemory s) a = readByte s.mem a := by
  rcases abandonedMemory_of_decode hdecode with hkept | ⟨-, -, hsome⟩
  · rw [hkept]
  · rw [hsome]
    exact readByte_writeSomeSamples_outside _ fun w hw hadm =>
      outside_destWrites ha hw (saddr_nonneg_of_admitted hadm)

variable {r c : Nat} (hr : r < blockSide (descOf i)) (hc : c < blockSide (descOf i))
include hr hc

theorem sampleIn_abandonedMemory_admitted (hm : s.mem.wf)
    (hadm : admitted s.platform (saddr (descOf i) s.latch r c) (sampleBytes (descOf i)) = true) :
    sampleIn (abandonedMemory s) (descOf i) s.latch r c = sampleIn s.mem (descOf i) s.latch r c ∨
    sampleIn (abandonedMemory s) (descOf i) s.latch r c =
      predictorOf (kindOf i) (blockSide (descOf i)) (depthOf (descOf i))
        (frameAbove s.mem (descOf i) s.latch) (frameLeft s.mem (descOf i) s.latch) r c := by
  rcases abandonedMemory_of_decode hdecode with hkept | ⟨hcheck, hreads, hsome⟩
  · exact .inl (by rw [hkept])
  · rw [hsome, ← storedPrediction_eq hcheck hreads hr hc]
    exact sampleIn_writeSomeSamples hm (stride_of_check hcheck) _ _ _ hr hc hadm

theorem sampleIn_abandonedMemory_unadmitted
    (hadm : admitted s.platform (saddr (descOf i) s.latch r c) (sampleBytes (descOf i)) = false) :
    sampleIn (abandonedMemory s) (descOf i) s.latch r c = sampleIn s.mem (descOf i) s.latch r c := by
  rcases abandonedMemory_of_decode hdecode with hkept | ⟨hcheck, -, hsome⟩
  · rw [hkept]
  · rw [hsome]
    exact sampleIn_writeSomeSamples_unadmitted (stride_of_check hcheck) _ _ _ _ hr hc hadm

end command

/-- Settles O56: the step is `resetBlock`, whose memory is `abandonedMemory`. -/
theorem resetEvent : Obligations.ResetEvent := by
  unfold Obligations.ResetEvent
  intro s rest hm hin
  refine ⟨_, step_reset hin, rfl, ?status, rfl, rfl, ?inputs, rfl, ?notRunning, fun i hdecode => ?command, ?illegal⟩
  case status => rw [resetBlock_status]; decide
  case inputs => rw [resetBlock_inputs, afterInput_inputs, hin, List.tail_cons]
  case notRunning => exact abandonedMemory_of_notRunning (s := afterInput s)
  case illegal => exact fun e => abandonedMemory_of_illegal (s := afterInput s)
  case command =>
    replace hdecode : decode (afterInput s).latch.cmd = .ok i := hdecode
    exact ⟨fun a => readByte_abandonedMemory_outside hdecode,
      fun _ _ r c hr hc => sampleIn_abandonedMemory_admitted hdecode hr hc hm,
      fun _ r c hr hc => sampleIn_abandonedMemory_unadmitted hdecode hr hc,
      abandonedMemory_of_failedCheck hdecode, abandonedMemory_of_badRead hdecode⟩

end Sys2Proof.Machine
end
